-- ==== Sys2Proof/Word.lean ====
section
/-!
DEFINITION. The one word type of the sr-android frame engine (srfe): the byte of 00_scope.md rule R11. Every length
and index is an unbounded natural number (rule R13), and the motor inputs are exact rationals, so no other word is
needed.
-/
namespace Sys2Proof

/-- An unsigned 8-bit value, 0 to 255; bit 0 is the least significant bit (00_scope.md rule R11). -/
abbrev Byte := BitVec 8

end Sys2Proof
end

