-- ==== Sys2Proof/Syntax.lean ====
section
/-!
DEFINITION. The instructions of the block: one constructor of `Instr` for each of the 27 rows of
spec/opcode_table.json (eight operations, eight outbound frames, eight inbound frames, three invalid inbound forms),
with the opcode enumeration, the three encoding spaces the rows live in, and the reasons a decoder rejects bytes.
-/
namespace Sys2Proof

/-- The closed opcode enumeration, in the order of 30_encoding.md rule R57. The byte value of a member is a
parameter of the configuration, never fixed here. -/
inductive Opcode where
  | getLog | setMotorLevels | resetState | getState | nack | ack | start | stop
deriving DecidableEq, Repr

/-- The encoding space a row of the opcode table belongs to: the command port of 30_encoding.md rule R69 (format
SEL3), the outbound wire of rule R59 (format OUT5), the inbound wire of rule R63 (format INVAR). The same bytes may
stand in two of them (an outbound frame is also an inbound frame with an empty payload when its payload is zero), so
a decoder is told the space. -/
inductive Channel where
  | command | outbound | inbound
deriving DecidableEq, Repr

/-- Why a decoder rejects bytes, by name. -/
inductive DecodeError where
  /-- No byte at all: there is no selector (command port). -/
  | emptyRequest
  /-- The bytes end before the operands that the selector calls for (command port, rule R69). -/
  | missingOperand
  /-- An outbound frame is exactly five bytes (rule R59). -/
  | notFiveBytes
  /-- Offset 0 is not `START_BYTE` (rules R59 and R63). -/
  | noStartMarker
  /-- Offset 4 is not `STOP_BYTE` (outbound, rule R59). -/
  | noStopMarker
  /-- Offset 1 is the byte of no opcode (outbound, rule R59). -/
  | unknownOpcode
  /-- An unused payload byte of an outbound frame is not zero (rule R60). -/
  | nonzeroPayload
  /-- Fewer than four header bytes (inbound, rule R63). -/
  | shortHeader
  /-- The header is legal and the body or the terminator is not all there (inbound, rule R92). -/
  | incompleteBody
  /-- Bytes follow the frame's last byte (inbound, rule R63: the whole frame is L + 5 bytes). -/
  | trailingBytes
deriving DecidableEq, Repr

/-- The instructions: one constructor per row of spec/opcode_table.json. -/
inductive Instr where
  /-- FEED (41_resynchronizer.md rule R98): deliver a batch of received bytes. -/
  | feed (batch : List Byte)
  /-- DEQUEUE (42_frame_queue.md rule R109): take the oldest verified frame. -/
  | dequeue
  /-- HEALTH (42_frame_queue.md rule R112): read the status record. -/
  | health
  /-- RESET (42_frame_queue.md rule R113): return the whole block to its reset state. -/
  | reset
  /-- ENCODE (40_frame_encoder.md rule R73): an outbound frame from two raw payload bytes. -/
  | encode (op : Opcode) (p0 p1 : Byte)
  /-- ENCODE_PARAMLESS (40_frame_encoder.md rule R74): the frame of a parameterless command. -/
  | encodeParamless (op : Opcode)
  /-- ENCODE_MOTOR (40_frame_encoder.md rule R75): a frame carrying two motor control bytes. -/
  | encodeMotor (op : Opcode) (left right : Rat) (brakeLeft brakeRight : Bool)
  /-- QUANTIZE (40_frame_encoder.md rule R76): one motor control byte. -/
  | quantize (x : Rat) (brake : Bool)
  /-- OUT.GET_LOG: the outbound frame of GET_LOG (30_encoding.md rules R59 and R60). -/
  | outGetLog
  /-- OUT.SET_MOTOR_LEVELS: the outbound frame with the left and the right control byte. -/
  | outSetMotorLevels (left right : Byte)
  /-- OUT.RESET_STATE: the outbound frame of RESET_STATE (a command to the device, not the block's RESET). -/
  | outResetState
  /-- OUT.GET_STATE: the outbound frame of GET_STATE, the default poll. -/
  | outGetState
  /-- OUT.NACK: the outbound frame of NACK. -/
  | outNack
  /-- OUT.ACK: the outbound frame of ACK. -/
  | outAck
  /-- OUT.START: the outbound frame whose opcode byte is the start marker's value. -/
  | outStart
  /-- OUT.STOP: the outbound frame whose opcode byte is the stop marker's value. -/
  | outStop
  /-- IN.GET_LOG: a legal inbound frame of GET_LOG with this payload (30_encoding.md rules R63 and R65). -/
  | inGetLog (payload : List Byte)
  /-- IN.SET_MOTOR_LEVELS: a legal inbound frame with this payload. -/
  | inSetMotorLevels (payload : List Byte)
  /-- IN.RESET_STATE: a legal inbound frame with this payload. -/
  | inResetState (payload : List Byte)
  /-- IN.GET_STATE: a legal inbound frame with this payload. -/
  | inGetState (payload : List Byte)
  /-- IN.NACK: a legal inbound frame with this payload. -/
  | inNack (payload : List Byte)
  /-- IN.ACK: a legal inbound frame with this payload. -/
  | inAck (payload : List Byte)
  /-- IN.START: a legal inbound frame whose opcode byte is the start marker's value. -/
  | inStart (payload : List Byte)
  /-- IN.STOP: a legal inbound frame whose opcode byte is the stop marker's value. -/
  | inStop (payload : List Byte)
  /-- IN.INVALID.BAD_LENGTH: opcode byte, declared length above 2048, and the part of the body and terminator that
  has arrived (30_encoding.md rule R65 (a)). -/
  | inInvalidBadLength (opByte : Byte) (len : BitVec 16) (tail : List Byte)
  /-- IN.INVALID.BAD_OPCODE: an unrecognized opcode byte, a legal length, and the part of the body and terminator that
  has arrived (30_encoding.md rule R65 (b)). -/
  | inInvalidBadOpcode (opByte : Byte) (len : BitVec 16) (tail : List Byte)
  /-- IN.INVALID.BAD_TERMINATOR: a legal header and payload, then a byte that is not `STOP_BYTE`
  (30_encoding.md rule R65 (c)). -/
  | inInvalidBadTerminator (op : Opcode) (payload : List Byte) (terminator : Byte)
deriving DecidableEq, Repr

end Sys2Proof
end

