-- ==== Sys2Proof/Config.lean ====
section
/-!
DEFINITION. What an implementation fixes: the constants of 00_scope.md rule R7, and the parameters of rule R8 that the
source leaves open (`OPCODE_BYTE`, `ACC_CAP`, `BATCH_MAX`, `Q_BOUNDARY`, `PLATFORM_MAP`), as one record of plain data. A
parameter that is a function stands in the record as a number, the index of that function in a constant without a body;
the platform's own choice of the others is built from such constants too, so nothing can be proved of it but that it is
legal.
-/
namespace Sys2Proof

/-! ### Constants the source fixes (00_scope.md rule R7) -/

/-- `OUT_FRAME_LEN`: bytes in every outbound frame (R7). -/
abbrev outFrameLen : Nat := 5
/-- `HEADER_LEN`: bytes from the start marker through the length field (R7). -/
abbrev headerLen : Nat := 4
/-- `TRAILER_LEN`: bytes of the terminator (R7). -/
abbrev trailerLen : Nat := 1
/-- `MAX_LEN`: largest declared payload length accepted (R7). -/
abbrev maxLen : Nat := 2048
/-- `DESYNC_THRESHOLD`: consecutive bad packets that raise persistent desync (R7). -/
abbrev desyncThreshold : Nat := 5
/-- `QUEUE_CAP`: entries in the verified-frame queue (R7). -/
abbrev queueCap : Nat := 256
/-- `V_SCALE` = 5.06, from normalized speed to volts (R7). -/
abbrev vScale : Rat := 253 / 50
/-- `V_DEAD` = 0.49, dead-zone half-width in volts (R7). -/
abbrev vDead : Rat := 49 / 100
/-- `V_CLAMP` = 5.06, clamp bound in volts (R7). -/
abbrev vClamp : Rat := 253 / 50
/-- `V_REF` = 1.285, reference factor of the register formula (R7). -/
abbrev vRef : Rat := 257 / 200

/-! ### Parameters the source leaves open (00_scope.md rule R8) -/

/-- One known value of the parameter `Q_BOUNDARY`: the control byte a floating-point original gives for this input. -/
structure QBoundaryEntry where
  x : Rat
  brake : Bool
  byte : Byte
deriving DecidableEq, Repr

/-- The parameter `Q_BOUNDARY` of 00_scope.md rule R8 and 40_frame_encoder.md rule R84 as plain data: how far from a
boundary the floating-point rounding reaches, and a function that gives the control byte at every input within that
distance: the known values one by one, and for every other input the function of index `function` in
`Config.boundaryFunction` (assumption 13). -/
structure QBoundary where
  distance : Rat
  entries : List QBoundaryEntry
  function : Nat
deriving DecidableEq, Repr

/-- Open: the functions a `Q_BOUNDARY` may be, one for each index: the control byte that a floating-point original gives
for an input and a brake flag (00_scope.md rule R8). No value is known, so what is proved holds for every function. -/
opaque Config.boundaryFunction : Nat → Rat → Bool → Byte

/-- Open: the transports a `PLATFORM_MAP` may be, one for each index: which request of the command port (the selector and
its arguments, 30_encoding.md rule R69) the bytes of a transaction on the platform's own bus or port stand for. No value
is known, so what is proved holds for every transport (00_scope.md rule R8, 20_memory.md rule R47). -/
opaque Config.platformTransport : Nat → List Byte → List Byte

/-- The parameters of 00_scope.md rule R8, as the host fixes them before the block runs
(70_reset_and_hazards.md rule R143). `opcodeBytes` holds `OPCODE_BYTE(o)` at the index of `o` (30_encoding.md rule R57);
`qBoundary = none` is the default, the exact rational rule. `platformMap` is `PLATFORM_MAP`: `none` where the platform
hands requests of the command port over as they stand, `some k` where they travel by the transport of index k
(assumption 2). -/
structure Config where
  opcodeBytes : Vector Byte 8
  accCap : Nat
  batchMax : Nat
  qBoundary : Option QBoundary
  platformMap : Option Nat
deriving DecidableEq, Repr

/-- Open: an order of the 256 byte values. Its first eight give `OPCODE_BYTE`; every injective choice of eight bytes
arises from some order, and no value is known (91_not_in_source.md N1). -/
opaque Config.byteOrder : Equiv.Perm (Fin 256)

/-- Open: `ACC_CAP` less one (91_not_in_source.md N2). -/
opaque Config.accCapLessOne : Nat

/-- Open: the number that picks `BATCH_MAX` among 1 to `ACC_CAP` (91_not_in_source.md N3). -/
opaque Config.batchChoice : Nat

/-- Open: the platform's own `PLATFORM_MAP` (92_eei_decisions.md D17). -/
opaque Config.platformMapChoice : Option Nat

/-- The platform's own parameters: any eight distinct opcode bytes, any `ACC_CAP >= 1`, any `BATCH_MAX` from 1 to
`ACC_CAP`, any `PLATFORM_MAP`, and the exact quantizer (00_scope.md rule R8: "The default is the exact rational rule"). -/
def Config.platform : Config where
  opcodeBytes := Vector.ofFn fun i : Fin 8 =>
    BitVec.ofFin (Config.byteOrder ⟨i.val, Nat.lt_trans i.isLt (by decide)⟩)
  accCap := Config.accCapLessOne + 1
  batchMax := Config.batchChoice % (Config.accCapLessOne + 1) + 1
  qBoundary := none
  platformMap := Config.platformMapChoice

end Sys2Proof
end

