-- ==== Sys2Proof/Machine/Operands.lean ====
section
/-!
DEFINITION. Operands and byte layouts: the opcode index, the opcode bytes and markers of a configuration, the request that
a transaction of the platform stands for, the
little-endian length field, the motor control byte, and the two frame formats.
-/
namespace Sys2Proof.Machine

/-! ### Opcodes and markers (30_encoding.md section 1) -/

/-- The eight members of the enumeration, in the order of 30_encoding.md rule R57. -/
def allOpcodes : List Opcode :=
  [.getLog, .setMotorLevels, .resetState, .getState, .nack, .ack, .start, .stop]

/-- The 3-bit code of an opcode argument (the index column of rule R57). -/
def opcodeIndex : Opcode → Fin 8
  | .getLog => 0
  | .setMotorLevels => 1
  | .resetState => 2
  | .getState => 3
  | .nack => 4
  | .ack => 5
  | .start => 6
  | .stop => 7

/-- The opcode of a 3-bit code; all eight codes are valid (rule R69). -/
def opcodeOfIndex : Fin 8 → Opcode
  | 0 => .getLog
  | 1 => .setMotorLevels
  | 2 => .resetState
  | 3 => .getState
  | 4 => .nack
  | 5 => .ack
  | 6 => .start
  | 7 => .stop

/-- `OPCODE_BYTE(o)` (00_scope.md rule R8). -/
def opcodeByte (c : Config) (o : Opcode) : Byte := c.opcodeBytes[opcodeIndex o]

/-- `START_BYTE = OPCODE_BYTE(START)` (rule R8). -/
def startByte (c : Config) : Byte := opcodeByte c .start

/-- `STOP_BYTE = OPCODE_BYTE(STOP)` (rule R8). -/
def stopByte (c : Config) : Byte := opcodeByte c .stop

/-- The opcode whose byte this is, if any. -/
def opcodeOfByte (c : Config) (b : Byte) : Option Opcode :=
  allOpcodes.find? fun o => opcodeByte c o == b

/-- `b in RECOG`: the byte of one of the eight opcodes, START and STOP included (00_scope.md rule R9). -/
def recognized (c : Config) (b : Byte) : Bool := allOpcodes.any fun o => opcodeByte c o == b

/-! ### The command port (00_scope.md rule R8, `PLATFORM_MAP`) -/

/-- The request of the command port that the bytes of a transaction stand for, by the platform's `PLATFORM_MAP`
(20_memory.md rule R47). -/
def commandRequest (c : Config) (bytes : List Byte) : List Byte :=
  match c.platformMap with
  | none => bytes
  | some k => Config.platformTransport k bytes

/-! ### The length field (20_memory.md rule R41, 30_encoding.md rule R64) -/

/-- `u16le(lo, hi) = lo + 256 * hi` (00_scope.md rule R13). -/
def u16le (lo hi : Byte) : Nat := lo.toNat + 256 * hi.toNat

/-- The low byte of a length, `L mod 256` (30_encoding.md rule R71, FRAME). -/
def lengthLow (len : Nat) : Byte := BitVec.ofNat 8 (len % 256)

/-- The high byte of a length, `L div 256` (30_encoding.md rule R71, FRAME). -/
def lengthHigh (len : Nat) : Byte := BitVec.ofNat 8 (len / 256)

/-! ### The motor control byte (30_encoding.md rule R61) -/

/-- `byte = (reg << 2) | dir`: magnitude in bits [7:2], direction and brake in bits [1:0] (rule R61). -/
def controlByte (reg : Nat) (dir : BitVec 2) : Byte :=
  (BitVec.ofNat 8 reg <<< 2) ||| dir.zeroExtend 8

/-- The magnitude register of a control byte, bits [7:2] (rule R61). -/
def controlMagnitude (b : Byte) : BitVec 6 := b.extractLsb' 2 6

/-- The direction and brake bits of a control byte, bits [1:0] (rule R61). -/
def controlDirection (b : Byte) : BitVec 2 := b.extractLsb' 0 2

/-! ### Frames -/

/-- The outbound frame `START | opcode | p0 | p1 | STOP` (30_encoding.md rule R59). -/
def outboundFrame (c : Config) (op : Opcode) (p0 p1 : Byte) : List Byte :=
  [startByte c, opcodeByte c op, p0, p1, stopByte c]

/-- The four header bytes of an inbound frame: marker, opcode byte, length low, length high
(30_encoding.md rule R63). -/
def inboundHeader (c : Config) (opByte : Byte) (len : Nat) : List Byte :=
  [startByte c, opByte, lengthLow len, lengthHigh len]

/-- The inbound frame `START | opcode | length | payload | terminator` with the length of its own payload
(30_encoding.md rules R63 and R71); a legal frame's terminator is `STOP_BYTE`. -/
def inboundFrame (c : Config) (op : Opcode) (payload : List Byte) (terminator : Byte) : List Byte :=
  inboundHeader c (opcodeByte c op) payload.length ++ payload ++ [terminator]

end Sys2Proof.Machine
end

