-- ==== Sys2Proof/Machine/Quantizer.lean ====
section
/-!
DEFINITION. The motor control-byte quantizer, step by step as 40_frame_encoder.md rule R76 gives it, in exact rational
arithmetic (rule R84), with the optional parameter `Q_BOUNDARY` of 00_scope.md rule R8.
-/
namespace Sys2Proof.Machine

/-- `clamp(x, lo, hi) = min(hi, max(lo, x))` (00_scope.md rule R13). -/
def clamp (x lo hi : Rat) : Rat := min hi (max lo x)

/-- Steps 1 and 2 of rule R76: negate and scale, then the dead zone, both on the scaled voltage (rule R77). -/
def deadZonedVoltage (x : Rat) : Rat :=
  let v := -x * vScale
  if |v| ≤ vDead then 0 else v

/-- Steps 1 to 3 of rule R76: the voltage after dead zone and clamp. -/
def motorVoltage (x : Rat) : Rat := clamp (deadZonedVoltage x) (-vClamp) vClamp

/-- Step 4 of rule R76: register 0 at v = 0 (step 2's "register value 0"), else
`floor((64 * |v|) / (4 * V_REF) - 1)`. The floor is never negative outside the dead zone (rule R82). -/
def motorRegister (v : Rat) : Nat :=
  if v = 0 then 0 else ((64 * |v|) / (4 * vRef) - 1).floor.toNat

/-- Step 5 of rule R76: both bits for brake, else bit 0 for v < 0, bit 1 for v > 0, none for v = 0. -/
def motorDirection (v : Rat) (brake : Bool) : BitVec 2 :=
  if brake then 0b11#2
  else if v < 0 then 0b01#2
  else if 0 < v then 0b10#2
  else 0b00#2

/-- QUANTIZE in exact rationals (rule R76), the default of 00_scope.md rule R8. -/
def quantizeExact (x : Rat) (brake : Bool) : Byte :=
  let v := motorVoltage x
  controlByte (motorRegister v) (motorDirection v brake)

/-! ### The parameter `Q_BOUNDARY` -/

/-- The boundary in |x| between adjacent magnitudes `lower` and its successor: 49/506 above the dead zone, else the
lower bound `257 (k + 1) / 16192` of the upper magnitude k = lower + 1 (40_frame_encoder.md rule R82). -/
def magnitudeBoundary (lower : Nat) : Rat :=
  if lower = 0 then 49 / 506 else 257 * ((lower : Rat) + 2) / 16192

/-- The magnitudes that have an interval above them, in ascending order, each with the next one
(40_frame_encoder.md rule R82: 0, then 5 to 62). -/
def adjacentMagnitudes (lower upper : Nat) : Bool :=
  (lower == 0 && upper == 5) || (5 ≤ lower && lower < 62 && upper == lower + 1)

/-- The control byte of magnitude `reg` for an input of this sign (rules R76 and R78): a magnitude of 0 is v = 0, and
otherwise v has the sign opposite to x. -/
def byteOfMagnitude (reg : Nat) (x : Rat) (brake : Bool) : Byte :=
  controlByte reg (motorDirection (if reg = 0 then 0 else -x) brake)

/-- Is the input at, or within this distance of, a boundary between two intervals of rule R82 or the dead-zone bound? -/
def nearBoundary (distance x : Rat) : Bool :=
  (List.range 62).any fun lower =>
    adjacentMagnitudes lower (if lower = 0 then 5 else lower + 1) &&
      decide (|(|x| - magnitudeBoundary lower)| ≤ distance)

/-- One `Q_BOUNDARY` value is the exact result, or, at or within rounding distance of a boundary, the result of the
interval on its other side (00_scope.md rule R8; 40_frame_encoder.md rule R84). -/
def boundaryEntryLegal (distance : Rat) (e : QBoundaryEntry) : Bool :=
  let reg := motorRegister (motorVoltage e.x)
  e.byte == quantizeExact e.x e.brake ||
    (e.x != 0 && (List.range 63).any fun other =>
      e.byte == byteOfMagnitude other e.x e.brake &&
        ((adjacentMagnitudes reg other && decide (|(|e.x| - magnitudeBoundary reg)| ≤ distance)) ||
          (adjacentMagnitudes other reg && decide (|(|e.x| - magnitudeBoundary other)| ≤ distance))))

/-- The value of the function at an input near a boundary, where it is one that R8 allows. Every function that meets R8's
constraint is one that this leaves as it is. -/
def functionByte (q : QBoundary) (x : Rat) (brake : Bool) : Option Byte :=
  if nearBoundary q.distance x then
    let byte := Config.boundaryFunction q.function x brake
    if boundaryEntryLegal q.distance ⟨x, brake, byte⟩ then some byte else none
  else none

/-- The value the parameter `Q_BOUNDARY` gives for this input, if it covers it: a known value, or that of its function. -/
def boundaryByte (c : Config) (x : Rat) (brake : Bool) : Option Byte :=
  match c.qBoundary with
  | none => none
  | some q =>
    match q.entries.find? fun e => e.x == x && e.brake == brake with
    | some e => some e.byte
    | none => functionByte q x brake

/-- QUANTIZE (rules R76 and R84): the exact result, or the value of `Q_BOUNDARY` where the configuration gives that
parameter and it covers the input. -/
def quantizeByte (c : Config) (x : Rat) (brake : Bool) : Byte :=
  match boundaryByte c x brake with
  | some b => b
  | none => quantizeExact x brake

end Sys2Proof.Machine
end

