-- ==== Sys2Proof/WellFormed.lean ====
section
/-!
DEFINITION. What the spec asks of a configuration (00_scope.md rule R8) and of an instruction's operands (the rows of
spec/opcode_table.json; 30_encoding.md rule R65).
-/
namespace Sys2Proof

/-- Every known value of a `Q_BOUNDARY` is one that 40_frame_encoder.md rule R84 allows; the values of its function are
checked where they are used (`Machine.functionByte`). -/
def QBoundary.legal (q : QBoundary) : Bool :=
  decide (0 ≤ q.distance) && q.entries.all (Machine.boundaryEntryLegal q.distance)

/-- The constraints of 00_scope.md rule R8: eight distinct opcode bytes, `ACC_CAP >= 1`,
`1 <= BATCH_MAX <= ACC_CAP`, and a `Q_BOUNDARY` that gives only the exact or the adjacent result; `PLATFORM_MAP` has no
constraint. -/
abbrev Config.Legal (c : Config) : Prop :=
  c.opcodeBytes.toList.Nodup ∧ 1 ≤ c.accCap ∧ 1 ≤ c.batchMax ∧ c.batchMax ≤ c.accCap ∧
    (match c.qBoundary with
      | none => true
      | some q => q.legal) = true

/-- The operands a row of the opcode table admits under a configuration. An operation's operands are typed and every
value is legal (30_encoding.md rule R69); an inbound frame's payload has at most `MAX_LEN` bytes, and the three invalid
forms are those of 30_encoding.md rule R65, each with no byte past the end that its length field declares. -/
def Instr.wf (c : Config) : Instr → Bool
  | .feed _ => true
  | .dequeue => true
  | .health => true
  | .reset => true
  | .encode _ _ _ => true
  | .encodeParamless _ => true
  | .encodeMotor _ _ _ _ _ => true
  | .quantize _ _ => true
  | .outGetLog => true
  | .outSetMotorLevels _ _ => true
  | .outResetState => true
  | .outGetState => true
  | .outNack => true
  | .outAck => true
  | .outStart => true
  | .outStop => true
  | .inGetLog payload => payload.length ≤ maxLen
  | .inSetMotorLevels payload => payload.length ≤ maxLen
  | .inResetState payload => payload.length ≤ maxLen
  | .inGetState payload => payload.length ≤ maxLen
  | .inNack payload => payload.length ≤ maxLen
  | .inAck payload => payload.length ≤ maxLen
  | .inStart payload => payload.length ≤ maxLen
  | .inStop payload => payload.length ≤ maxLen
  | .inInvalidBadLength _ len tail => maxLen < len.toNat && tail.length ≤ len.toNat + 1
  | .inInvalidBadOpcode opByte len tail =>
    len.toNat ≤ maxLen && !Machine.recognized c opByte && tail.length ≤ len.toNat + 1
  | .inInvalidBadTerminator _ payload terminator =>
    payload.length ≤ maxLen && terminator != Machine.stopByte c

end Sys2Proof
end

