-- ==== Sys2Proof/Decode.lean ====
section
/-!
DEFINITION. The decoders of the three encoding spaces, each total on any bytes and rejecting by name, the fetch that
picks the decoder of a request's space, and the encoder written from the same tables (30_encoding.md rules R59, R63,
R69). How the bytes of a request come to the command port is the parameter `PLATFORM_MAP`, through which the fetch reads
them. The spec gives the selector codes and the argument list of a request; how its arguments are written as bytes is the
model's own (assumption 2).
-/
namespace Sys2Proof

open Machine

/-! ### Naturals and rationals on the command port -/

/-- A natural number as bytes, seven bits a byte, least significant first, bit 7 set on every byte but the last.
The first argument bounds the number of continuation bytes. -/
def natBytesUpTo : Nat → Nat → List Byte
  | 0, n => [BitVec.ofNat 8 n]
  | k + 1, n =>
    if n < 128 then [BitVec.ofNat 8 n]
    else BitVec.ofNat 8 (128 + n % 128) :: natBytesUpTo k (n / 128)

/-- A natural number as bytes (assumption 2). -/
def natBytes (n : Nat) : List Byte := natBytesUpTo n n

/-- Read a natural number off the front of a byte list. -/
def readNat : List Byte → Option (Nat × List Byte)
  | [] => none
  | b :: rest =>
    if b.toNat < 128 then some (b.toNat, rest)
    else (readNat rest).map fun (n, left) => (b.toNat - 128 + 128 * n, left)

/-- An exact rational as bytes: a sign byte, the magnitude of the numerator, the denominator less one
(assumption 2). -/
def ratBytes (x : Rat) : List Byte :=
  (if x.num < 0 then 1#8 else 0#8) :: (natBytes x.num.natAbs ++ natBytes (x.den - 1))

/-- Read an exact rational off the front of a byte list; only bit 0 of the sign byte counts. -/
def readRat : List Byte → Option (Rat × List Byte)
  | [] => none
  | sign :: rest =>
    (readNat rest).bind fun (n, rest) =>
      (readNat rest).map fun (d, rest) =>
        (mkRat (if sign.getLsbD 0 then -(n : Int) else (n : Int)) (d + 1), rest)

/-- Read one byte. -/
def readByte : List Byte → Option (Byte × List Byte)
  | [] => none
  | b :: rest => some (b, rest)

/-- Read an opcode argument: the 3-bit index in bits [2:0] of one byte (30_encoding.md rule R69). -/
def readOpcode (bytes : List Byte) : Option (Opcode × List Byte) :=
  (readByte bytes).map fun (b, rest) => (opcodeOfIndex ⟨b.toNat % 8, Nat.mod_lt _ (by decide)⟩, rest)

/-- Read a brake argument: bit [0] of one byte (30_encoding.md rule R69). -/
def readFlag (bytes : List Byte) : Option (Bool × List Byte) :=
  (readByte bytes).map fun (b, rest) => (b.getLsbD 0, rest)

/-- Write a brake argument. -/
def flagByte (b : Bool) : Byte := if b then 1#8 else 0#8

/-! ### The operands of each selector (30_encoding.md rule R69) -/

/-- FEED: the count n, then n bytes. -/
def readFeed (bytes : List Byte) : Option Instr :=
  (readNat bytes).bind fun (n, rest) => if rest.length < n then none else some (.feed (rest.take n))

/-- ENCODE: opcode index, p0, p1. -/
def readEncode (bytes : List Byte) : Option Instr :=
  (readOpcode bytes).bind fun (op, rest) =>
    (readByte rest).bind fun (p0, rest) => (readByte rest).map fun (p1, _) => .encode op p0 p1

/-- ENCODE_PARAMLESS: opcode index. -/
def readEncodeParamless (bytes : List Byte) : Option Instr :=
  (readOpcode bytes).map fun (op, _) => .encodeParamless op

/-- ENCODE_MOTOR: opcode index, left, right, brake_left, brake_right. -/
def readEncodeMotor (bytes : List Byte) : Option Instr :=
  (readOpcode bytes).bind fun (op, rest) =>
    (readRat rest).bind fun (left, rest) =>
      (readRat rest).bind fun (right, rest) =>
        (readFlag rest).bind fun (brakeLeft, rest) =>
          (readFlag rest).map fun (brakeRight, _) => .encodeMotor op left right brakeLeft brakeRight

/-- QUANTIZE: x, brake. -/
def readQuantize (bytes : List Byte) : Option Instr :=
  (readRat bytes).bind fun (x, rest) => (readFlag rest).map fun (brake, _) => .quantize x brake

/-- The operation of a 3-bit selector with the operands that follow it; all eight codes are used (rule R69). -/
def readOperation (selector : Fin 8) (operands : List Byte) : Option Instr :=
  match selector with
  | 0 => readFeed operands
  | 1 => some .dequeue
  | 2 => some .health
  | 3 => some .reset
  | 4 => readEncode operands
  | 5 => readEncodeParamless operands
  | 6 => readEncodeMotor operands
  | 7 => readQuantize operands

/-- Decode a request of the command port: the selector in bits [2:0] of the first byte, then its operands. Bytes after
the last operand are padding of the port and are not looked at (assumption 2). -/
def decodeCommand : List Byte → Except DecodeError Instr
  | [] => .error .emptyRequest
  | b :: operands =>
    match readOperation ⟨b.toNat % 8, Nat.mod_lt _ (by decide)⟩ operands with
    | some i => .ok i
    | none => .error .missingOperand

/-! ### Outbound frames (30_encoding.md rules R59 and R60) -/

/-- The outbound row of an opcode with its two payload bytes; only SET_MOTOR_LEVELS carries a payload. -/
def outboundRow (op : Opcode) (p0 p1 : Byte) : Except DecodeError Instr :=
  let unlessUsed (i : Instr) : Except DecodeError Instr :=
    if p0 = 0 ∧ p1 = 0 then .ok i else .error .nonzeroPayload
  match op with
  | .getLog => unlessUsed .outGetLog
  | .setMotorLevels => .ok (.outSetMotorLevels p0 p1)
  | .resetState => unlessUsed .outResetState
  | .getState => unlessUsed .outGetState
  | .nack => unlessUsed .outNack
  | .ack => unlessUsed .outAck
  | .start => unlessUsed .outStart
  | .stop => unlessUsed .outStop

/-- Decode an outbound frame. -/
def decodeOutbound (c : Config) : List Byte → Except DecodeError Instr
  | [s, o, p0, p1, t] =>
    if s ≠ startByte c then .error .noStartMarker
    else if t ≠ stopByte c then .error .noStopMarker
    else
      match opcodeOfByte c o with
      | none => .error .unknownOpcode
      | some op => outboundRow op p0 p1
  | _ => .error .notFiveBytes

/-! ### Inbound frames (30_encoding.md rules R63 to R67) -/

/-- The inbound row of an opcode with its payload. -/
def inboundRow (op : Opcode) (payload : List Byte) : Instr :=
  match op with
  | .getLog => .inGetLog payload
  | .setMotorLevels => .inSetMotorLevels payload
  | .resetState => .inResetState payload
  | .getState => .inGetState payload
  | .nack => .inNack payload
  | .ack => .inAck payload
  | .start => .inStart payload
  | .stop => .inStop payload

/-- Decode one inbound frame that stands alone: the length test first, then the opcode, then the terminator
(30_encoding.md rule R65, 60_exceptions.md rule R129 (d)). -/
def decodeInbound (c : Config) : List Byte → Except DecodeError Instr
  | s :: o :: lo :: hi :: rest =>
    let len := u16le lo hi
    if s ≠ startByte c then .error .noStartMarker
    else if len + 1 < rest.length then .error .trailingBytes
    else if maxLen < len then .ok (.inInvalidBadLength o (hi ++ lo) rest)
    else
      match opcodeOfByte c o with
      | none => .ok (.inInvalidBadOpcode o (hi ++ lo) rest)
      | some op =>
        match rest[len]? with
        | none => .error .incompleteBody
        | some t =>
          if t = stopByte c then .ok (inboundRow op (rest.take len))
          else .ok (.inInvalidBadTerminator op (rest.take len) t)
  | _ => .error .shortHeader

/-! ### Fetch -/

/-- The instruction a request stands for. On the command port, `PLATFORM_MAP` gives the selector and arguments that the
bytes stand for (20_memory.md rule R47). On the inbound wire, bytes that are not exactly one frame of the table are
still one received batch, so they are a FEED of those bytes (41_resynchronizer.md rule R98: "The batch is the bytes of
one `onBytesReceived(bytes)` callback"). -/
def fetchInstr (c : Config) (channel : Channel) (bytes : List Byte) : Except DecodeError Instr :=
  match channel with
  | .command => decodeCommand (commandRequest c bytes)
  | .outbound => decodeOutbound c bytes
  | .inbound =>
    match decodeInbound c bytes with
    | .ok i => .ok i
    | .error _ => .ok (.feed bytes)

/-! ### The encoder -/

/-- The encoding space of an instruction's row. -/
def channelOf : Instr → Channel
  | .feed _ => .command
  | .dequeue => .command
  | .health => .command
  | .reset => .command
  | .encode _ _ _ => .command
  | .encodeParamless _ => .command
  | .encodeMotor _ _ _ _ _ => .command
  | .quantize _ _ => .command
  | .outGetLog => .outbound
  | .outSetMotorLevels _ _ => .outbound
  | .outResetState => .outbound
  | .outGetState => .outbound
  | .outNack => .outbound
  | .outAck => .outbound
  | .outStart => .outbound
  | .outStop => .outbound
  | .inGetLog _ => .inbound
  | .inSetMotorLevels _ => .inbound
  | .inResetState _ => .inbound
  | .inGetState _ => .inbound
  | .inNack _ => .inbound
  | .inAck _ => .inbound
  | .inStart _ => .inbound
  | .inStop _ => .inbound
  | .inInvalidBadLength _ _ _ => .inbound
  | .inInvalidBadOpcode _ _ _ => .inbound
  | .inInvalidBadTerminator _ _ _ => .inbound

/-- One byte holding an opcode index (30_encoding.md rules R57 and R69). -/
def opcodeArgument (op : Opcode) : Byte := BitVec.ofNat 8 (opcodeIndex op).val

/-- The bytes of an instruction on its channel; for an operation, the request that the command port reads. -/
def encode (c : Config) : Instr → List Byte
  | .feed batch => 0#8 :: (natBytes batch.length ++ batch)
  | .dequeue => [1#8]
  | .health => [2#8]
  | .reset => [3#8]
  | .encode op p0 p1 => [4#8, opcodeArgument op, p0, p1]
  | .encodeParamless op => [5#8, opcodeArgument op]
  | .encodeMotor op left right brakeLeft brakeRight =>
    6#8 :: opcodeArgument op :: (ratBytes left ++ (ratBytes right ++ [flagByte brakeLeft, flagByte brakeRight]))
  | .quantize x brake => 7#8 :: (ratBytes x ++ [flagByte brake])
  | .outGetLog => outboundFrame c .getLog 0 0
  | .outSetMotorLevels left right => outboundFrame c .setMotorLevels left right
  | .outResetState => outboundFrame c .resetState 0 0
  | .outGetState => outboundFrame c .getState 0 0
  | .outNack => outboundFrame c .nack 0 0
  | .outAck => outboundFrame c .ack 0 0
  | .outStart => outboundFrame c .start 0 0
  | .outStop => outboundFrame c .stop 0 0
  | .inGetLog payload => inboundFrame c .getLog payload (stopByte c)
  | .inSetMotorLevels payload => inboundFrame c .setMotorLevels payload (stopByte c)
  | .inResetState payload => inboundFrame c .resetState payload (stopByte c)
  | .inGetState payload => inboundFrame c .getState payload (stopByte c)
  | .inNack payload => inboundFrame c .nack payload (stopByte c)
  | .inAck payload => inboundFrame c .ack payload (stopByte c)
  | .inStart payload => inboundFrame c .start payload (stopByte c)
  | .inStop payload => inboundFrame c .stop payload (stopByte c)
  | .inInvalidBadLength opByte len tail => inboundHeader c opByte len.toNat ++ tail
  | .inInvalidBadOpcode opByte len tail => inboundHeader c opByte len.toNat ++ tail
  | .inInvalidBadTerminator op payload terminator => inboundFrame c op payload terminator

/-! ### The host's numbering of a row's bits -/

/-- The bytes of `w` from its least significant byte up, `k` of them. -/
def lowBytesFirst : Nat → Nat → List Byte
  | 0, _ => []
  | k + 1, w => BitVec.ofNat 8 w :: lowBytesFirst k (w / 256)

/-- The channels on which a table word of this many bits may stand, in the order they are tried: up to 32 bits the
command port (format SEL3), at 40 bits an outbound frame (format OUT5) and then an inbound one, above that an inbound
frame (format INVAR) (assumption 18). -/
def tableChannels (nbits : Nat) : List Channel :=
  if nbits ≤ 32 then [.command] else if nbits = 40 then [.outbound, .inbound] else [.inbound]

/-- The bytes of a table word: on the command port byte 0 is bits [7:0], and zero bytes follow the word; on the wires
the table writes the frame as one number whose leftmost byte is offset 0 (30_encoding.md rule R59). -/
def tableBytes (nbits w : Nat) : List Byte :=
  let bytes := lowBytesFirst ((nbits + 7) / 8) w
  if nbits ≤ 32 then bytes ++ List.replicate (16 + w / 256) 0#8 else bytes.reverse

/-- Decode bytes strictly in one encoding space: a request of the command port, or exactly one frame of the table. -/
def decodeOn (c : Config) (channel : Channel) (bytes : List Byte) : Except DecodeError Instr :=
  match channel with
  | .command => decodeCommand bytes
  | .outbound => decodeOutbound c bytes
  | .inbound => decodeInbound c bytes

/-- The channel a table word is read on, and the instruction found there: the first channel that accepts it. -/
def tableReading (c : Config) (nbits w : Nat) : List Channel → Option (Channel × Instr)
  | [] => none
  | channel :: others =>
    match decodeOn c channel (tableBytes nbits w) with
    | .ok i => some (channel, i)
    | .error _ => tableReading c nbits w others

/-- The instruction the decoder reads from a row's word, under the platform's own opcode bytes. -/
def decodeTableWord (nbits w : Nat) : Option Instr :=
  (tableReading Config.platform nbits w (tableChannels nbits)).map (·.2)

end Sys2Proof
end

