-- ==== Sys2Proof/Machine/State.lean ====
section
/-!
DEFINITION. The state of the machine as plain data: the block's own record (10_state.md rule R24), the parameters it
runs under (00_scope.md rule R8), the agents' pending requests, the response of the last operation (00_scope.md rule
R16), and the two marks a run carries (70_reset_and_hazards.md rule R146); with the reset state.
-/
namespace Sys2Proof.Machine

/-! ### The block (10_state.md rule R24) -/

/-- The resynchronizer's waiting states that persist between operations (10_state.md rules R21 and R26). -/
inductive Phase where
  | seekingStart | seekingHeader | seekingBody
deriving DecidableEq, Repr

/-- A queue entry: the raw opcode byte and the payload (10_state.md rule R31). -/
structure Entry where
  opcode : Byte
  payload : List Byte
deriving DecidableEq, Repr

/-- The block's state record, field by field as 10_state.md rule R24 lists it ("Nothing else is state"). -/
structure Block where
  /-- The accumulator (R25). -/
  acc : List Byte
  /-- The sequencing register (R26). -/
  phase : Phase
  /-- Index of the first `START_BYTE` in `acc` (R27). -/
  start : Option Nat
  /-- The opcode byte of an accepted header (R28). -/
  curOpcode : Option Byte
  /-- The declared payload length of an accepted header (R28). -/
  curLength : Option Nat
  /-- Index of the last `STOP_BYTE` in `acc` (R29). -/
  lastStop : Option Nat
  /-- The consecutive-bad-packet counter, 0 to 4 between operations (R30). -/
  badCount : Nat
  /-- The verified-frame queue; element 0 is the head (R32). -/
  queue : List Entry
  /-- The sticky fatal flag (R33). -/
  halted : Bool
deriving DecidableEq, Repr

/-- The reset values of 10_state.md rule R24 and 70_reset_and_hazards.md rule R140. -/
def Block.reset : Block where
  acc := []
  phase := .seekingStart
  start := none
  curOpcode := none
  curLength := none
  lastStop := none
  badCount := 0
  queue := []
  halted := false

/-! ### What an operation answers (00_scope.md rule R16, 60_exceptions.md rule R120) -/

/-- The cause of a DESYNC (60_exceptions.md rules R120 and R122). -/
inductive DesyncCause where
  | badLength | badOpcode | badTerminator | overflow
deriving DecidableEq, Repr

/-- An event with its info (60_exceptions.md rule R120). -/
inductive Event where
  /-- FRAME(op, L), R121. -/
  | frame (op : Byte) (len : Nat)
  /-- DESYNC_EVENT(cause, origin, dropped), R122. -/
  | desync (cause : DesyncCause) (origin dropped : Nat)
  /-- PERSISTENT_DESYNC, R123. -/
  | persistentDesync
  /-- FATAL_QUEUE_OVERFLOW(op, L), R124. -/
  | fatalQueueOverflow (op : Byte) (len : Nat)
deriving DecidableEq, Repr

/-- Why an operation is refused (60_exceptions.md rules R120, R125, R126). -/
inductive RefusalReason where
  | halted | batchTooLong
deriving DecidableEq, Repr

/-- The status of an operation (00_scope.md rule R16). -/
inductive Status where
  | ok
  | refused (reason : RefusalReason)
deriving DecidableEq, Repr

/-- The status record of HEALTH, each field at the width of 10_state.md rule R36, with the packed word of R37. -/
structure HealthRecord where
  phase : BitVec 2
  badCount : BitVec 3
  halted : Bool
  frameAvailable : Bool
  queueCount : BitVec 9
  accLen : Nat
  start : Option Nat
  lastStop : Option Nat
  curOpcode : Option Byte
  curLength : Option (BitVec 12)
  word : BitVec 32
deriving DecidableEq, Repr

/-- The return value of an operation, or `NONE` (00_scope.md rule R16; 30_encoding.md rule R68). -/
inductive Result where
  /-- `NONE`: FEED, RESET, a refused operation, and DEQUEUE of an empty queue. -/
  | none
  /-- The entry DEQUEUE returns. -/
  | entry (e : Entry)
  /-- The record HEALTH returns. -/
  | health (h : HealthRecord)
  /-- The five bytes an encoder operation returns. -/
  | frame (bytes : List Byte)
  /-- The byte QUANTIZE returns. -/
  | control (byte : Byte)
deriving DecidableEq, Repr

/-- What an operation answers: status, result and events in the order they were raised (00_scope.md rule R16). -/
structure Response where
  status : Status
  result : Result
  events : List Event
deriving DecidableEq, Repr

/-! ### Requests -/

/-- The three agents that invoke operations (60_exceptions.md rule R133). -/
inductive Agent where
  | inbound | consumer | host
deriving DecidableEq, Repr

/-- A pending operation: the agent that issues it, the encoding space, and its bytes. -/
structure Request where
  agent : Agent
  channel : Channel
  bytes : List Byte
deriving DecidableEq, Repr

/-! ### The machine -/

/-- The machine: the block, its parameters, and its surroundings. -/
structure State where
  /-- The block's own record (10_state.md rule R24). -/
  blk : Block
  /-- The parameters of 00_scope.md rule R8; no operation changes them (assumption 1). -/
  cfg : Config
  /-- The agents' operations still to come, in the one total order of 20_memory.md rule R49 (assumption 3). -/
  requests : List Request
  /-- What the last operation answered (assumption 7). -/
  resp : Response
  /-- Some FEED of this run raised FATAL_QUEUE_OVERFLOW (70_reset_and_hazards.md rule R146; assumption 6). -/
  runFaulted : Bool
  /-- Some operation of this run was refused (70_reset_and_hazards.md rule R146; assumption 6). -/
  runRefused : Bool
deriving DecidableEq, Repr

/-- No operation of this block stops the machine with a fault, so there is no fault to name. The one fatal condition,
FATAL_QUEUE_OVERFLOW, leaves a state the spec describes (42_frame_queue.md rule R108): it is a next state, halted, in a
run marked as faulted (assumption 5). -/
inductive Fault : Type
deriving DecidableEq, Repr

/-- Why the machine has no meaning for what it is asked. -/
inductive Refusal where
  /-- An instruction of the opcode table that has no meaning yet. Raised by an arm of `exec` only, and by none today.
  Safe. -/
  | notModelled (mnemonic : String)
  /-- The bytes of a request are no operation of the command port, or no outbound frame of the table. Raised by `step`
  only. Safe: the spec gives the block no such move (assumption 12). -/
  | malformedRequest (error : DecodeError)
deriving DecidableEq, Repr

/-- Power-on: the block in its reset state (70_reset_and_hazards.md rules R140 and R141), the platform's parameters, no
request pending, the response RESET gives (42_frame_queue.md rule R113), and a run with nothing against it. -/
def State.reset : State where
  blk := Block.reset
  cfg := Config.platform
  requests := []
  resp := { status := .ok, result := .none, events := [] }
  runFaulted := false
  runRefused := false

end Sys2Proof.Machine
end

