-- ==== Sys2Proof/Machine/Agents.lean ====
section
/-!
DEFINITION. Which agent may issue which operation (60_exceptions.md rule R133). This is a property of the requests a
state may hold, not a check the block makes: the agents have no identifiers the block can see (rule R135).
-/
namespace Sys2Proof.Machine

/-- The table of 60_exceptions.md rule R133: FEED, in any of its forms, is the inbound agent's; DEQUEUE is the
consumer's; RESET is the host's; HEALTH and the encoder operations are everyone's. -/
def mayIssue (a : Agent) : Instr → Bool
  | .feed _ => a == .inbound
  | .dequeue => a == .consumer
  | .health => true
  | .reset => a == .host
  | .encode _ _ _ => true
  | .encodeParamless _ => true
  | .encodeMotor _ _ _ _ _ => true
  | .quantize _ _ => true
  | .outGetLog => true
  | .outSetMotorLevels _ _ => true
  | .outResetState => true
  | .outGetState => true
  | .outNack => true
  | .outAck => true
  | .outStart => true
  | .outStop => true
  | .inGetLog _ => a == .inbound
  | .inSetMotorLevels _ => a == .inbound
  | .inResetState _ => a == .inbound
  | .inGetState _ => a == .inbound
  | .inNack _ => a == .inbound
  | .inAck _ => a == .inbound
  | .inStart _ => a == .inbound
  | .inStop _ => a == .inbound
  | .inInvalidBadLength _ _ _ => a == .inbound
  | .inInvalidBadOpcode _ _ _ => a == .inbound
  | .inInvalidBadTerminator _ _ _ => a == .inbound

/-- The agents of rule R133, in the order its table lists them. -/
def allAgents : List Agent := [.inbound, .consumer, .host]

/-- The agents that may issue an instruction. -/
def issuers (i : Instr) : List Agent := allAgents.filter fun a => mayIssue a i

/-- A request the agents can make: its bytes are an operation, and its agent may issue it (rule R133). -/
def requestWf (c : Config) (r : Request) : Bool :=
  match fetchInstr c r.channel r.bytes with
  | .ok i => mayIssue r.agent i
  | .error _ => false

/-- The parameters under which a request is read as it stands: on the command port, a `PLATFORM_MAP` that hands requests
over unchanged. -/
def readAsItStands (r : Request) (c : Config) : Config :=
  match r.channel with
  | .command => { c with platformMap := none }
  | .outbound => c
  | .inbound => c

/-- A request for a table word, issued by an agent that may issue its instruction. -/
def tableRequest (c : Config) (nbits w : Nat) : Request :=
  match tableReading c nbits w (tableChannels nbits) with
  | some (channel, i) => ⟨(issuers i).headD .host, channel, tableBytes nbits w⟩
  | none => ⟨.host, (tableChannels nbits).headD .command, tableBytes nbits w⟩

end Sys2Proof.Machine
end

