-- ==== Sys2Proof/Machine/Flags.lean ====
section
/-!
DEFINITION. The block has no condition codes (10_state.md rule R35). Here are its one derived Boolean, `frame_available`
(R34), the status record and the packed status word (R36, R37), and the numeric codes of events and refusals
(60_exceptions.md rule R120).
-/
namespace Sys2Proof.Machine

/-- `frame_available = (|queue| > 0)`, a level (10_state.md rule R34). -/
def frameAvailable (b : Block) : Bool := decide (0 < b.queue.length)

/-- The code of a phase; code 3 is never read (10_state.md rule R36). -/
def phaseCode : Phase → BitVec 2
  | .seekingStart => 0
  | .seekingHeader => 1
  | .seekingBody => 2

/-- A flag as a 32-bit value. -/
def flagWord (b : Bool) : BitVec 32 := if b then 1 else 0

/-- `word = phase | (bad_count << 2) | (halted << 5) | (frame_available << 6) | (queue_count << 8)`
(10_state.md rule R37); the reserved bits read 0. The counts enter at their widths, 3 and 9 bits. -/
def statusWord (b : Block) : BitVec 32 :=
  (phaseCode b.phase).zeroExtend 32 |||
    ((BitVec.ofNat 3 b.badCount).zeroExtend 32 <<< 2) |||
    (flagWord b.halted <<< 5) |||
    (flagWord (frameAvailable b) <<< 6) |||
    ((BitVec.ofNat 9 b.queue.length).zeroExtend 32 <<< 8)

/-- The record HEALTH returns (10_state.md rule R36; 42_frame_queue.md rule R112). -/
def healthRecord (b : Block) : HealthRecord where
  phase := phaseCode b.phase
  badCount := BitVec.ofNat 3 b.badCount
  halted := b.halted
  frameAvailable := frameAvailable b
  queueCount := BitVec.ofNat 9 b.queue.length
  accLen := b.acc.length
  start := b.start
  lastStop := b.lastStop
  curOpcode := b.curOpcode
  curLength := b.curLength.map (BitVec.ofNat 12)
  word := statusWord b

/-- The code of an event (60_exceptions.md rule R120). -/
def eventCode : Event → Byte
  | .frame _ _ => 0x01
  | .desync .badLength _ _ => 0x10
  | .desync .badOpcode _ _ => 0x11
  | .desync .badTerminator _ _ => 0x12
  | .desync .overflow _ _ => 0x13
  | .persistentDesync => 0x20
  | .fatalQueueOverflow _ _ => 0x30

/-- The code of a refusal reason (60_exceptions.md rule R120). -/
def refusalCode : RefusalReason → Byte
  | .halted => 0x40
  | .batchTooLong => 0x41

/-- Is this event the fatal one (60_exceptions.md rule R124)? -/
def isFatal : Event → Bool
  | .frame _ _ => false
  | .desync _ _ _ => false
  | .persistentDesync => false
  | .fatalQueueOverflow _ _ => true

end Sys2Proof.Machine
end

