-- ==== Sys2Proof/Machine/Ops.lean ====
section
/-!
DEFINITION. The named operations over the accumulator and the queue (00_scope.md rule R15), the resynchronizer's
helper functions and actions (41_resynchronizer.md), the raising of events with the fatal one that halts the block
(42_frame_queue.md rule R108), and what every operation does to the machine around the block (00_scope.md rule R16).
-/
namespace Sys2Proof.Machine

/-! ### The accumulator primitives (00_scope.md rule R15) -/

/-- `MemRead(i, n)` is `acc[i:i+n]`. -/
def memRead (acc : List Byte) (i n : Nat) : List Byte := (acc.drop i).take n

/-- `AccAppend(bs)`. -/
def accAppend (bs : List Byte) (b : Block) : Block := { b with acc := b.acc ++ bs }

/-- `AccDropPrefix(j)`, the compaction. -/
def accDropPrefix (j : Nat) (b : Block) : Block := { b with acc := b.acc.drop j }

/-- `AccClear()`. -/
def accClear (b : Block) : Block := { b with acc := [] }

/-! ### The queue primitives (00_scope.md rule R15, 42_frame_queue.md rules R107 and R109) -/

/-- `QPush(e)` at the tail. -/
def qPush (e : Entry) (b : Block) : Block := { b with queue := b.queue ++ [e] }

/-! ### Helper functions (41_resynchronizer.md section 2) -/

/-- `firstStart(acc, from)`: the least index from `origin` on that holds `START_BYTE` (R86). -/
def firstStart (c : Config) (acc : List Byte) (origin : Nat) : Option Nat :=
  ((acc.drop origin).findIdx? (· == startByte c)).map (· + origin)

/-- `lastStop(acc)`: the greatest index that holds `STOP_BYTE` (R87). -/
def lastStop (c : Config) (acc : List Byte) : Option Nat :=
  (acc.reverse.findIdx? (· == stopByte c)).map fun k => acc.length - 1 - k

/-- How many bytes of the accumulator are `START_BYTE` (20_memory.md rule R54, 41_resynchronizer.md rule R99). -/
def startCount (c : Config) (acc : List Byte) : Nat := acc.countP (· == startByte c)

/-- What `classify` decides (R88). -/
inductive Verdict where
  | waitStart
  | waitHeader (s : Nat)
  | waitBody (s : Nat) (op : Byte) (len : Nat)
  | reject (cause : DesyncCause) (s : Nat)
  | accept (s : Nat) (op : Byte) (len : Nat)
deriving DecidableEq, Repr

/-- The part of `classify` after a start marker is found at `s` (R88), given the bytes from `s` on: the header must be
whole, then the length is tested, then the opcode, then the body must be whole, then the terminator is tested. -/
def classifyCandidate (c : Config) (s : Nat) : List Byte → Verdict
  | _ :: op :: lo :: hi :: body =>
    let len := u16le lo hi
    if maxLen < len then .reject .badLength s
    else if !recognized c op then .reject .badOpcode s
    else
      match body[len]? with
      | none => .waitBody s op len
      | some t => if t ≠ stopByte c then .reject .badTerminator s else .accept s op len
  | _ => .waitHeader s

/-- `classify(acc)`: what the machine does with the current accumulator (R88). -/
def classify (c : Config) (acc : List Byte) : Verdict :=
  match firstStart c acc 0 with
  | none => .waitStart
  | some s => classifyCandidate c s (acc.drop s)

/-- Is this verdict a `WAIT`? An accumulator on which `classify` waits is settled (R89). -/
def isWait : Verdict → Bool
  | .waitStart => true
  | .waitHeader _ => true
  | .waitBody _ _ _ => true
  | .reject _ _ => false
  | .accept _ _ _ => false

/-- `settle(acc)`: the resting registers for an accumulator on which `classify` waits (R89). On the two other verdicts
nothing is written; FEED settles only where `classify` waits (R98). -/
def settle (c : Config) (b : Block) : Block :=
  match classify c b.acc with
  | .waitStart =>
    { b with phase := .seekingStart, start := none, curOpcode := none, curLength := none,
             lastStop := lastStop c b.acc }
  | .waitHeader s =>
    { b with phase := .seekingHeader, start := some s, curOpcode := none, curLength := none,
             lastStop := lastStop c b.acc }
  | .waitBody s op len =>
    { b with phase := .seekingBody, start := some s, curOpcode := some op, curLength := some len,
             lastStop := lastStop c b.acc }
  | .reject _ _ => b
  | .accept _ _ _ => b

/-! ### The actions (41_resynchronizer.md section 4) -/

/-- The effect of FATAL_QUEUE_OVERFLOW at candidate (s, op, L): the block halts with its registers frozen on the frame
that could not be queued (42_frame_queue.md rule R108). -/
def haltOnOverflow (c : Config) (s : Nat) (op : Byte) (len : Nat) (b : Block) : Block :=
  { b with halted := true, phase := .seekingBody, start := some s, curOpcode := some op, curLength := some len,
           lastStop := lastStop c b.acc }

/-- EMIT(s, op, L): accept a verified frame, or halt on a full queue (R94). -/
def emit (c : Config) (s : Nat) (op : Byte) (len : Nat) (b : Block) : Block × List Event :=
  if b.queue.length = queueCap then (haltOnOverflow c s op len b, [.fatalQueueOverflow op len])
  else
    ({ accClear (qPush ⟨op, memRead b.acc (s + headerLen) len⟩ b) with
        curOpcode := none, curLength := none, badCount := 0 }, [.frame op len])

/-- The recovery of DESYNC: compact to the next start marker from `origin` on, or clear (R95). -/
def resync (c : Config) (origin : Nat) (b : Block) : Block :=
  match firstStart c b.acc origin with
  | some j => accDropPrefix j b
  | none => accClear b

/-- The count of DESYNC: one more bad packet, and PERSISTENT_DESYNC with the counter back at 0 at the fifth
(R95, 60_exceptions.md rule R123). -/
def countBadPacket (b : Block) : Block × List Event :=
  if b.badCount + 1 = desyncThreshold then ({ b with badCount := 0 }, [.persistentDesync])
  else ({ b with badCount := b.badCount + 1 }, [])

/-- DESYNC(cause, origin): reject the current contents, resync, count (R95). -/
def desync (c : Config) (cause : DesyncCause) (origin : Nat) (b : Block) : Block × List Event :=
  let b₁ := resync c origin b
  let r := countBadPacket b₁
  (r.1, .desync cause origin (b.acc.length - b₁.acc.length) :: r.2)

/-! ### The pass (41_resynchronizer.md section 5) -/

/-- PASS with a bound on its iterations (R96): after a DESYNC the compacted accumulator is examined again; an EMIT or a
wait ends the pass. -/
def passUpTo (c : Config) : Nat → Block → Block × List Event
  | 0, b => (b, [])
  | n + 1, b =>
    match classify c b.acc with
    | .waitStart => (b, [])
    | .waitHeader _ => (b, [])
    | .waitBody _ _ _ => (b, [])
    | .reject cause s =>
      let d := desync c cause (s + 1) b
      let r := passUpTo c n d.1
      (r.1, d.2 ++ r.2)
    | .accept s op len => emit c s op len b

/-- PASS (R96). The bound is that of 20_memory.md rule R54, which the pass never exceeds (R99; assumption 14). -/
def pass (c : Config) (b : Block) : Block × List Event := passUpTo c (startCount c b.acc + 1) b

/-- OVERFLOW_GUARD(batch): make room before the batch is appended (R97). The second clear raises no event. -/
def overflowGuard (c : Config) (batch : List Byte) (b : Block) : Block × List Event :=
  if c.accCap < b.acc.length + batch.length then
    let d := desync c .overflow 0 b
    if c.accCap < d.1.acc.length + batch.length then (accClear d.1, d.2) else d
  else (b, [])

/-! ### What an operation answers (00_scope.md rule R16) -/

/-- An operation that is performed: status OK. -/
def okResponse (result : Result) (events : List Event) : Response := { status := .ok, result, events }

/-- An operation that is refused: no result and no event. -/
def refusedResponse (reason : RefusalReason) : Response := { status := .refused reason, result := .none, events := [] }

/-- FEED on the block: refusal checks, overflow guard, append, pass, settle (41_resynchronizer.md rule R98). -/
def feed (c : Config) (batch : List Byte) (b : Block) : Block × Response :=
  if b.halted then (b, refusedResponse .halted)
  else if c.batchMax < batch.length then (b, refusedResponse .batchTooLong)
  else
    let g := overflowGuard c batch b
    let p := pass c (accAppend batch g.1)
    (if p.1.halted then p.1 else settle c p.1, okResponse .none (g.2 ++ p.2))

/-- DEQUEUE on the block (42_frame_queue.md rule R109). -/
def dequeue (b : Block) : Block × Response :=
  if b.halted then (b, refusedResponse .halted)
  else
    match b.queue with
    | [] => (b, okResponse .none [])
    | e :: rest => ({ b with queue := rest }, okResponse (.entry e) [])

/-! ### The machine around the block -/

/-- The end of an operation: the block's new record, the response, and the run's marks (00_scope.md rule R16;
70_reset_and_hazards.md rule R146). -/
def finish (s : State) (b : Block) (r : Response) : State :=
  { s with
    blk := b
    resp := r
    runFaulted := s.runFaulted || r.events.any isFatal
    runRefused := s.runRefused || (r.status != .ok) }

/-- An operation that reads and writes no state of the block (40_frame_encoder.md rule R72). -/
def answer (s : State) (result : Result) : State := finish s s.blk (okResponse result [])

/-- FEED on the machine. -/
def feedState (batch : List Byte) (s : State) : State :=
  finish s (feed s.cfg batch s.blk).1 (feed s.cfg batch s.blk).2

/-- Bring the block into its reset state: the one way out of `halted` (42_frame_queue.md rule R113,
60_exceptions.md rule R131). The parameters, the requests and the run's marks stay (70_reset_and_hazards.md rules R142
and R146). -/
def resetState (s : State) : State := finish s Block.reset (okResponse .none [])

end Sys2Proof.Machine
end

