-- ==== Sys2Proof/Machine/Encoder.lean ====
section
/-!
DEFINITION. The meanings of ENC: the four encoder operations (40_frame_encoder.md) and the eight outbound frames of the
opcode table, each the frame ENCODE builds for its opcode (30_encoding.md rules R59, R60 and R71).
-/
namespace Sys2Proof.Machine

/-- ENCODE on any opcode and any two bytes (40_frame_encoder.md rule R73). -/
def answerFrame (op : Opcode) (p0 p1 : Byte) (s : State) : Host.Outcome State Fault Refusal :=
  .next (answer s (.frame (outboundFrame s.cfg op p0 p1)))

/-- ENCODE (40_frame_encoder.md rule R73). -/
def execEncode (op : Opcode) (p0 p1 : Byte) (s : State) : Host.Outcome State Fault Refusal :=
  answerFrame op p0 p1 s

/-- ENCODE_PARAMLESS: both payload bytes zero (40_frame_encoder.md rule R74). -/
def execEncodeParamless (op : Opcode) (s : State) : Host.Outcome State Fault Refusal :=
  answerFrame op 0x00 0x00 s

/-- ENCODE_MOTOR: the left control byte first (40_frame_encoder.md rule R75). -/
def execEncodeMotor (op : Opcode) (left right : Rat) (brakeLeft brakeRight : Bool) (s : State) :
    Host.Outcome State Fault Refusal :=
  answerFrame op (quantizeByte s.cfg left brakeLeft) (quantizeByte s.cfg right brakeRight) s

/-- QUANTIZE (40_frame_encoder.md rule R76). -/
def execQuantize (x : Rat) (brake : Bool) (s : State) : Host.Outcome State Fault Refusal :=
  .next (answer s (.control (quantizeByte s.cfg x brake)))

/-- OUT.GET_LOG, the pseudo-operation GETLOG (30_encoding.md rule R71). -/
def execOutGetLog (s : State) : Host.Outcome State Fault Refusal := answerFrame .getLog 0x00 0x00 s

/-- OUT.SET_MOTOR_LEVELS: the left control byte, then the right (30_encoding.md rule R60). -/
def execOutSetMotorLevels (left right : Byte) (s : State) : Host.Outcome State Fault Refusal :=
  answerFrame .setMotorLevels left right s

/-- OUT.RESET_STATE (30_encoding.md rule R60). -/
def execOutResetState (s : State) : Host.Outcome State Fault Refusal := answerFrame .resetState 0x00 0x00 s

/-- OUT.GET_STATE, the pseudo-operation POLL (30_encoding.md rule R71). -/
def execOutGetState (s : State) : Host.Outcome State Fault Refusal := answerFrame .getState 0x00 0x00 s

/-- OUT.NACK (30_encoding.md rule R60). -/
def execOutNack (s : State) : Host.Outcome State Fault Refusal := answerFrame .nack 0x00 0x00 s

/-- OUT.ACK (30_encoding.md rule R60). -/
def execOutAck (s : State) : Host.Outcome State Fault Refusal := answerFrame .ack 0x00 0x00 s

/-- OUT.START (30_encoding.md rules R58 and R60). -/
def execOutStart (s : State) : Host.Outcome State Fault Refusal := answerFrame .start 0x00 0x00 s

/-- OUT.STOP (30_encoding.md rules R58 and R60). -/
def execOutStop (s : State) : Host.Outcome State Fault Refusal := answerFrame .stop 0x00 0x00 s

end Sys2Proof.Machine
end

