-- ==== Sys2Proof/Machine/FrameQueue.lean ====
section
/-!
DEFINITION. The meanings of VFQ and of the whole-block operations: DEQUEUE, HEALTH and RESET (42_frame_queue.md).
-/
namespace Sys2Proof.Machine

/-- DEQUEUE (42_frame_queue.md rule R109). -/
def execDequeue (s : State) : Host.Outcome State Fault Refusal :=
  .next (finish s (dequeue s.blk).1 (dequeue s.blk).2)

/-- HEALTH: never refused (42_frame_queue.md rule R112). -/
def execHealth (s : State) : Host.Outcome State Fault Refusal := .next (answer s (.health (healthRecord s.blk)))

/-- RESET: never refused (42_frame_queue.md rule R113). -/
def execReset (s : State) : Host.Outcome State Fault Refusal := .next (resetState s)

end Sys2Proof.Machine
end

