-- ==== Sys2Proof/Machine/Resynchronizer.lean ====
section
/-!
DEFINITION. The meanings of RSY: FEED (41_resynchronizer.md rule R98), and the inbound frames of the opcode table, each
the FEED of its own bytes as one batch (30_encoding.md rule R71, pseudo-operation FRAME; assumption 9).
-/
namespace Sys2Proof.Machine

/-- FEED (41_resynchronizer.md rule R98). -/
def execFeed (batch : List Byte) (s : State) : Host.Outcome State Fault Refusal := .next (feedState batch s)

/-- The arrival of a legal frame in one batch (30_encoding.md rules R63 and R71). -/
def feedFrame (op : Opcode) (payload : List Byte) (s : State) : Host.Outcome State Fault Refusal :=
  .next (feedState (inboundFrame s.cfg op payload (stopByte s.cfg)) s)

/-- IN.GET_LOG (30_encoding.md rule R63). -/
def execInGetLog (payload : List Byte) (s : State) : Host.Outcome State Fault Refusal := feedFrame .getLog payload s

/-- IN.SET_MOTOR_LEVELS (30_encoding.md rule R63). -/
def execInSetMotorLevels (payload : List Byte) (s : State) : Host.Outcome State Fault Refusal :=
  feedFrame .setMotorLevels payload s

/-- IN.RESET_STATE (30_encoding.md rule R63); a response of the device, not the block's RESET (91 N13). -/
def execInResetState (payload : List Byte) (s : State) : Host.Outcome State Fault Refusal :=
  feedFrame .resetState payload s

/-- IN.GET_STATE (30_encoding.md rule R63). -/
def execInGetState (payload : List Byte) (s : State) : Host.Outcome State Fault Refusal :=
  feedFrame .getState payload s

/-- IN.NACK (30_encoding.md rule R63). -/
def execInNack (payload : List Byte) (s : State) : Host.Outcome State Fault Refusal := feedFrame .nack payload s

/-- IN.ACK (30_encoding.md rule R63). -/
def execInAck (payload : List Byte) (s : State) : Host.Outcome State Fault Refusal := feedFrame .ack payload s

/-- IN.START: the start marker's byte as the opcode is recognized (30_encoding.md rule R58). -/
def execInStart (payload : List Byte) (s : State) : Host.Outcome State Fault Refusal := feedFrame .start payload s

/-- IN.STOP: the stop marker's byte as the opcode is recognized (30_encoding.md rule R58). -/
def execInStop (payload : List Byte) (s : State) : Host.Outcome State Fault Refusal := feedFrame .stop payload s

/-- IN.INVALID.BAD_LENGTH: the header and what has arrived of the rest (30_encoding.md rule R65 (a)). -/
def execInInvalidBadLength (opByte : Byte) (len : BitVec 16) (tail : List Byte) (s : State) :
    Host.Outcome State Fault Refusal :=
  .next (feedState (inboundHeader s.cfg opByte len.toNat ++ tail) s)

/-- IN.INVALID.BAD_OPCODE: the header and what has arrived of the rest (30_encoding.md rule R65 (b)). -/
def execInInvalidBadOpcode (opByte : Byte) (len : BitVec 16) (tail : List Byte) (s : State) :
    Host.Outcome State Fault Refusal :=
  .next (feedState (inboundHeader s.cfg opByte len.toNat ++ tail) s)

/-- IN.INVALID.BAD_TERMINATOR: a whole frame whose last byte is another (30_encoding.md rule R65 (c)). -/
def execInInvalidBadTerminator (op : Opcode) (payload : List Byte) (terminator : Byte) (s : State) :
    Host.Outcome State Fault Refusal :=
  .next (feedState (inboundFrame s.cfg op payload terminator) s)

end Sys2Proof.Machine
end

