-- ==== Sys2Proof/Machine/Dispatch.lean ====
section
/-! DEFINITION. One arm per instruction: the direct call of its meaning. -/
namespace Sys2Proof.Machine

def exec (i : Instr) (s : State) : Host.Outcome State Fault Refusal :=
  match i with
  -- the eight operations (30_encoding.md rule R68)
  | .feed batch => Sys2Proof.Machine.execFeed batch s
  | .dequeue => Sys2Proof.Machine.execDequeue s
  | .health => Sys2Proof.Machine.execHealth s
  | .reset => Sys2Proof.Machine.execReset s
  | .encode op p0 p1 => Sys2Proof.Machine.execEncode op p0 p1 s
  | .encodeParamless op => Sys2Proof.Machine.execEncodeParamless op s
  | .encodeMotor op left right brakeLeft brakeRight => Sys2Proof.Machine.execEncodeMotor op left right brakeLeft brakeRight s
  | .quantize x brake => Sys2Proof.Machine.execQuantize x brake s
  -- the outbound frames (30_encoding.md rule R59)
  | .outGetLog => Sys2Proof.Machine.execOutGetLog s
  | .outSetMotorLevels left right => Sys2Proof.Machine.execOutSetMotorLevels left right s
  | .outResetState => Sys2Proof.Machine.execOutResetState s
  | .outGetState => Sys2Proof.Machine.execOutGetState s
  | .outNack => Sys2Proof.Machine.execOutNack s
  | .outAck => Sys2Proof.Machine.execOutAck s
  | .outStart => Sys2Proof.Machine.execOutStart s
  | .outStop => Sys2Proof.Machine.execOutStop s
  -- the inbound frames (30_encoding.md rule R63)
  | .inGetLog payload => Sys2Proof.Machine.execInGetLog payload s
  | .inSetMotorLevels payload => Sys2Proof.Machine.execInSetMotorLevels payload s
  | .inResetState payload => Sys2Proof.Machine.execInResetState payload s
  | .inGetState payload => Sys2Proof.Machine.execInGetState payload s
  | .inNack payload => Sys2Proof.Machine.execInNack payload s
  | .inAck payload => Sys2Proof.Machine.execInAck payload s
  | .inStart payload => Sys2Proof.Machine.execInStart payload s
  | .inStop payload => Sys2Proof.Machine.execInStop payload s
  -- the invalid inbound forms (30_encoding.md rule R65)
  | .inInvalidBadLength opByte len tail => Sys2Proof.Machine.execInInvalidBadLength opByte len tail s
  | .inInvalidBadOpcode opByte len tail => Sys2Proof.Machine.execInInvalidBadOpcode opByte len tail s
  | .inInvalidBadTerminator op payload terminator => Sys2Proof.Machine.execInInvalidBadTerminator op payload terminator s

end Sys2Proof.Machine
end

