-- ==== Sys2Proof/Machine/Step.lean ====
section
/-!
DEFINITION. One step of the machine: the next operation in the agents' total order (20_memory.md rule R49) is fetched
and performed as one atomic step (R45).
-/
namespace Sys2Proof.Machine

/-- One step. With no request pending, no agent moves and nothing changes (assumption 3). Otherwise the first request is
taken off the list and the instruction its bytes stand for is performed. -/
def step (s : State) : Host.Outcome State Fault Refusal :=
  match s.requests with
  | [] => .next s
  | r :: later =>
    match fetchInstr s.cfg r.channel r.bytes with
    | .ok i => exec i { s with requests := later }
    | .error e => .refused (.malformedRequest e)

/-- The state with a table word's instruction as the next request. A word of the command port is stored as a request of
that port, so the platform's `PLATFORM_MAP` is set to hand requests over unchanged; nothing else changes. -/
def State.withFetchWord (s : State) (nbits w : Nat) : State :=
  let r := tableRequest s.cfg nbits w
  { s with cfg := readAsItStands r s.cfg, requests := r :: s.requests }

end Sys2Proof.Machine
end

