-- ==== Sys2Proof/Machine/Telemetry.lean ====
section
/-!
DEFINITION. The telemetry payload layout (43_telemetry_layout.md): the companion function TELEMETRY, which the block does
not call and which holds no state, and the payload built from field values (rule R118).
-/
namespace Sys2Proof.Machine

/-! ### Integer assembly (43_telemetry_layout.md rule R114) -/

/-- `u8(p, k) = p[k]`; read only where `k < |p|`. -/
def u8At (p : List Byte) (k : Nat) : Nat := (p.getD k 0).toNat

/-- `u16le(p, k) = p[k] + 256*p[k+1]`. -/
def u16leAt (p : List Byte) (k : Nat) : Nat := u8At p k + 256 * u8At p (k + 1)

/-- `s16le(p, k)`, two's complement. -/
def s16leAt (p : List Byte) (k : Nat) : Int :=
  if 32768 ≤ u16leAt p k then (u16leAt p k : Int) - 65536 else u16leAt p k

/-- `u32le(p, k)`. -/
def u32leAt (p : List Byte) (k : Nat) : Nat :=
  u8At p k + 256 * u8At p (k + 1) + 65536 * u8At p (k + 2) + 16777216 * u8At p (k + 3)

/-- `s32le(p, k)`, two's complement. -/
def s32leAt (p : List Byte) (k : Nat) : Int :=
  if 2147483648 ≤ u32leAt p k then (u32leAt p k : Int) - 4294967296 else u32leAt p k

/-! ### The layout (43_telemetry_layout.md rule R115) -/

/-- `TELEMETRY_LEN`: 29 bytes (rule R115). -/
abbrev telemetryLen : Nat := 29

/-- The fifteen fields of the telemetry payload (rule R115). The meaning of their bits is not given
(43_telemetry_layout.md rule R117): they are plain integers. -/
structure Telemetry where
  ctrlLeft : Nat
  ctrlRight : Nat
  faultLeft : Nat
  faultRight : Nat
  encoderLeft : Int
  encoderRight : Int
  batteryMv : Int
  safetyStatus : Nat
  temperature : Int
  stateOfHealth : Nat
  flags : Int
  chargerDetails : Int
  wirelessAttached : Nat
  usbChargerMv : Int
  wirelessVrectMv : Int
deriving DecidableEq, Repr

/-- The fields of a payload of at least 29 bytes, each at its offset (rule R115). -/
def telemetryFields (p : List Byte) : Telemetry where
  ctrlLeft := u8At p 0
  ctrlRight := u8At p 1
  faultLeft := u8At p 2
  faultRight := u8At p 3
  encoderLeft := s32leAt p 4
  encoderRight := s32leAt p 8
  batteryMv := s16leAt p 12
  safetyStatus := u8At p 14
  temperature := s16leAt p 15
  stateOfHealth := u8At p 17
  flags := s16leAt p 18
  chargerDetails := s32leAt p 20
  wirelessAttached := u8At p 24
  usbChargerMv := s16leAt p 25
  wirelessVrectMv := s16leAt p 27

/-- `TELEMETRY(p)`: the record when `|p| >= 29`, else `NONE`; bytes from offset 29 on are ignored (rule R116). -/
def telemetry (p : List Byte) : Option Telemetry :=
  if p.length < telemetryLen then none else some (telemetryFields p)

/-- `wireless_attached` reads true when nonzero (rule R115). -/
def isWirelessAttached (t : Telemetry) : Bool := t.wirelessAttached != 0

/-! ### Building a payload (43_telemetry_layout.md rule R118) -/

/-- A 1-byte field. -/
def u8Bytes (n : Nat) : List Byte := [BitVec.ofNat 8 n]

/-- A signed 16-bit field, little-endian. -/
def s16leBytes (v : Int) : List Byte := [BitVec.ofInt 8 v, BitVec.ofInt 8 (v / 256)]

/-- A signed 32-bit field, little-endian. -/
def s32leBytes (v : Int) : List Byte :=
  [BitVec.ofInt 8 v, BitVec.ofInt 8 (v / 256), BitVec.ofInt 8 (v / 65536), BitVec.ofInt 8 (v / 16777216)]

/-- The 29-byte payload with each value written little-endian at its offset (rule R118). -/
def telemetryBytes (t : Telemetry) : List Byte :=
  u8Bytes t.ctrlLeft ++ u8Bytes t.ctrlRight ++ u8Bytes t.faultLeft ++ u8Bytes t.faultRight ++
    s32leBytes t.encoderLeft ++ s32leBytes t.encoderRight ++ s16leBytes t.batteryMv ++ u8Bytes t.safetyStatus ++
    s16leBytes t.temperature ++ u8Bytes t.stateOfHealth ++ s16leBytes t.flags ++ s32leBytes t.chargerDetails ++
    u8Bytes t.wirelessAttached ++ s16leBytes t.usbChargerMv ++ s16leBytes t.wirelessVrectMv

end Sys2Proof.Machine
end

