-- ==== Sys2Proof/Safety.lean ====
section
/-!
DEFINITION. What counts as a good state and a good run: the invariants of 10_state.md rule R39, the clean entry of
70_reset_and_hazards.md rule R144, and the end of a run (R146).
-/
namespace Sys2Proof.Machine

/-- An entry as 10_state.md rule R31 describes it. -/
abbrev Entry.Wf (c : Config) (e : Entry) : Prop := recognized c e.opcode = true ∧ e.payload.length ≤ maxLen

/-- 10_state.md rule R39 (d) and (e): the resting registers are those of `settle(acc)`, and `classify` waits, so that a
further pass raises no event and changes nothing. -/
abbrev Block.Settled (c : Config) (b : Block) : Prop := isWait (classify c b.acc) = true ∧ settle c b = b

/-- The state a fatal queue overflow leaves (42_frame_queue.md rule R108; 10_state.md rule R39, last paragraph): the
accumulator still holds the complete frame that could not be queued, the registers describe it, the queue is full. -/
abbrev Block.Frozen (c : Config) (b : Block) : Prop :=
  b.queue.length = queueCap ∧ b.phase = .seekingBody ∧ b.lastStop = Machine.lastStop c b.acc ∧
    (match b.start, b.curOpcode, b.curLength with
      | some s, some op, some len => classify c b.acc == .accept s op len
      | _, _, _ => false) = true

/-- The invariants of 10_state.md rule R39, with the entries of R31 and the frozen state of R108. -/
abbrev Block.Inv (c : Config) (b : Block) : Prop :=
  b.acc.length ≤ c.accCap ∧ b.queue.length ≤ queueCap ∧ b.badCount ≤ 4 ∧ (∀ e ∈ b.queue, Entry.Wf c e) ∧
    (if b.halted then Block.Frozen c b else Block.Settled c b)

/-- The invariant of the machine: legal parameters (00_scope.md rule R8), the block's invariants (R39), only requests
that an agent can make (60_exceptions.md rule R133), and a halted block only in a run marked as faulted
(70_reset_and_hazards.md rule R146). -/
abbrev State.Inv (s : State) : Prop :=
  s.cfg.Legal ∧ Block.Inv s.cfg s.blk ∧ (∀ r ∈ s.requests, requestWf s.cfg r = true) ∧
    (s.blk.halted = true → s.runFaulted = true)

/-- The clean-entry record of 70_reset_and_hazards.md rule R144: the reset state of the block under legal parameters. -/
abbrev State.CleanEntry (s : State) : Prop := s.blk = Block.reset ∧ s.cfg.Legal

/-- A run may end normally here: not halted, no fatal event in the run, no operation refused
(70_reset_and_hazards.md rule R146). -/
abbrev State.NormalEnd (s : State) : Prop := s.blk.halted = false ∧ s.runFaulted = false ∧ s.runRefused = false

/-- FEED each batch in turn (20_memory.md rule R51), stopping where the machine stops. -/
def runFeeds (s : State) : List (List Byte) → Host.Outcome State Fault Refusal
  | [] => .next s
  | batch :: later =>
    match exec (.feed batch) s with
    | .next t => runFeeds t later
    | .fault f => .fault f
    | .refused r => .refused r

/-- Is this a DESYNC_EVENT (60_exceptions.md rule R122)? -/
def isDesync : Event → Bool
  | .frame _ _ => false
  | .desync _ _ _ => true
  | .persistentDesync => false
  | .fatalQueueOverflow _ _ => false

/-- Is this the overflow guard's DESYNC_EVENT (60_exceptions.md rule R120)? -/
def isOverflow : Event → Bool
  | .frame _ _ => false
  | .desync .badLength _ _ => false
  | .desync .badOpcode _ _ => false
  | .desync .badTerminator _ _ => false
  | .desync .overflow _ _ => true
  | .persistentDesync => false
  | .fatalQueueOverflow _ _ => false

/-- Is this PERSISTENT_DESYNC (60_exceptions.md rule R123)? -/
def isPersistent : Event → Bool
  | .frame _ _ => false
  | .desync _ _ _ => false
  | .persistentDesync => true
  | .fatalQueueOverflow _ _ => false

/-- Is this FRAME (60_exceptions.md rule R121)? -/
def isFrame : Event → Bool
  | .frame _ _ => true
  | .desync _ _ _ => false
  | .persistentDesync => false
  | .fatalQueueOverflow _ _ => false

/-- Does an EMIT raise this event (41_resynchronizer.md rule R94)? -/
def isEmit (e : Event) : Bool := isFrame e || isFatal e

/-- The events the count of one more bad packet raises, for a counter at this value (60_exceptions.md rule R123). -/
def persistentAt (badCount : Nat) : List Event := if badCount + 1 = desyncThreshold then [.persistentDesync] else []

/-- The counter after one more bad packet (41_resynchronizer.md rule R95). -/
def bumped (badCount : Nat) : Nat := if badCount + 1 = desyncThreshold then 0 else badCount + 1

/-- No byte of the list is the start marker. -/
abbrev NoStart (c : Config) (bytes : List Byte) : Prop := ∀ x ∈ bytes, x ≠ startByte c

/-- The block at rest on an accumulator without a start marker (41_resynchronizer.md rules R89 and R90). -/
def seekingStartBlock (c : Config) (acc : List Byte) (badCount : Nat) (queue : List Entry) : Block where
  acc := acc
  phase := .seekingStart
  start := none
  curOpcode := none
  curLength := none
  lastStop := lastStop c acc
  badCount := badCount
  queue := queue
  halted := false

end Sys2Proof.Machine
end

