-- ==== Sys2Proof/Certificates/Slice0/Obligations.lean ====
section
/-!
DEFINITION. The statements for the provers. Each docstring names the rule or the section of spec/ it formalises; where the
spec marks the sentence as its own inference (a "derived" mark), or the point is the model's choice, the docstring says so
and names the sentence or the entry of the assumption log.
-/

open Sys2Proof Sys2Proof.Machine

/-! ### The encoder (40_frame_encoder.md) -/

/-- R73. ENCODE builds `[START, opcode, p0, p1, STOP]` from any opcode and any two bytes, is selected by 0b100 (bits
[2:0] of a request, as the opcode table numbers them; no layout of its operands is claimed), and changes nothing but
the response. -/
def Obligations.EncodeAnswersTheFrameOfItsBytes : Prop :=
  ∀ (op : Opcode) (p0 p1 : Byte) (s : State),
    (∃ operands : List Byte, decodeCommand (0b100#8 :: operands) = .ok (.encode op p0 p1)) ∧
      exec (.encode op p0 p1) s =
        .next { s with resp :=
          { status := .ok
            result := .frame [startByte s.cfg, opcodeByte s.cfg op, p0, p1, stopByte s.cfg]
            events := [] } }

/-- Section 3 of 40_frame_encoder.md. ENCODE_PARAMLESS builds the frame of any opcode with both payload bytes zero, is
selected by 0b101 (no layout of its operand is claimed), and changes nothing but the response; for SET_MOTOR_LEVELS the
payload equals a coast command on both motors (the spec marks this last sentence derived: "since QUANTIZE(0, false) =
0x00"). -/
def Obligations.EncodeParamlessAnswersZeroPayload : Prop :=
  (∀ (op : Opcode) (s : State),
    (∃ operands : List Byte, decodeCommand (0b101#8 :: operands) = .ok (.encodeParamless op)) ∧
      exec (.encodeParamless op) s =
        .next { s with resp :=
          { status := .ok
            result := .frame [startByte s.cfg, opcodeByte s.cfg op, 0x00, 0x00, stopByte s.cfg]
            events := [] } }) ∧
    quantizeExact 0 false = 0x00

/-- Section 4 of 40_frame_encoder.md: ENCODE_MOTOR carries the left motor's control byte, then the right's, for any
opcode and any rational inputs, and changes nothing but the response. With the default quantizer the two bytes are
the exact results. (The order left first is the spec's decision D11.) -/
def Obligations.EncodeMotorCarriesLeftThenRight : Prop :=
  ∀ (op : Opcode) (left right : Rat) (brakeLeft brakeRight : Bool) (s : State),
    s.cfg.qBoundary = none →
      exec (.encodeMotor op left right brakeLeft brakeRight) s =
        .next { s with resp :=
          { status := .ok
            result := .frame [startByte s.cfg, opcodeByte s.cfg op, quantizeExact left brakeLeft,
              quantizeExact right brakeRight, stopByte s.cfg]
            events := [] } }

/-- Section 5 of 40_frame_encoder.md: the five steps of QUANTIZE, in integers: the answered byte is four times the floor of
step 4 plus the direction bits of step 5, so the floor is never negative and never needs a seventh bit. -/
def Obligations.QuantizeFollowsItsFiveSteps : Prop :=
  ∀ (x : Rat) (brake : Bool) (s : State), s.cfg.qBoundary = none →
    ∃ byte : Byte,
      exec (.quantize x brake) s =
        .next { s with resp := { status := .ok, result := .control byte, events := [] } } ∧
      (let scaled : Rat := -x * (253 / 50)
       let dead : Rat := if |scaled| ≤ 49 / 100 then 0 else scaled
       let v : Rat := min (253 / 50) (max (-(253 / 50)) dead)
       let reg : Int := if v = 0 then 0 else ⌊64 * |v| / (4 * (257 / 200)) - 1⌋
       let dir : Int := if brake then 3 else if v < 0 then 1 else if 0 < v then 2 else 0
       (byte.toNat : Int) = 4 * reg + dir)

/-- The closed form of section 5 of 40_frame_encoder.md (the spec marks it derived): "if `|x| <= 49/506`, then `reg = 0`;
otherwise `reg = floor(16192 * min(|x|, 1) / 257) - 1`", with the direction bits. -/
def Obligations.QuantizerClosedForm : Prop :=
  ∀ (x : Rat) (brake : Bool),
    ((controlMagnitude (quantizeExact x brake)).toNat : Int) =
        (if |x| ≤ 49 / 506 then 0 else ⌊16192 * min |x| 1 / 257⌋ - 1) ∧
      controlDirection (quantizeExact x brake) =
        (if brake then 0b11#2 else if |x| ≤ 49 / 506 then 0b00#2 else if 0 < x then 0b01#2 else 0b10#2)

/-- The table of section 5 of 40_frame_encoder.md (the spec marks it derived): outside the dead zone each magnitude
from 5 to 61 is taken exactly on its interval, 62 from 16191/16192 on, and no other; magnitude 0 exactly in the dead
zone; and every magnitude from 5 to 62 is taken. -/
def Obligations.QuantizerMagnitudeIntervals : Prop :=
  (∀ (x : Rat) (brake : Bool),
    let reg := (controlMagnitude (quantizeExact x brake)).toNat
    (reg = 0 ↔ |x| ≤ 49 / 506) ∧ (reg = 0 ∨ 5 ≤ reg ∧ reg ≤ 62) ∧
      (49 / 506 < |x| → ∀ k : Nat, 5 ≤ k → k ≤ 61 →
        (reg = k ↔ 257 * ((k : Rat) + 1) / 16192 ≤ |x| ∧ |x| < 257 * ((k : Rat) + 2) / 16192)) ∧
      (reg = 62 ↔ 16191 / 16192 ≤ |x|)) ∧
    ∀ k : Nat, 5 ≤ k → k ≤ 62 → ∃ x : Rat, |x| ≤ 1 ∧ (controlMagnitude (quantizeExact x false)).toNat = k

/-- Section 5 of 40_frame_encoder.md (the spec marks it derived): "With `brake = true` the direction bits are 0b11
whatever v is. The magnitude bits still carry the reg of steps 1 to 4." -/
def Obligations.BrakeSetsBothBitsAndKeepsMagnitude : Prop :=
  (∀ x : Rat, controlDirection (quantizeExact x true) = 0b11#2 ∧
      controlMagnitude (quantizeExact x true) = controlMagnitude (quantizeExact x false) ∧
      (|x| ≤ 49 / 506 → quantizeExact x true = 0x03)) ∧
    ∀ x : Rat, controlDirection (quantizeExact x false) ≠ 0b11#2

/-- R80. QUANTIZE is total: inputs beyond 1 in magnitude are accepted, not refused, and clamped to the result of their
sign. -/
def Obligations.QuantizerClampsBeyondTheContractRange : Prop :=
  (∀ (x : Rat) (brake : Bool), 1 < x → quantizeExact x brake = quantizeExact 1 brake) ∧
    (∀ (x : Rat) (brake : Bool), x < -1 → quantizeExact x brake = quantizeExact (-1) brake) ∧
    quantizeExact 2 false = 0xF9 ∧ quantizeExact 1 false = 0xF9 ∧ quantizeExact (-3) false = 0xFA ∧
    ∀ (x : Rat) (brake : Bool) (s : State), s.cfg.qBoundary = none →
      exec (.quantize x brake) s =
        .next { s with resp := { status := .ok, result := .control (quantizeExact x brake), events := [] } }

/-- Section 5 of 40_frame_encoder.md, sign convention: outside the dead zone a positive input gives the direction bits
0b01 and a negative input 0b10; an input and its opposite have the same magnitude bits (95_test_vectors.md section 2.1). -/
def Obligations.OppositeInputsShareTheMagnitude : Prop :=
  ∀ x : Rat, (∀ brake : Bool, controlMagnitude (quantizeExact (-x) brake) = controlMagnitude (quantizeExact x brake)) ∧
    (49 / 506 < x → controlDirection (quantizeExact x false) = 0b01#2 ∧
      controlDirection (quantizeExact (-x) false) = 0b10#2)

/-- Section 4 of 00_scope.md and section 5 of 40_frame_encoder.md, the parameter `Q_BOUNDARY` (its form, known values and a
function of which nothing is known, is the model's choice, assumption 13): under legal parameters, whatever function it
is, QUANTIZE answers a known value where one is listed, and in every case the exact result, or the result of an adjacent
interval whose boundary the input is within the rounding distance of: its magnitude, with the direction bits of the
input's sign and the brake. -/
def Obligations.BoundaryTableGivesExactOrAdjacentResult : Prop :=
  ∀ (x : Rat) (brake : Bool) (s : State) (q : QBoundary), s.cfg.Legal → s.cfg.qBoundary = some q →
    ∃ byte : Byte,
      exec (.quantize x brake) s =
        .next { s with resp := { status := .ok, result := .control byte, events := [] } } ∧
      (∀ known : QBoundaryEntry, q.entries.find? (fun e => e.x == x && e.brake == brake) = some known →
        byte = known.byte) ∧
      (byte = quantizeExact x brake ∨
        x ≠ 0 ∧
        ∃ lower upper : Nat,
          ((lower = 0 ∧ upper = 5) ∨ (5 ≤ lower ∧ upper = lower + 1 ∧ upper ≤ 62)) ∧
          (((controlMagnitude (quantizeExact x brake)).toNat = lower ∧ (controlMagnitude byte).toNat = upper) ∨
            ((controlMagnitude (quantizeExact x brake)).toNat = upper ∧ (controlMagnitude byte).toNat = lower)) ∧
          |(|x| - (if lower = 0 then 49 / 506 else 257 * ((lower : Rat) + 2) / 16192))| ≤ q.distance ∧
          controlDirection byte =
            (if brake then 0b11#2
             else if (controlMagnitude byte).toNat = 0 then 0b00#2
             else if 0 < x then 0b01#2
             else 0b10#2))

/-- The source's zero motor command (95_test_vectors.md section 1.1): for every pair of inputs in the dead zone with both
brakes off, ENCODE_MOTOR of SET_MOTOR_LEVELS answers a zero payload. -/
def Obligations.DeadZoneMotorCommandIsZeroPayload : Prop :=
  ∀ (left right : Rat) (s : State), s.cfg.qBoundary = none → |left| ≤ 49 / 506 → |right| ≤ 49 / 506 →
    exec (.encodeMotor .setMotorLevels left right false false) s =
      .next { s with resp :=
        { status := .ok
          result := .frame [startByte s.cfg, opcodeByte s.cfg .setMotorLevels, 0x00, 0x00, stopByte s.cfg]
          events := [] } }

/-- Section 2 of 30_encoding.md. The outbound rows answer their own five bytes (that such a row, as an instruction, is
performed and answers its frame is the model's choice, assumption 8): SET_MOTOR_LEVELS carries the left and the right control byte,
every other opcode two zero bytes; nothing changes but the response. -/
def Obligations.OutboundRowsAnswerTheirFrames : Prop :=
  ∀ (s : State) (left right : Byte),
    let answered (op : Opcode) (p0 p1 : Byte) : Host.Outcome State Fault Refusal :=
      .next { s with resp :=
        { status := .ok
          result := .frame [startByte s.cfg, opcodeByte s.cfg op, p0, p1, stopByte s.cfg]
          events := [] } }
    exec .outGetLog s = answered .getLog 0x00 0x00 ∧
      exec (.outSetMotorLevels left right) s = answered .setMotorLevels left right ∧
      exec .outResetState s = answered .resetState 0x00 0x00 ∧
      exec .outGetState s = answered .getState 0x00 0x00 ∧
      exec .outNack s = answered .nack 0x00 0x00 ∧
      exec .outAck s = answered .ack 0x00 0x00 ∧
      exec .outStart s = answered .start 0x00 0x00 ∧
      exec .outStop s = answered .stop 0x00 0x00

/-- Section 1 of 40_frame_encoder.md. An operation of ENC (one that every agent may issue, HEALTH apart) is performed in
every state, halted or not, changes nothing but the response, raises no event, and its result depends on its arguments,
on `OPCODE_BYTE` and, for the quantizer, on the parameter `Q_BOUNDARY` of section 4 of 00_scope.md only. (That the OUT
rows are operations of ENC is the model's choice, assumption 8, as is the form of `Q_BOUNDARY`, assumption 13.) -/
def Obligations.EncoderIsPureAndNeverRefused : Prop :=
  ∀ i : Instr, i ≠ .health → (∀ a : Agent, mayIssue a i = true) →
    ∀ (bytes : Vector Byte 8) (boundary : Option QBoundary), ∃ result : Result, ∀ s : State,
      s.cfg.opcodeBytes = bytes → s.cfg.qBoundary = boundary →
      exec i s = .next { s with resp := { status := .ok, result := result, events := [] } }

/-! ### FEED: refusals, completion, rest (41_resynchronizer.md section 6, 60_exceptions.md section 2) -/

/-- R126. "A FEED whose batch is longer than `BATCH_MAX` returns `REFUSED(BATCH_TOO_LONG)` and changes nothing." Only the
response and the run's refusal mark (the model's record of it, assumption 6) show it. -/
def Obligations.OverlongBatchIsRefused : Prop :=
  ∀ (batch : List Byte) (s : State), s.blk.halted = false → s.cfg.batchMax < batch.length →
    exec (.feed batch) s =
      .next { s with
        resp := { status := .refused .batchTooLong, result := .none, events := [] }
        runRefused := true }

/-- R125. While halted, FEED and DEQUEUE return `REFUSED(HALTED)` and change nothing; HEALTH, RESET and the encoder
operations are performed as usual. (The run's refusal mark is the model's record of a refusal, assumption 6.) -/
def Obligations.HaltedBlockRefusesFeedAndDequeueOnly : Prop :=
  ∀ s : State, s.blk.halted = true →
    (∀ batch : List Byte, exec (.feed batch) s =
      .next { s with resp := { status := .refused .halted, result := .none, events := [] }, runRefused := true }) ∧
    exec .dequeue s =
      .next { s with resp := { status := .refused .halted, result := .none, events := [] }, runRefused := true } ∧
    exec .health s =
      .next { s with resp := { status := .ok, result := .health (healthRecord s.blk), events := [] } } ∧
    exec .reset s =
      .next { s with blk := Block.reset, resp := { status := .ok, result := .none, events := [] } } ∧
    (∀ (op : Opcode) (p0 p1 : Byte), exec (.encode op p0 p1) s =
      .next { s with resp := { status := .ok, result := .frame (outboundFrame s.cfg op p0 p1), events := [] } }) ∧
    (∀ op : Opcode, exec (.encodeParamless op) s =
      .next { s with resp := { status := .ok, result := .frame (outboundFrame s.cfg op 0 0), events := [] } }) ∧
    (∀ (op : Opcode) (left right : Rat) (brakeLeft brakeRight : Bool),
      exec (.encodeMotor op left right brakeLeft brakeRight) s =
        .next { s with resp :=
          { status := .ok
            result := .frame (outboundFrame s.cfg op (quantizeByte s.cfg left brakeLeft)
              (quantizeByte s.cfg right brakeRight))
            events := [] } }) ∧
    ∀ (x : Rat) (brake : Bool), exec (.quantize x brake) s =
      .next { s with resp := { status := .ok, result := .control (quantizeByte s.cfg x brake), events := [] } }

/-- Section 6 of 41_resynchronizer.md: a FEED that is not refused completes with status OK and no return value, changes
only the block, the response and the run's fault mark, and leaves the block halted or settled; it appends at most
one entry to the queue. -/
def Obligations.FeedCompletesSettledOrHalted : Prop :=
  ∀ (batch : List Byte) (s : State), s.blk.halted = false → batch.length ≤ s.cfg.batchMax →
    ∃ (b : Block) (events : List Event),
      exec (.feed batch) s =
        .next { s with
          blk := b
          resp := { status := .ok, result := .none, events := events }
          runFaulted := s.runFaulted || events.any isFatal } ∧
      (b.halted = true ∨ Block.Settled s.cfg b) ∧
      (b.queue = s.blk.queue ∨ ∃ e : Entry, b.queue = s.blk.queue ++ [e])

/-- Section 3 of 41_resynchronizer.md: while the header, the body or the start marker itself is still to come, a FEED
appends its batch, keeps every byte, raises no event, and rests in the phase that says what it waits for. -/
def Obligations.FeedKeepsWaitingBytes : Prop :=
  ∀ (batch : List Byte) (s : State), s.blk.halted = false → batch.length ≤ s.cfg.batchMax →
    s.blk.acc.length + batch.length ≤ s.cfg.accCap →
    let acc := s.blk.acc ++ batch
    let rest (phase : Phase) (start : Option Nat) (op : Option Byte) (len : Option Nat) :
        Host.Outcome State Fault Refusal :=
      .next { s with
        blk := { acc := acc, phase := phase, start := start, curOpcode := op, curLength := len,
                 lastStop := lastStop s.cfg acc, badCount := s.blk.badCount, queue := s.blk.queue, halted := false }
        resp := { status := .ok, result := .none, events := [] } }
    (firstStart s.cfg acc 0 = none → exec (.feed batch) s = rest .seekingStart none none none) ∧
    ∀ st : Nat, firstStart s.cfg acc 0 = some st →
      (acc.length - st < 4 → exec (.feed batch) s = rest .seekingHeader (some st) none none) ∧
      ∀ (op lo hi : Byte), acc[st + 1]? = some op → acc[st + 2]? = some lo → acc[st + 3]? = some hi →
        lo.toNat + 256 * hi.toNat ≤ 2048 → recognized s.cfg op = true →
        acc.length < st + 4 + (lo.toNat + 256 * hi.toNat) + 1 →
        exec (.feed batch) s = rest .seekingBody (some st) (some op) (some (lo.toNat + 256 * hi.toNat))

/-- The empty batch (20_memory.md section 3; the spec marks it derived): "A FEED of an empty batch changes nothing." -/
def Obligations.EmptyFeedChangesNothing : Prop :=
  ∀ s : State, Block.Inv s.cfg s.blk → s.blk.halted = false →
    exec (.feed []) s = .next { s with resp := { status := .ok, result := .none, events := [] } }

/-- Garbage without a start marker (41_resynchronizer.md section 7; the spec marks it derived): it is never refused, emits
no frame, and is kept; when it outgrows the accumulator the guard raises DESYNC_EVENT(OVERFLOW), counts it, and the
new batch alone is kept. -/
def Obligations.GarbageIsKeptOrClearedNeverEmitted : Prop :=
  ∀ (batch : List Byte) (s : State), s.blk.halted = false → batch.length ≤ s.cfg.batchMax →
    NoStart s.cfg s.blk.acc → NoStart s.cfg batch →
    exec (.feed batch) s =
      if s.blk.acc.length + batch.length ≤ s.cfg.accCap then
        .next { s with
          blk := seekingStartBlock s.cfg (s.blk.acc ++ batch) s.blk.badCount s.blk.queue
          resp := { status := .ok, result := .none, events := [] } }
      else
        .next { s with
          blk := seekingStartBlock s.cfg batch (bumped s.blk.badCount) s.blk.queue
          resp :=
            { status := .ok
              result := .none
              events := .desync .overflow 0 s.blk.acc.length :: persistentAt s.blk.badCount } }

/-- R97. The overflow guard: with room, no overflow is reported; without room, the FEED is the FEED of its batch to the
block whose accumulator keeps the bytes from the first start marker on if the batch then fits, and none
otherwise, with one more bad packet counted and one DESYNC_EVENT(OVERFLOW) of origin 0 in front, which counts the
bytes before the first start marker (all of them, where there is none). The batch is appended whole. -/
def Obligations.OverflowGuardCompactsThenClears : Prop :=
  ∀ (batch : List Byte) (s : State), s.cfg.Legal → s.blk.halted = false → batch.length ≤ s.cfg.batchMax →
    (s.blk.acc.length + batch.length ≤ s.cfg.accCap →
      ∃ t : State, exec (.feed batch) s = .next t ∧ ∀ e ∈ t.resp.events, isOverflow e = false) ∧
    (s.cfg.accCap < s.blk.acc.length + batch.length →
      let compacted : List Byte :=
        match firstStart s.cfg s.blk.acc 0 with
        | some j => s.blk.acc.drop j
        | none => []
      let kept : List Byte := if compacted.length + batch.length ≤ s.cfg.accCap then compacted else []
      ∃ t u : State,
        exec (.feed batch) s = .next t ∧
        exec (.feed batch) { s with blk := { s.blk with acc := kept, badCount := bumped s.blk.badCount } } = .next u ∧
        kept.length + batch.length ≤ s.cfg.accCap ∧
        t.blk = u.blk ∧
        t.resp.events = .desync .overflow 0 (s.blk.acc.length - compacted.length) ::
          (persistentAt s.blk.badCount ++ u.resp.events) ∧
        ∀ e ∈ u.resp.events, isOverflow e = false)

/-! ### classify and its helpers (41_resynchronizer.md section 2) -/

/-- R86 and R88. `firstStart` is the least index, from the given one on, that holds the start marker, or `NONE`; and
`classify` is the pseudocode's sequence of tests, with the bytes read at `s+1`, `s+2`, `s+3` and `s+4+L`. -/
def Obligations.ClassifyIsThePseudocode : Prop :=
  (∀ (c : Config) (acc : List Byte) (origin j : Nat), firstStart c acc origin = some j ↔
    origin ≤ j ∧ acc[j]? = some (startByte c) ∧
      ∀ k : Nat, origin ≤ k → k < j → acc[k]? ≠ some (startByte c)) ∧
  (∀ (c : Config) (acc : List Byte) (origin : Nat), firstStart c acc origin = none ↔
    ∀ k : Nat, origin ≤ k → acc[k]? ≠ some (startByte c)) ∧
  ∀ (c : Config) (acc : List Byte),
    classify c acc =
      match firstStart c acc 0 with
      | none => .waitStart
      | some s =>
        if acc.length - s < 4 then .waitHeader s
        else
          let op := acc.getD (s + 1) 0
          let len := (acc.getD (s + 2) 0).toNat + 256 * (acc.getD (s + 3) 0).toNat
          if 2048 < len then .reject .badLength s
          else if recognized c op = false then .reject .badOpcode s
          else if acc.length < s + 4 + len + 1 then .waitBody s op len
          else if acc.getD (s + 4 + len) 0 ≠ stopByte c then .reject .badTerminator s
          else .accept s op len

/-- R87. `lastStop` is the greatest index holding the stop marker; every performed FEED stores it in `last_stop`; and no
transition reads it: two blocks that differ in it alone answer alike to FEED and DEQUEUE, and FEED leaves them equal. -/
def Obligations.LastStopIsStoredAndNeverRead : Prop :=
  (∀ (c : Config) (acc : List Byte) (t : Nat), lastStop c acc = some t ↔
    acc[t]? = some (stopByte c) ∧ ∀ k : Nat, t < k → acc[k]? ≠ some (stopByte c)) ∧
  (∀ (c : Config) (acc : List Byte), lastStop c acc = none ↔ ∀ x ∈ acc, x ≠ stopByte c) ∧
  ∀ (s : State) (v : Option Nat), s.blk.halted = false →
    (∀ batch : List Byte, batch.length ≤ s.cfg.batchMax →
      exec (.feed batch) { s with blk := { s.blk with lastStop := v } } = exec (.feed batch) s ∧
      ∃ t : State, exec (.feed batch) s = .next t ∧ t.blk.lastStop = lastStop s.cfg t.blk.acc) ∧
    ∃ t u : State, exec .dequeue s = .next t ∧
      exec .dequeue { s with blk := { s.blk with lastStop := v } } = .next u ∧
      u = { t with blk := { t.blk with lastStop := v } }

/-- Sections 2 and 4 of 10_state.md: the resting registers gate nothing. A performed FEED depends on the accumulator, the
counter and the queue only. -/
def Obligations.FeedReadsNoRestingRegister : Prop :=
  ∀ (batch : List Byte) (s : State) (phase : Phase) (start : Option Nat) (op : Option Byte) (len stop : Option Nat),
    s.blk.halted = false → batch.length ≤ s.cfg.batchMax →
    exec (.feed batch)
        { s with blk := { s.blk with phase := phase, start := start, curOpcode := op, curLength := len, lastStop := stop } } =
      exec (.feed batch) s

/-- R9. RECOG is the set of the bytes of the eight opcodes, has eight members, and includes both markers. -/
def Obligations.RecognizedBytesAreTheEightOpcodes : Prop :=
  ∀ c : Config, c.Legal →
    (∀ x : Byte, recognized c x = true ↔ ∃ o : Opcode, opcodeByte c o = x) ∧
    (Finset.univ.filter fun n : Fin 256 => recognized c (BitVec.ofFin n) = true).card = 8 ∧
    recognized c (startByte c) = true ∧ recognized c (stopByte c) = true ∧ startByte c ≠ stopByte c

/-! ### Inbound frames (30_encoding.md section 3) -/

/-- Section 5 of 30_encoding.md, pseudo-operation FRAME (assumption 9): an inbound row is the FEED of its own bytes, in
every state. -/
def Obligations.InboundRowsFeedTheirBytes : Prop :=
  ∀ (s : State) (payload tail : List Byte) (opByte terminator : Byte) (len : BitVec 16) (op : Opcode),
    let header (o : Byte) (n : Nat) : List Byte :=
      [startByte s.cfg, o, BitVec.ofNat 8 (n % 256), BitVec.ofNat 8 (n / 256)]
    let frame (o : Opcode) : List Byte :=
      header (opcodeByte s.cfg o) payload.length ++ payload ++ [stopByte s.cfg]
    exec (.inGetLog payload) s = exec (.feed (frame .getLog)) s ∧
      exec (.inSetMotorLevels payload) s = exec (.feed (frame .setMotorLevels)) s ∧
      exec (.inResetState payload) s = exec (.feed (frame .resetState)) s ∧
      exec (.inGetState payload) s = exec (.feed (frame .getState)) s ∧
      exec (.inNack payload) s = exec (.feed (frame .nack)) s ∧
      exec (.inAck payload) s = exec (.feed (frame .ack)) s ∧
      exec (.inStart payload) s = exec (.feed (frame .start)) s ∧
      exec (.inStop payload) s = exec (.feed (frame .stop)) s ∧
      exec (.inInvalidBadLength opByte len tail) s = exec (.feed (header opByte len.toNat ++ tail)) s ∧
      exec (.inInvalidBadOpcode opByte len tail) s = exec (.feed (header opByte len.toNat ++ tail)) s ∧
      exec (.inInvalidBadTerminator op payload terminator) s =
        exec (.feed (header (opcodeByte s.cfg op) payload.length ++ payload ++ [terminator])) s

/-- Sections 3 and 4 of 41_resynchronizer.md: a legal frame that arrives in one batch behind an accumulator without a start
marker, with room in the accumulator and in the queue, is queued as (opcode byte, payload); the accumulator, the
opcode state and the counter are reset, and the one event is FRAME. -/
def Obligations.LegalFrameInOneBatchIsQueued : Prop :=
  ∀ (s : State) (payload : List Byte), s.blk.halted = false → payload.length ≤ 2048 →
    payload.length + 5 ≤ s.cfg.batchMax → s.blk.acc.length + (payload.length + 5) ≤ s.cfg.accCap →
    NoStart s.cfg s.blk.acc → s.blk.queue.length < 256 →
    let queued (op : Opcode) : Host.Outcome State Fault Refusal :=
      .next { s with
        blk := { acc := [], phase := .seekingStart, start := none, curOpcode := none, curLength := none,
                 lastStop := none, badCount := 0,
                 queue := s.blk.queue ++ [{ opcode := opcodeByte s.cfg op, payload := payload }], halted := false }
        resp := { status := .ok, result := .none, events := [.frame (opcodeByte s.cfg op) payload.length] } }
    exec (.inGetLog payload) s = queued .getLog ∧
      exec (.inSetMotorLevels payload) s = queued .setMotorLevels ∧
      exec (.inResetState payload) s = queued .resetState ∧
      exec (.inGetState payload) s = queued .getState ∧
      exec (.inNack payload) s = queued .nack ∧
      exec (.inAck payload) s = queued .ack ∧
      exec (.inStart payload) s = queued .start ∧
      exec (.inStop payload) s = queued .stop

/-- Section 3 of 30_encoding.md and sections 4 and 5 of 41_resynchronizer.md: a header whose length exceeds 2048, behind an
accumulator without a start marker, is a DESYNC with cause BAD_LENGTH and origin s+1, before anything else. Where no
further start marker stands from there on, the accumulator is cleared, the counter goes up, and nothing else changes.
Where the next one stands at j, exactly the j bytes before it are dropped, and the pass goes on: the outcome is that of
examining the bytes from j on with one more bad packet counted (an empty FEED to a block that holds them; what waits
then is FeedKeepsWaitingBytes of the empty batch). -/
def Obligations.BadLengthIsDesync : Prop :=
  ∀ (s : State) (opByte : Byte) (len : BitVec 16) (tail : List Byte), s.blk.halted = false →
    2048 < len.toNat →
    tail.length + 4 ≤ s.cfg.batchMax → s.blk.acc.length + (tail.length + 4) ≤ s.cfg.accCap →
    NoStart s.cfg s.blk.acc →
    let acc : List Byte := s.blk.acc ++ (startByte s.cfg :: opByte :: lengthLow len.toNat :: lengthHigh len.toNat :: tail)
    let origin : Nat := s.blk.acc.length + 1
    match firstStart s.cfg acc origin with
    | none =>
      exec (.inInvalidBadLength opByte len tail) s =
        .next { s with
          blk := seekingStartBlock s.cfg [] (bumped s.blk.badCount) s.blk.queue
          resp := { status := .ok, result := .none,
                    events := .desync .badLength origin acc.length :: persistentAt s.blk.badCount } }
    | some j =>
      ∃ u : State,
        exec (.feed []) { s with blk := { s.blk with acc := acc.drop j, badCount := bumped s.blk.badCount } } = .next u ∧
        exec (.inInvalidBadLength opByte len tail) s =
          .next { u with
            resp := { status := .ok, result := .none,
                      events := .desync .badLength origin j :: (persistentAt s.blk.badCount ++ u.resp.events) } }

/-- As above for an opcode byte that is not in RECOG, with a legal length: cause BAD_OPCODE. -/
def Obligations.BadOpcodeIsDesync : Prop :=
  ∀ (s : State) (opByte : Byte) (len : BitVec 16) (tail : List Byte), s.blk.halted = false →
    len.toNat ≤ 2048 → recognized s.cfg opByte = false →
    tail.length + 4 ≤ s.cfg.batchMax → s.blk.acc.length + (tail.length + 4) ≤ s.cfg.accCap →
    NoStart s.cfg s.blk.acc →
    let acc : List Byte := s.blk.acc ++ (startByte s.cfg :: opByte :: lengthLow len.toNat :: lengthHigh len.toNat :: tail)
    let origin : Nat := s.blk.acc.length + 1
    match firstStart s.cfg acc origin with
    | none =>
      exec (.inInvalidBadOpcode opByte len tail) s =
        .next { s with
          blk := seekingStartBlock s.cfg [] (bumped s.blk.badCount) s.blk.queue
          resp := { status := .ok, result := .none,
                    events := .desync .badOpcode origin acc.length :: persistentAt s.blk.badCount } }
    | some j =>
      ∃ u : State,
        exec (.feed []) { s with blk := { s.blk with acc := acc.drop j, badCount := bumped s.blk.badCount } } = .next u ∧
        exec (.inInvalidBadOpcode opByte len tail) s =
          .next { u with
            resp := { status := .ok, result := .none,
                      events := .desync .badOpcode origin j :: (persistentAt s.blk.badCount ++ u.resp.events) } }

/-- As above for a whole frame whose last byte is not `STOP_BYTE`: cause BAD_TERMINATOR. -/
def Obligations.BadTerminatorIsDesync : Prop :=
  ∀ (s : State) (op : Opcode) (payload : List Byte) (terminator : Byte), s.blk.halted = false →
    payload.length ≤ 2048 → terminator ≠ stopByte s.cfg →
    payload.length + 5 ≤ s.cfg.batchMax → s.blk.acc.length + (payload.length + 5) ≤ s.cfg.accCap →
    NoStart s.cfg s.blk.acc →
    let acc : List Byte := s.blk.acc ++ (startByte s.cfg :: opcodeByte s.cfg op ::
      lengthLow payload.length :: lengthHigh payload.length :: (payload ++ [terminator]))
    let origin : Nat := s.blk.acc.length + 1
    match firstStart s.cfg acc origin with
    | none =>
      exec (.inInvalidBadTerminator op payload terminator) s =
        .next { s with
          blk := seekingStartBlock s.cfg [] (bumped s.blk.badCount) s.blk.queue
          resp := { status := .ok, result := .none,
                    events := .desync .badTerminator origin acc.length :: persistentAt s.blk.badCount } }
    | some j =>
      ∃ u : State,
        exec (.feed []) { s with blk := { s.blk with acc := acc.drop j, badCount := bumped s.blk.badCount } } = .next u ∧
        exec (.inInvalidBadTerminator op payload terminator) s =
          .next { u with
            resp := { status := .ok, result := .none,
                      events := .desync .badTerminator origin j :: (persistentAt s.blk.badCount ++ u.resp.events) } }

/-! ### Properties of every FEED (41_resynchronizer.md section 7, 60_exceptions.md section 4) -/

/-- The order of events (60_exceptions.md section 4): the guard's DESYNC_EVENT first and at most once, then the pass's,
then at most one FRAME or FATAL_QUEUE_OVERFLOW; and a PERSISTENT_DESYNC comes right after a DESYNC_EVENT. -/
def Obligations.EventsComeInTheOrderOfTheActions : Prop :=
  ∀ (batch : List Byte) (s t : State), exec (.feed batch) s = .next t →
    (∃ guard passed last : List Event,
      t.resp.events = guard ++ passed ++ last ∧
      (guard = [] ∨ ∃ dropped : Nat, guard = .desync .overflow 0 dropped :: persistentAt s.blk.badCount) ∧
      (∀ e ∈ passed, (isDesync e = true ∧ isOverflow e = false) ∨ isPersistent e = true) ∧
      (last = [] ∨ ∃ (op : Byte) (len : Nat), last = [.frame op len] ∨ last = [.fatalQueueOverflow op len])) ∧
    t.resp.events[0]? ≠ some .persistentDesync ∧
    ∀ k : Nat, t.resp.events[k + 1]? = some .persistentDesync →
      ∃ (cause : DesyncCause) (origin dropped : Nat), t.resp.events[k]? = some (.desync cause origin dropped)

/-- Section 7 of 41_resynchronizer.md (the spec marks it derived): "At most one EMIT per FEED." A FRAME is the last event,
leaves the accumulator empty and the phase SEEKING_START, and its frame at the tail of the queue; a
FATAL_QUEUE_OVERFLOW is the last event and leaves the block halted. -/
def Obligations.AtMostOneEmitPerFeed : Prop :=
  ∀ (batch : List Byte) (s t : State), exec (.feed batch) s = .next t →
    t.resp.events.countP isEmit ≤ 1 ∧
    (∀ (op : Byte) (len : Nat), .frame op len ∈ t.resp.events →
      t.resp.events.getLast? = some (.frame op len) ∧ t.blk.acc = [] ∧ t.blk.phase = .seekingStart ∧
      t.blk.badCount = 0 ∧ t.blk.halted = false ∧
      ∃ e : Entry, e.opcode = op ∧ e.payload.length = len ∧ t.blk.queue = s.blk.queue ++ [e]) ∧
    (∀ (op : Byte) (len : Nat), .fatalQueueOverflow op len ∈ t.resp.events →
      t.resp.events.getLast? = some (.fatalQueueOverflow op len) ∧ t.blk.halted = true) ∧
    (t.resp.events.countP isFrame = 0 → t.blk.queue = s.blk.queue)

/-- Section 7 of 41_resynchronizer.md (the spec marks it derived): "A PASS therefore performs at most `m` DESYNCs and one
EMIT, where `m` is the number of `START_BYTE` bytes in `acc` after the append. The overflow guard adds at most one
further DESYNC"; each DESYNC of a rejected candidate removes at least one start marker. -/
def Obligations.DesyncsAreBoundedByStartMarkers : Prop :=
  (∀ (c : Config) (b : Block) (cause : DesyncCause) (st : Nat), classify c b.acc = .reject cause st →
    startCount c (desync c cause (st + 1) b).1.acc < startCount c b.acc) ∧
  ∀ (batch : List Byte) (s t : State), exec (.feed batch) s = .next t →
    t.resp.events.countP (fun e => isDesync e && !isOverflow e) ≤
      startCount s.cfg ((overflowGuard s.cfg batch s.blk).1.acc ++ batch) ∧
    t.resp.events.countP isOverflow ≤ 1 ∧
    t.resp.events.countP isEmit ≤ 1

/-- The counter (60_exceptions.md section 2, 41_resynchronizer.md section 4): in a performed FEED with the counter at 0 to
4, PERSISTENT_DESYNC is raised at every fifth consecutive DESYNC, the counter holds the remainder, and a FRAME sets
it to 0. -/
def Obligations.BadPacketsCountToFive : Prop :=
  ∀ (batch : List Byte) (s t : State), s.blk.badCount ≤ 4 → s.blk.halted = false →
    exec (.feed batch) s = .next t →
    let n := s.blk.badCount + t.resp.events.countP isDesync
    t.resp.events.countP isPersistent = n / 5 ∧
      t.blk.badCount = if t.resp.events.any isFrame then 0 else n % 5

/-- R108. Queue overflow: where a FEED raises FATAL_QUEUE_OVERFLOW, the queue was and stays full, the frame is not
queued, the block halts with its registers frozen on the frame that the accumulator still holds, no FRAME is raised,
the events raised before it stay in the list, and only RESET leaves the frozen state; and on a full queue EMIT does
exactly this. -/
def Obligations.QueueOverflowHaltsAndFreezes : Prop :=
  (∀ (c : Config) (st len : Nat) (op : Byte) (b : Block), b.queue.length = 256 →
    emit c st op len b =
      ({ b with halted := true, phase := .seekingBody, start := some st, curOpcode := some op, curLength := some len,
                lastStop := lastStop c b.acc }, [.fatalQueueOverflow op len])) ∧
  ∀ (batch : List Byte) (s t : State) (op : Byte) (len : Nat),
    exec (.feed batch) s = .next t → .fatalQueueOverflow op len ∈ t.resp.events →
    s.blk.queue.length = 256 ∧ t.blk.queue = s.blk.queue ∧
    t.blk.halted = true ∧ t.blk.phase = .seekingBody ∧ t.blk.curOpcode = some op ∧ t.blk.curLength = some len ∧
    t.blk.lastStop = lastStop s.cfg t.blk.acc ∧
    (∃ st : Nat, t.blk.start = some st ∧ classify s.cfg t.blk.acc = .accept st op len) ∧
    (s.blk.badCount ≤ 4 → t.blk.badCount = (s.blk.badCount + t.resp.events.countP isDesync) % 5) ∧
    (∃ earlier : List Event, t.resp.events = earlier ++ [.fatalQueueOverflow op len] ∧
      ∀ e ∈ earlier, isEmit e = false) ∧
    t.runFaulted = true ∧
    ∀ (i : Instr) (u : State), i ≠ .reset → exec i t = .next u → u.blk = t.blk

/-- The 257th frame (42_frame_queue.md section 1; the spec marks the property derived): a legal frame in one batch,
behind an accumulator without a start marker, halts a block whose queue is full, with FATAL_QUEUE_OVERFLOW as the one
event; every later FEED is refused, so the fatal path does not run again. -/
def Obligations.FrameOnFullQueueHalts : Prop :=
  ∀ (s : State) (op : Opcode) (payload : List Byte), s.blk.halted = false → payload.length ≤ 2048 →
    payload.length + 5 ≤ s.cfg.batchMax → s.blk.acc.length + (payload.length + 5) ≤ s.cfg.accCap →
    NoStart s.cfg s.blk.acc → s.blk.queue.length = 256 →
    let frame : List Byte := encode s.cfg (inboundRow op payload)
    ∃ t : State,
      t = { s with
        blk := { acc := s.blk.acc ++ frame, phase := .seekingBody, start := some s.blk.acc.length,
                 curOpcode := some (opcodeByte s.cfg op), curLength := some payload.length,
                 lastStop := some (s.blk.acc.length + (payload.length + 4)), badCount := s.blk.badCount,
                 queue := s.blk.queue, halted := true }
        resp := { status := .ok, result := .none,
                  events := [.fatalQueueOverflow (opcodeByte s.cfg op) payload.length] }
        runFaulted := true } ∧
      exec (inboundRow op payload) s = .next t ∧
      ∀ batch : List Byte, exec (.feed batch) t =
        .next { t with resp := { status := .refused .halted, result := .none, events := [] }, runRefused := true }

/-- Section 7 of 41_resynchronizer.md (the spec marks it derived): "Bytes after an emitted frame are lost." Whatever
follows a legal frame in its batch, the state that FEED leaves is the same. -/
def Obligations.BytesAfterAnEmittedFrameAreLost : Prop :=
  ∀ (s : State) (op : Opcode) (payload after : List Byte), s.blk.halted = false → payload.length ≤ 2048 →
    let frame : List Byte := encode s.cfg (inboundRow op payload)
    (frame ++ after).length ≤ s.cfg.batchMax → s.blk.acc.length + (frame ++ after).length ≤ s.cfg.accCap →
    NoStart s.cfg s.blk.acc → s.blk.queue.length < 256 →
    exec (.feed (frame ++ after)) s = exec (.feed frame) s

/-- The source's corruption recovery (41_resynchronizer.md section 7; the spec marks it derived): a frame with a legal
header and a wrong terminator, with no start marker behind its own, costs exactly one DESYNC_EVENT, and the legal
frame that follows it in the same batch is emitted. -/
def Obligations.CorruptFrameCostsOneDesync : Prop :=
  ∀ (s : State) (bad good : Opcode) (badPayload goodPayload : List Byte) (terminator : Byte),
    s.blk.halted = false → badPayload.length ≤ 2048 → goodPayload.length ≤ 2048 → terminator ≠ stopByte s.cfg →
    let corrupt : List Byte := encode s.cfg (.inInvalidBadTerminator bad badPayload terminator)
    let next : List Byte := encode s.cfg (inboundRow good goodPayload)
    NoStart s.cfg s.blk.acc → NoStart s.cfg corrupt.tail →
    (corrupt ++ next).length ≤ s.cfg.batchMax → s.blk.acc.length + (corrupt ++ next).length ≤ s.cfg.accCap →
    s.blk.queue.length < 256 →
    exec (.feed (corrupt ++ next)) s =
      .next { s with
        blk := seekingStartBlock s.cfg [] 0
          (s.blk.queue ++ [{ opcode := opcodeByte s.cfg good, payload := goodPayload }])
        resp :=
          { status := .ok
            result := .none
            events := .desync .badTerminator (s.blk.acc.length + 1) (s.blk.acc.length + corrupt.length) ::
              (persistentAt s.blk.badCount ++ [.frame (opcodeByte s.cfg good) goodPayload.length]) } }

/-- The source's resynchronization property (41_resynchronizer.md section 7, last bullet; the spec marks it derived): behind
garbage without a start marker, a legal frame that fits the accumulator is queued exactly once, however it is cut
into batches, whether or not the overflow guard fires while it arrives. -/
def Obligations.FrameIsQueuedHoweverItIsCut : Prop :=
  ∀ (s : State) (op : Opcode) (payload : List Byte) (batches : List (List Byte)),
    s.blk.halted = false → NoStart s.cfg s.blk.acc → payload.length ≤ 2048 →
    payload.length + 5 ≤ s.cfg.accCap → s.blk.queue.length < 256 →
    (∀ batch ∈ batches, batch.length ≤ s.cfg.batchMax) →
    batches.flatten = encode s.cfg (inboundRow op payload) →
    ∃ t : State, runFeeds s batches = .next t ∧
      t.blk = seekingStartBlock s.cfg [] 0
        (s.blk.queue ++ [{ opcode := opcodeByte s.cfg op, payload := payload }]) ∧
      t.runFaulted = s.runFaulted ∧ t.runRefused = s.runRefused

/-! ### The queue, HEALTH and RESET (42_frame_queue.md) -/

/-- R109. DEQUEUE: selected by 0b001, issued by the consumer only; refused when halted, `NONE` on an empty queue, and
otherwise the head, which it removes; it changes nothing else, and `frame_available` falls with the last entry. -/
def Obligations.DequeueTakesTheHead : Prop :=
  ∀ s : State,
    decodeCommand [1#8] = .ok .dequeue ∧
    (∀ a : Agent, mayIssue a .dequeue = true ↔ a = .consumer) ∧
    (s.blk.halted = true → exec .dequeue s =
      .next { s with resp := { status := .refused .halted, result := .none, events := [] }, runRefused := true }) ∧
    (s.blk.halted = false → s.blk.queue = [] → exec .dequeue s =
      .next { s with resp := { status := .ok, result := .none, events := [] } }) ∧
    ∀ (e : Entry) (rest : List Entry), s.blk.halted = false → s.blk.queue = e :: rest →
      exec .dequeue s =
        .next { s with blk := { s.blk with queue := rest }, resp := { status := .ok, result := .entry e, events := [] } } ∧
      (frameAvailable { s.blk with queue := rest } = true ↔ rest ≠ [])

/-- R112. HEALTH: selected by 0b010, issued by any agent, never refused, changes nothing but the response, and answers the
record of the state fields; in a state that meets the block's invariants no field is cut by its width. -/
def Obligations.HealthReportsTheFields : Prop :=
  ∀ s : State,
    decodeCommand [2#8] = .ok .health ∧
    (∀ a : Agent, mayIssue a .health = true) ∧
    ∃ h : HealthRecord,
      exec .health s = .next { s with resp := { status := .ok, result := .health h, events := [] } } ∧
      h.phase = (match s.blk.phase with | .seekingStart => 0#2 | .seekingHeader => 1#2 | .seekingBody => 2#2) ∧
      h.halted = s.blk.halted ∧ h.frameAvailable = !s.blk.queue.isEmpty ∧ h.accLen = s.blk.acc.length ∧
      h.start = s.blk.start ∧ h.lastStop = s.blk.lastStop ∧ h.curOpcode = s.blk.curOpcode ∧
      h.word = statusWord s.blk ∧
      (Block.Inv s.cfg s.blk →
        h.badCount.toNat = s.blk.badCount ∧ h.queueCount.toNat = s.blk.queue.length ∧
          h.curLength.map (·.toNat) = s.blk.curLength)

/-- R37. The packed status word: each field in its bits, the reserved bits 0, and the word is the sum the rule gives. -/
def Obligations.StatusWordPacksTheFields : Prop :=
  ∀ b : Block,
    (statusWord b).extractLsb' 0 2 = phaseCode b.phase ∧
    (statusWord b).extractLsb' 2 3 = BitVec.ofNat 3 b.badCount ∧
    (statusWord b).getLsbD 5 = b.halted ∧
    (statusWord b).getLsbD 6 = !b.queue.isEmpty ∧
    (statusWord b).getLsbD 7 = false ∧
    (statusWord b).extractLsb' 8 9 = BitVec.ofNat 9 b.queue.length ∧
    (statusWord b).extractLsb' 17 15 = 0#15 ∧
    phaseCode b.phase ≠ 3#2 ∧
    (b.badCount ≤ 4 → b.queue.length ≤ 256 →
      (statusWord b).toNat = (phaseCode b.phase).toNat + 4 * b.badCount + 32 * b.halted.toNat +
        64 * (!b.queue.isEmpty).toNat + 256 * b.queue.length)

/-- R113. RESET: selected by 0b011, issued by the host only, never refused, halted or not; every field of the block takes
its reset value; nothing else changes but the response, and RESET twice is RESET once; no other instruction leaves
`halted`. -/
def Obligations.ResetReturnsTheBlockToItsResetValues : Prop :=
  ∀ s : State,
    decodeCommand [3#8] = .ok .reset ∧
    (∀ a : Agent, mayIssue a .reset = true ↔ a = .host) ∧
    ∃ t : State,
      t = { s with
        blk := { acc := [], phase := .seekingStart, start := none, curOpcode := none, curLength := none,
                 lastStop := none, badCount := 0, queue := [], halted := false }
        resp := { status := .ok, result := .none, events := [] } } ∧
      exec .reset s = .next t ∧ exec .reset t = .next t ∧
      ∀ (i : Instr) (u : State), s.blk.halted = true → i ≠ .reset → exec i s = .next u → u.blk.halted = true

/-- R140. The reset state, at power-on and after RESET: every field at its reset value, the status word 0, and the
registers those of `settle([])`, so that the invariants of R39 hold. -/
def Obligations.ResetStateHoldsTheResetValues : Prop :=
  State.reset.blk = { acc := [], phase := .seekingStart, start := none, curOpcode := none, curLength := none,
                      lastStop := none, badCount := 0, queue := [], halted := false } ∧
    statusWord State.reset.blk = 0#32 ∧
    (∀ s : State, ∃ t : State, exec .reset s = .next t ∧ t.blk = State.reset.blk) ∧
    ∀ c : Config, isWait (classify c []) = true ∧ settle c State.reset.blk = State.reset.blk ∧
      Block.Inv c State.reset.blk

/-- Sections 1 and 2 of 42_frame_queue.md, over all instructions: the queue changes only by RESET, which empties it, by
DEQUEUE, which removes the head, and by an EMIT, which appends the frame its FRAME event names. -/
def Obligations.QueueChangesOnlyByEmitDequeueReset : Prop :=
  ∀ (i : Instr) (s t : State), exec i s = .next t →
    if i = .reset then t.blk.queue = []
    else if i = .dequeue then t.blk.queue = if s.blk.halted then s.blk.queue else s.blk.queue.tail
    else if t.resp.events.any isFrame then
      ∃ e : Entry, t.blk.queue = s.blk.queue ++ [e] ∧ .frame e.opcode e.payload.length ∈ t.resp.events
    else t.blk.queue = s.blk.queue

/-- Sections 1 and 4 of 42_frame_queue.md, over all instructions: only FATAL_QUEUE_OVERFLOW halts a block, and only RESET
changes a halted one. -/
def Obligations.OnlyOverflowHaltsAndOnlyResetResumes : Prop :=
  ∀ (i : Instr) (s t : State), exec i s = .next t →
    (s.blk.halted = false → t.blk.halted = true →
      ∃ (op : Byte) (len : Nat), .fatalQueueOverflow op len ∈ t.resp.events) ∧
    (s.blk.halted = true → i ≠ .reset → t.blk = s.blk) ∧
    (i = .reset → t.blk.halted = false)

/-- The end of a run (70_reset_and_hazards.md section 2; the marks as state are the model's, assumption 6): an
operation adds to a run's marks exactly what it raised or was refused, and nothing clears them. -/
def Obligations.RunMarksRecordFaultsAndRefusals : Prop :=
  ∀ (i : Instr) (s t : State), exec i s = .next t →
    t.runFaulted = (s.runFaulted || t.resp.events.any isFatal) ∧
    t.runRefused = (s.runRefused || decide (t.resp.status ≠ .ok)) ∧
    (t.resp.status ≠ .ok → t.blk = s.blk ∧ t.resp.events = [] ∧ t.resp.result = .none)

/-! ### Telemetry (43_telemetry_layout.md) -/

/-- R116. TELEMETRY answers `NONE` exactly for payloads shorter than 29 bytes, otherwise the fifteen fields at their
offsets, and ignores the bytes from offset 29 on. Each field is assembled from its bytes low byte first, signed ones in
two's complement (section 1 of 43_telemetry_layout.md). -/
def Obligations.TelemetryReadsFieldsAtTheirOffsets : Prop :=
  (∀ p : List Byte, telemetry p = none ↔ p.length < 29) ∧
  (∀ p extra : List Byte, 29 ≤ p.length → telemetry (p ++ extra) = telemetry p) ∧
  ∀ (p : List Byte) (t : Telemetry), telemetry p = some t →
    let u8 (k : Nat) : Nat := (p.getD k 0).toNat
    let u16 (k : Nat) : Nat := u8 k + 256 * u8 (k + 1)
    let u32 (k : Nat) : Nat := u8 k + 256 * u8 (k + 1) + 65536 * u8 (k + 2) + 16777216 * u8 (k + 3)
    let s16 (k : Nat) : Int := if 32768 ≤ u16 k then (u16 k : Int) - 65536 else u16 k
    let s32 (k : Nat) : Int := if 2147483648 ≤ u32 k then (u32 k : Int) - 4294967296 else u32 k
    t.ctrlLeft = u8 0 ∧ t.ctrlRight = u8 1 ∧ t.faultLeft = u8 2 ∧ t.faultRight = u8 3 ∧
    t.encoderLeft = s32 4 ∧ t.encoderRight = s32 8 ∧ t.batteryMv = s16 12 ∧
    t.safetyStatus = u8 14 ∧ t.temperature = s16 15 ∧ t.stateOfHealth = u8 17 ∧
    t.flags = s16 18 ∧ t.chargerDetails = s32 20 ∧ t.wirelessAttached = u8 24 ∧
    t.usbChargerMv = s16 25 ∧ t.wirelessVrectMv = s16 27

/-- Section 2 of 43_telemetry_layout.md (the spec marks it derived): field values in range, written little-endian at their
offsets, make a 29-byte payload that gives those values back. -/
def Obligations.TelemetryRoundTrip : Prop :=
  ∀ t : Telemetry,
    (∀ v ∈ [t.ctrlLeft, t.ctrlRight, t.faultLeft, t.faultRight, t.safetyStatus, t.stateOfHealth, t.wirelessAttached],
      v ≤ 255) →
    (∀ v ∈ [t.batteryMv, t.temperature, t.flags, t.usbChargerMv, t.wirelessVrectMv], -32768 ≤ v ∧ v ≤ 32767) →
    (∀ v ∈ [t.encoderLeft, t.encoderRight, t.chargerDetails], -2147483648 ≤ v ∧ v ≤ 2147483647) →
    (telemetryBytes t).length = 29 ∧ telemetry (telemetryBytes t) = some t

/-- The source's end-to-end scenario (95_test_vectors.md section 1.7), on the block: a GET_STATE frame whose payload carries
a telemetry record is queued, the next DEQUEUE on the queue that was empty returns it, and the layout function
reads the record's encoder counts and every other field back. -/
def Obligations.TelemetryFrameArrivesEndToEnd : Prop :=
  ∀ (s : State) (r : Telemetry), s.blk.halted = false → s.blk.queue = [] → NoStart s.cfg s.blk.acc →
    34 ≤ s.cfg.batchMax → s.blk.acc.length + 34 ≤ s.cfg.accCap →
    telemetry (telemetryBytes r) = some r →
    ∃ (t u : State) (e : Entry),
      exec (.inGetState (telemetryBytes r)) s = .next t ∧ exec .dequeue t = .next u ∧
      u.resp = { status := .ok, result := .entry e, events := [] } ∧
      e.opcode = opcodeByte s.cfg .getState ∧ telemetry e.payload = some r ∧ u.blk.queue = []

/-! ### Encodings (30_encoding.md) -/

/-- On the command port (the layout of the arguments is the model's choice, assumption 2): every operation, with every
operand at every value, decodes from its encoding, whatever padding follows; and whatever `PLATFORM_MAP` is, bytes that
it takes to that request are fetched as the operation, the request itself where it hands requests over unchanged. -/
def Obligations.CommandDecodeOfEncode : Prop :=
  ∀ (c : Config) (i : Instr) (padding : List Byte), channelOf i = .command →
    decodeCommand (encode c i ++ padding) = .ok i ∧
      (∀ bytes : List Byte, commandRequest c bytes = encode c i ++ padding → fetchInstr c .command bytes = .ok i) ∧
      (c.platformMap = none → fetchInstr c .command (encode c i ++ padding) = .ok i)

/-- On the wires (30_encoding.md sections 2 and 3): under legal parameters every well-formed frame row decodes from its
bytes, by the strict decoder of its channel and by the fetch. -/
def Obligations.WireDecodeOfEncode : Prop :=
  ∀ (c : Config) (i : Instr), c.Legal → i.wf c = true → channelOf i ≠ .command →
    decodeOn c (channelOf i) (encode c i) = .ok i ∧ fetchInstr c (channelOf i) (encode c i) = .ok i

/-- On the wires, the other direction: bytes that a wire decoder accepts have one meaning, a well-formed row of that
channel whose encoding they are. -/
def Obligations.WireEncodeOfDecode : Prop :=
  ∀ (c : Config) (channel : Channel) (bytes : List Byte) (i : Instr), channel ≠ .command →
    decodeOn c channel bytes = .ok i → i.wf c = true ∧ channelOf i = channel ∧ encode c i = bytes

/-- Words written out from the encoding tables of 30_encoding.md (selector codes of section 4, frames of sections 2 and 3
under any legal opcode bytes) decode to the instructions they stand for. The layout of arguments behind a selector
(assumption 2) and the numbering of a table word's bits on the command port (assumption 18) are the model's choice. -/
def Obligations.WrittenOutWordsDecode : Prop :=
  decodeTableWord 8 0b00000001 = some .dequeue ∧
    decodeTableWord 8 0b00000010 = some .health ∧
    decodeTableWord 8 0b00000011 = some .reset ∧
    decodeTableWord 32 0x7A790104 = some (.encode .setMotorLevels 0x79 0x7A) ∧
    decodeTableWord 16 0x0305 = some (.encodeParamless .getState) ∧
    decodeCommand [0x00, 0x02, 0xAA, 0x55] = .ok (.feed [0xAA, 0x55]) ∧
    decodeCommand [0x07, 0x01, 0x01, 0x01, 0x00] = .ok (.quantize (-1 / 2) false) ∧
    ∀ c : Config, c.Legal →
      decodeOutbound c [startByte c, opcodeByte c .setMotorLevels, 0x79, 0x7A, stopByte c] =
          .ok (.outSetMotorLevels 0x79 0x7A) ∧
        decodeInbound c [startByte c, opcodeByte c .getState, 0x01, 0x00, 0x7E, stopByte c] = .ok (.inGetState [0x7E]) ∧
        decodeInbound c [startByte c, opcodeByte c .getState, 0x01, 0x08] =
          .ok (.inInvalidBadLength (opcodeByte c .getState) 0x0801 [])

/-! ### The step (20_memory.md section 5; assumption 3) -/

/-- A step takes the first request off the list and runs the instruction its bytes decode to; with no request nothing
changes (the list of requests is the model's choice, assumption 3); bytes that are no operation are rejected by name (the
model's choice too, assumption 12: the spec gives no such move). -/
def Obligations.StepRunsTheDecodedInstruction : Prop :=
  ∀ s : State,
    (s.requests = [] → step s = .next s) ∧
    ∀ (r : Request) (later : List Request), s.requests = r :: later →
      (∀ i : Instr, fetchInstr s.cfg r.channel r.bytes = .ok i → step s = exec i { s with requests := later }) ∧
      ∀ e : DecodeError, fetchInstr s.cfg r.channel r.bytes = .error e → step s = .refused (.malformedRequest e)

/-- Bytes on the inbound wire are one received batch (41_resynchronizer.md section 6): whatever they are, the step is the
FEED of exactly those bytes. -/
def Obligations.InboundBytesAreFed : Prop :=
  ∀ (s : State) (agent : Agent) (bytes : List Byte) (later : List Request),
    s.requests = { agent := agent, channel := .inbound, bytes := bytes } :: later →
    step s = exec (.feed bytes) { s with requests := later }

/-- No operation of the block can hang or stop the machine (20_memory.md section 6; the spec marks it derived): in a state
whose requests the agents can make, the step answers a next state, with the parameters as they were and one
request fewer. -/
def Obligations.StepAlwaysGoesOn : Prop :=
  ∀ s : State, (∀ r ∈ s.requests, requestWf s.cfg r = true) →
    ∃ t : State, step s = .next t ∧ t.cfg = s.cfg ∧ t.requests = s.requests.tail

/-- Which agent may issue which operation: the table of 60_exceptions.md section 6. -/
def Obligations.AgentsIssueTheirOwnOperations : Prop :=
  (∀ (a : Agent) (batch : List Byte), mayIssue a (.feed batch) = true ↔ a = .inbound) ∧
    (∀ a : Agent, mayIssue a .dequeue = true ↔ a = .consumer) ∧
    (∀ a : Agent, mayIssue a .reset = true ↔ a = .host) ∧
    (∀ a : Agent, mayIssue a .health = true) ∧
    (∀ (a : Agent) (i : Instr), channelOf i = .inbound → (mayIssue a i = true ↔ a = .inbound)) ∧
    (∀ (a : Agent) (i : Instr), channelOf i = .outbound → mayIssue a i = true) ∧
    ∀ (a : Agent) (op : Opcode) (p0 p1 : Byte) (x y : Rat) (bl br : Bool),
      mayIssue a (.encode op p0 p1) = true ∧ mayIssue a (.encodeParamless op) = true ∧
        mayIssue a (.encodeMotor op x y bl br) = true ∧ mayIssue a (.quantize x bl) = true

/-! ### The invariant (10_state.md section 6) -/

/-- The invariants of 10_state.md section 6 (the spec marks them derived), with the frozen state of the halt, the legal
parameters and the agents' requests: every step from a state that meets them leads to a state that meets them. -/
def Obligations.StepKeepsTheInvariants : Prop :=
  ∀ s t : State, State.Inv s → step s = .next t → State.Inv t

/-- The reset state meets the invariants of 10_state.md section 6. -/
def Obligations.ResetStateMeetsTheInvariants : Prop := State.Inv State.reset
end

