-- ==== Sys2Proof/Laws/Bytes.lean ====
section
/-!
SUPPORT. Lemmas about operand bytes: the opcode bytes of a configuration, the length field, the platform's legal
parameters, and reading back what the command port's writers write.
-/
namespace Sys2Proof.Machine
open Sys2Proof

/-! ### The command port -/

@[simp] theorem commandRequest_of_none {c : Config} (h : c.platformMap = none) (bytes : List Byte) :
    commandRequest c bytes = bytes := by simp [commandRequest, h]

theorem fetchInstr_command (c : Config) (bytes : List Byte) :
    fetchInstr c .command bytes = decodeCommand (commandRequest c bytes) := rfl

/-! ### Opcode bytes -/

theorem mem_allOpcodes (o : Opcode) : o ∈ allOpcodes := by cases o <;> decide

@[simp] theorem opcodeOfIndex_opcodeIndex (o : Opcode) : opcodeOfIndex (opcodeIndex o) = o := by cases o <;> rfl

theorem opcodeIndex_injective : Function.Injective opcodeIndex :=
  Function.LeftInverse.injective opcodeOfIndex_opcodeIndex

theorem opcodeByte_injective {c : Config} (h : c.opcodeBytes.toList.Nodup) : Function.Injective (opcodeByte c) := by
  intro o p hop
  apply opcodeIndex_injective
  have := (List.Nodup.getElem_inj_iff h (i := (opcodeIndex o).val) (j := (opcodeIndex p).val)
    (hi := by simp) (hj := by simp)).1 (by simpa [opcodeByte] using hop)
  exact Fin.ext this

theorem startByte_ne_stopByte {c : Config} (h : c.opcodeBytes.toList.Nodup) : startByte c ≠ stopByte c := by
  intro e
  have := opcodeByte_injective h e
  cases this

theorem recognized_iff {c : Config} {b : Byte} : recognized c b = true ↔ ∃ o, opcodeByte c o = b := by
  simp only [recognized, List.any_eq_true, beq_iff_eq]
  exact ⟨fun ⟨o, _, h⟩ => ⟨o, h⟩, fun ⟨o, h⟩ => ⟨o, mem_allOpcodes o, h⟩⟩

@[simp] theorem recognized_opcodeByte (c : Config) (o : Opcode) : recognized c (opcodeByte c o) = true :=
  recognized_iff.2 ⟨o, rfl⟩

theorem opcodeByte_of_opcodeOfByte {c : Config} {b : Byte} {o : Opcode} (h : opcodeOfByte c b = some o) :
    opcodeByte c o = b := by
  simpa using List.find?_some h

theorem opcodeOfByte_eq_none {c : Config} {b : Byte} : opcodeOfByte c b = none ↔ recognized c b = false := by
  simp [opcodeOfByte, recognized, List.find?_eq_none]

theorem opcodeOfByte_opcodeByte {c : Config} (h : c.opcodeBytes.toList.Nodup) (o : Opcode) :
    opcodeOfByte c (opcodeByte c o) = some o := by
  cases hp : opcodeOfByte c (opcodeByte c o) with
  | none => simp [opcodeOfByte_eq_none] at hp
  | some p => rw [opcodeByte_injective h (opcodeByte_of_opcodeOfByte hp)]

/-! ### The length field -/

theorem u16le_lengthBytes {n : Nat} (h : n < 65536) : u16le (lengthLow n) (lengthHigh n) = n := by
  simp only [u16le, lengthLow, lengthHigh, BitVec.toNat_ofNat]
  omega

theorem u16le_lt (lo hi : Byte) : u16le lo hi < 65536 := by
  simp only [u16le]; omega

theorem lengthBytes_append (len : BitVec 16) : lengthHigh len.toNat ++ lengthLow len.toNat = len := by
  apply BitVec.eq_of_toNat_eq
  simp only [BitVec.toNat_append, lengthHigh, lengthLow, BitVec.toNat_ofNat]
  rw [Nat.shiftLeft_eq, ← Nat.shiftLeft_eq, ← Nat.shiftLeft_add_eq_or_of_lt (by omega), Nat.shiftLeft_eq]
  omega

/-! ### The platform -/

theorem platform_legal : Config.platform.Legal := by
  refine ⟨?_, by simp [Config.platform], by simp [Config.platform], ?_, by simp [Config.platform]⟩
  · simp only [Config.platform, Vector.toList_ofFn]
    rw [List.nodup_ofFn]
    intro i j h
    have h1 := Config.byteOrder.injective (BitVec.ofFin.inj h)
    exact Fin.ext (by simpa using h1)
  · exact Nat.mod_lt Config.batchChoice (Nat.succ_pos Config.accCapLessOne)

end Sys2Proof.Machine

namespace Sys2Proof
open Machine

theorem readNat_natBytesUpTo (rest : List Byte) (k : Nat) : ∀ n, n ≤ k →
    readNat (natBytesUpTo k n ++ rest) = some (n, rest) := by
  induction k with
  | zero => intro n h; obtain rfl : n = 0 := by omega
            simp [natBytesUpTo, readNat]
  | succ k ih =>
    intro n h
    simp only [natBytesUpTo]
    split
    · simp only [List.cons_append, List.nil_append, readNat, BitVec.toNat_ofNat]
      rw [Nat.mod_eq_of_lt (by omega : n < 2 ^ 8)]
      simp [*]
    · rename_i hn
      simp only [List.cons_append, readNat, BitVec.toNat_ofNat]
      rw [Nat.mod_eq_of_lt (by omega : 128 + n % 128 < 2 ^ 8), if_neg (by omega), ih _ (by omega)]
      simp only [Option.map_some, Option.some.injEq, Prod.mk.injEq, and_true]
      omega

theorem readNat_natBytes (n : Nat) (rest : List Byte) : readNat (natBytes n ++ rest) = some (n, rest) :=
  readNat_natBytesUpTo rest n n (le_refl n)

theorem readRat_ratBytes (x : Rat) (rest : List Byte) : readRat (ratBytes x ++ rest) = some (x, rest) := by
  have hd : x.den - 1 + 1 = x.den := Nat.succ_pred_eq_of_pos x.den_pos
  have hx : mkRat x.num x.den = x := Rat.mkRat_self x
  unfold ratBytes readRat
  simp only [List.cons_append, List.append_assoc, readNat_natBytes, Option.bind_some, Option.map_some, hd]
  split
  · have h : -(x.num.natAbs : Int) = x.num := by omega
    simp only [show (1#8).getLsbD 0 = true from rfl, if_true, h, hx]
  · have h : (x.num.natAbs : Int) = x.num := by omega
    simp only [show (0#8).getLsbD 0 = false from rfl, Bool.false_eq_true, if_false, h, hx]

end Sys2Proof
end

