-- ==== Sys2Proof/Laws/Quantizer.lean ====
section
/-!
SUPPORT. What the steps of the quantizer give: the voltage by cases of the input, its size, the two parts of a control byte,
and what the parameter `Q_BOUNDARY` can answer.
-/
namespace Sys2Proof.Machine

/-- A control byte gives its magnitude and its direction bits back (30_encoding.md rule R61). -/
theorem controlByte_fields (n : Nat) (d : BitVec 2) (h : n ≤ 63) :
    controlMagnitude (controlByte n d) = BitVec.ofNat 6 n ∧ controlDirection (controlByte n d) = d ∧
      (controlByte n d).toNat = 4 * n + d.toNat := by
  interval_cases n <;> revert d <;> decide

/-- Steps 1 to 3 of 40_frame_encoder.md rule R76, by cases of the input. -/
theorem motorVoltage_cases (x : Rat) :
    motorVoltage x =
      if |x| ≤ 49 / 506 then 0
      else if 1 < x then -(253 / 50)
      else if x < -1 then 253 / 50
      else -x * (253 / 50) := by
  have h1 : |(-x * vScale)| = |x| * (253 / 50) := by rw [abs_mul, abs_neg]; norm_num [vScale]
  have e : |x| * (253 / 50) ≤ 49 / 100 ↔ |x| ≤ 49 / 506 := by constructor <;> intro h <;> linarith
  unfold motorVoltage deadZonedVoltage clamp
  simp only [h1, vDead, vClamp, vScale, e]
  by_cases h : |x| ≤ 49 / 506
  · simp only [h, if_true]; norm_num
  · simp only [h, if_false]
    split
    · rw [max_eq_left (by linarith)]; norm_num
    · split
      · rw [max_eq_right (by linarith), min_eq_left (by linarith)]
      · rw [max_eq_right (by linarith), min_eq_right (by linarith)]

/-- Outside the dead zone the voltage's size is that of the clamped input. -/
theorem abs_motorVoltage (x : Rat) (h : ¬ |x| ≤ 49 / 506) : |motorVoltage x| = min |x| 1 * (253 / 50) := by
  rw [motorVoltage_cases, if_neg h]
  split
  · rw [abs_of_pos (by linarith : 0 < x), min_eq_right (by linarith)]; norm_num
  · split
    · rw [abs_of_neg (by linarith : x < 0), min_eq_right (by linarith)]; norm_num
    · rw [abs_mul, abs_neg, min_eq_left (by rw [abs_le]; constructor <;> linarith)]; norm_num

/-- The voltage is zero exactly in the dead zone. -/
theorem motorVoltage_eq_zero (x : Rat) : motorVoltage x = 0 ↔ |x| ≤ 49 / 506 := by
  constructor
  · intro h
    by_contra hn
    have ha := abs_motorVoltage x hn
    rw [h, abs_zero] at ha
    have hm : 0 < min |x| 1 := lt_min (by push Not at hn; linarith) (by norm_num)
    linarith
  · intro h; rw [motorVoltage_cases, if_pos h]

/-! ### The parameter `Q_BOUNDARY` -/

@[simp] theorem boundaryByte_of_none {c : Config} (h : c.qBoundary = none) (x : Rat) (brake : Bool) :
    boundaryByte c x brake = none := by simp [boundaryByte, h]

/-- A known value is the one answered. -/
theorem boundaryByte_of_known {c : Config} {q : QBoundary} {x : Rat} {brake : Bool} {e : QBoundaryEntry}
    (hq : c.qBoundary = some q) (he : q.entries.find? (fun e => e.x == x && e.brake == brake) = some e) :
    boundaryByte c x brake = some e.byte := by simp [boundaryByte, hq, he]

/-- The function of a `Q_BOUNDARY` gives only values that 00_scope.md rule R8 allows. -/
theorem functionByte_legal {q : QBoundary} {x : Rat} {brake : Bool} {b : Byte} (h : functionByte q x brake = some b) :
    boundaryEntryLegal q.distance ⟨x, brake, b⟩ = true := by
  simp only [functionByte] at h
  split at h
  · split at h
    · cases h; assumption
    · cases h
  · cases h

/-- Under legal parameters every value of `Q_BOUNDARY`, known or of its function, is one that R8 allows. -/
theorem boundaryByte_legal {c : Config} {q : QBoundary} {x : Rat} {brake : Bool} {b : Byte} (hc : c.Legal)
    (hq : c.qBoundary = some q) (h : boundaryByte c x brake = some b) :
    boundaryEntryLegal q.distance ⟨x, brake, b⟩ = true := by
  simp only [boundaryByte, hq] at h
  split at h
  · rename_i e he
    have hm := List.mem_of_find?_eq_some he
    have hp := List.find?_some he
    simp only [Bool.and_eq_true, beq_iff_eq] at hp
    obtain ⟨rfl, rfl⟩ := hp
    cases h
    have hl := hc.2.2.2.2
    simp only [hq, QBoundary.legal, Bool.and_eq_true, List.all_eq_true] at hl
    exact hl.2 e hm
  · exact functionByte_legal h

end Sys2Proof.Machine
end

