-- ==== Sys2Proof/Laws/State.lean ====
section
/-!
SUPPORT. What each named update leaves in each field, one lemma per field per update, so that no later proof unfolds a
record update.
-/
namespace Sys2Proof.Machine

@[simp] theorem accAppend_acc (bs : List Byte) (b : Block) :
    (accAppend bs b).acc = b.acc ++ bs := rfl
@[simp] theorem accAppend_phase (bs : List Byte) (b : Block) :
    (accAppend bs b).phase = b.phase := rfl
@[simp] theorem accAppend_start (bs : List Byte) (b : Block) :
    (accAppend bs b).start = b.start := rfl
@[simp] theorem accAppend_curOpcode (bs : List Byte) (b : Block) :
    (accAppend bs b).curOpcode = b.curOpcode := rfl
@[simp] theorem accAppend_curLength (bs : List Byte) (b : Block) :
    (accAppend bs b).curLength = b.curLength := rfl
@[simp] theorem accAppend_lastStop (bs : List Byte) (b : Block) :
    (accAppend bs b).lastStop = b.lastStop := rfl
@[simp] theorem accAppend_badCount (bs : List Byte) (b : Block) :
    (accAppend bs b).badCount = b.badCount := rfl
@[simp] theorem accAppend_queue (bs : List Byte) (b : Block) :
    (accAppend bs b).queue = b.queue := rfl
@[simp] theorem accAppend_halted (bs : List Byte) (b : Block) :
    (accAppend bs b).halted = b.halted := rfl

@[simp] theorem accDropPrefix_acc (j : Nat) (b : Block) :
    (accDropPrefix j b).acc = b.acc.drop j := rfl
@[simp] theorem accDropPrefix_phase (j : Nat) (b : Block) :
    (accDropPrefix j b).phase = b.phase := rfl
@[simp] theorem accDropPrefix_start (j : Nat) (b : Block) :
    (accDropPrefix j b).start = b.start := rfl
@[simp] theorem accDropPrefix_curOpcode (j : Nat) (b : Block) :
    (accDropPrefix j b).curOpcode = b.curOpcode := rfl
@[simp] theorem accDropPrefix_curLength (j : Nat) (b : Block) :
    (accDropPrefix j b).curLength = b.curLength := rfl
@[simp] theorem accDropPrefix_lastStop (j : Nat) (b : Block) :
    (accDropPrefix j b).lastStop = b.lastStop := rfl
@[simp] theorem accDropPrefix_badCount (j : Nat) (b : Block) :
    (accDropPrefix j b).badCount = b.badCount := rfl
@[simp] theorem accDropPrefix_queue (j : Nat) (b : Block) :
    (accDropPrefix j b).queue = b.queue := rfl
@[simp] theorem accDropPrefix_halted (j : Nat) (b : Block) :
    (accDropPrefix j b).halted = b.halted := rfl

@[simp] theorem accClear_acc (b : Block) :
    (accClear b).acc = [] := rfl
@[simp] theorem accClear_phase (b : Block) :
    (accClear b).phase = b.phase := rfl
@[simp] theorem accClear_start (b : Block) :
    (accClear b).start = b.start := rfl
@[simp] theorem accClear_curOpcode (b : Block) :
    (accClear b).curOpcode = b.curOpcode := rfl
@[simp] theorem accClear_curLength (b : Block) :
    (accClear b).curLength = b.curLength := rfl
@[simp] theorem accClear_lastStop (b : Block) :
    (accClear b).lastStop = b.lastStop := rfl
@[simp] theorem accClear_badCount (b : Block) :
    (accClear b).badCount = b.badCount := rfl
@[simp] theorem accClear_queue (b : Block) :
    (accClear b).queue = b.queue := rfl
@[simp] theorem accClear_halted (b : Block) :
    (accClear b).halted = b.halted := rfl

@[simp] theorem qPush_acc (e : Entry) (b : Block) :
    (qPush e b).acc = b.acc := rfl
@[simp] theorem qPush_phase (e : Entry) (b : Block) :
    (qPush e b).phase = b.phase := rfl
@[simp] theorem qPush_start (e : Entry) (b : Block) :
    (qPush e b).start = b.start := rfl
@[simp] theorem qPush_curOpcode (e : Entry) (b : Block) :
    (qPush e b).curOpcode = b.curOpcode := rfl
@[simp] theorem qPush_curLength (e : Entry) (b : Block) :
    (qPush e b).curLength = b.curLength := rfl
@[simp] theorem qPush_lastStop (e : Entry) (b : Block) :
    (qPush e b).lastStop = b.lastStop := rfl
@[simp] theorem qPush_badCount (e : Entry) (b : Block) :
    (qPush e b).badCount = b.badCount := rfl
@[simp] theorem qPush_queue (e : Entry) (b : Block) :
    (qPush e b).queue = b.queue ++ [e] := rfl
@[simp] theorem qPush_halted (e : Entry) (b : Block) :
    (qPush e b).halted = b.halted := rfl

@[simp] theorem haltOnOverflow_acc (c : Config) (s : Nat) (op : Byte) (len : Nat) (b : Block) :
    (haltOnOverflow c s op len b).acc = b.acc := rfl
@[simp] theorem haltOnOverflow_phase (c : Config) (s : Nat) (op : Byte) (len : Nat) (b : Block) :
    (haltOnOverflow c s op len b).phase = .seekingBody := rfl
@[simp] theorem haltOnOverflow_start (c : Config) (s : Nat) (op : Byte) (len : Nat) (b : Block) :
    (haltOnOverflow c s op len b).start = some s := rfl
@[simp] theorem haltOnOverflow_curOpcode (c : Config) (s : Nat) (op : Byte) (len : Nat) (b : Block) :
    (haltOnOverflow c s op len b).curOpcode = some op := rfl
@[simp] theorem haltOnOverflow_curLength (c : Config) (s : Nat) (op : Byte) (len : Nat) (b : Block) :
    (haltOnOverflow c s op len b).curLength = some len := rfl
@[simp] theorem haltOnOverflow_lastStop (c : Config) (s : Nat) (op : Byte) (len : Nat) (b : Block) :
    (haltOnOverflow c s op len b).lastStop = lastStop c b.acc := rfl
@[simp] theorem haltOnOverflow_badCount (c : Config) (s : Nat) (op : Byte) (len : Nat) (b : Block) :
    (haltOnOverflow c s op len b).badCount = b.badCount := rfl
@[simp] theorem haltOnOverflow_queue (c : Config) (s : Nat) (op : Byte) (len : Nat) (b : Block) :
    (haltOnOverflow c s op len b).queue = b.queue := rfl
@[simp] theorem haltOnOverflow_halted (c : Config) (s : Nat) (op : Byte) (len : Nat) (b : Block) :
    (haltOnOverflow c s op len b).halted = true := rfl

@[simp] theorem finish_blk (s : State) (b : Block) (r : Response) :
    (finish s b r).blk = b := rfl
@[simp] theorem finish_cfg (s : State) (b : Block) (r : Response) :
    (finish s b r).cfg = s.cfg := rfl
@[simp] theorem finish_requests (s : State) (b : Block) (r : Response) :
    (finish s b r).requests = s.requests := rfl
@[simp] theorem finish_resp (s : State) (b : Block) (r : Response) :
    (finish s b r).resp = r := rfl
@[simp] theorem finish_runFaulted (s : State) (b : Block) (r : Response) :
    (finish s b r).runFaulted = (s.runFaulted || r.events.any isFatal) := rfl
@[simp] theorem finish_runRefused (s : State) (b : Block) (r : Response) :
    (finish s b r).runRefused = (s.runRefused || (r.status != .ok)) := rfl

@[simp] theorem answer_blk (s : State) (result : Result) :
    (answer s result).blk = s.blk := rfl
@[simp] theorem answer_cfg (s : State) (result : Result) :
    (answer s result).cfg = s.cfg := rfl
@[simp] theorem answer_requests (s : State) (result : Result) :
    (answer s result).requests = s.requests := rfl
@[simp] theorem answer_resp (s : State) (result : Result) :
    (answer s result).resp = okResponse result [] := rfl
@[simp] theorem answer_runFaulted (s : State) (result : Result) :
    (answer s result).runFaulted = (s.runFaulted || false) := rfl
@[simp] theorem answer_runRefused (s : State) (result : Result) :
    (answer s result).runRefused = (s.runRefused || false) := rfl

@[simp] theorem feedState_blk (batch : List Byte) (s : State) :
    (feedState batch s).blk = (feed s.cfg batch s.blk).1 := rfl
@[simp] theorem feedState_cfg (batch : List Byte) (s : State) :
    (feedState batch s).cfg = s.cfg := rfl
@[simp] theorem feedState_requests (batch : List Byte) (s : State) :
    (feedState batch s).requests = s.requests := rfl
@[simp] theorem feedState_resp (batch : List Byte) (s : State) :
    (feedState batch s).resp = (feed s.cfg batch s.blk).2 := rfl
@[simp] theorem feedState_runFaulted (batch : List Byte) (s : State) :
    (feedState batch s).runFaulted = (s.runFaulted || (feed s.cfg batch s.blk).2.events.any isFatal) := rfl
@[simp] theorem feedState_runRefused (batch : List Byte) (s : State) :
    (feedState batch s).runRefused = (s.runRefused || ((feed s.cfg batch s.blk).2.status != .ok)) := rfl

@[simp] theorem resetState_blk (s : State) :
    (resetState s).blk = Block.reset := rfl
@[simp] theorem resetState_cfg (s : State) :
    (resetState s).cfg = s.cfg := rfl
@[simp] theorem resetState_requests (s : State) :
    (resetState s).requests = s.requests := rfl
@[simp] theorem resetState_resp (s : State) :
    (resetState s).resp = okResponse .none [] := rfl
@[simp] theorem resetState_runFaulted (s : State) :
    (resetState s).runFaulted = (s.runFaulted || false) := rfl
@[simp] theorem resetState_runRefused (s : State) :
    (resetState s).runRefused = (s.runRefused || false) := rfl

@[simp] theorem okResponse_status (result : Result) (events : List Event) :
    (okResponse result events).status = .ok := rfl
@[simp] theorem okResponse_result (result : Result) (events : List Event) :
    (okResponse result events).result = result := rfl
@[simp] theorem okResponse_events (result : Result) (events : List Event) :
    (okResponse result events).events = events := rfl
@[simp] theorem refusedResponse_status (reason : RefusalReason) :
    (refusedResponse reason).status = .refused reason := rfl
@[simp] theorem refusedResponse_result (reason : RefusalReason) :
    (refusedResponse reason).result = .none := rfl
@[simp] theorem refusedResponse_events (reason : RefusalReason) :
    (refusedResponse reason).events = [] := rfl
@[simp] theorem blockReset_acc : Block.reset.acc = [] := rfl
@[simp] theorem blockReset_phase : Block.reset.phase = .seekingStart := rfl
@[simp] theorem blockReset_start : Block.reset.start = none := rfl
@[simp] theorem blockReset_curOpcode : Block.reset.curOpcode = none := rfl
@[simp] theorem blockReset_curLength : Block.reset.curLength = none := rfl
@[simp] theorem blockReset_lastStop : Block.reset.lastStop = none := rfl
@[simp] theorem blockReset_badCount : Block.reset.badCount = 0 := rfl
@[simp] theorem blockReset_queue : Block.reset.queue = [] := rfl
@[simp] theorem blockReset_halted : Block.reset.halted = false := rfl
@[simp] theorem stateReset_blk : State.reset.blk = Block.reset := rfl
@[simp] theorem stateReset_cfg : State.reset.cfg = Config.platform := rfl
@[simp] theorem stateReset_requests : State.reset.requests = [] := rfl
@[simp] theorem stateReset_resp : State.reset.resp = okResponse .none [] := rfl
@[simp] theorem stateReset_runFaulted : State.reset.runFaulted = false := rfl
@[simp] theorem stateReset_runRefused : State.reset.runRefused = false := rfl

/-- An encoder operation or HEALTH changes the response and nothing else. -/
theorem answer_eq (s : State) (result : Result) :
    answer s result = { s with resp := { status := .ok, result, events := [] } } := by
  cases s; simp [answer, finish, okResponse]

end Sys2Proof.Machine
end

