-- ==== Sys2Proof/Laws/Resync.lean ====
section
/-!
SUPPORT. What each shared operation of the resynchronizer and the queue can do, said once: the scans, `classify`, DESYNC,
EMIT, the pass with its induction, `settle`, the overflow guard, FEED and DEQUEUE.
-/
namespace Sys2Proof.Machine
open Sys2Proof

/-! ### Scanning the accumulator -/

theorem firstStart_eq_none {c : Config} {acc : List Byte} {origin : Nat} :
    firstStart c acc origin = none ↔ ∀ x ∈ acc.drop origin, x ≠ startByte c := by
  simp [firstStart, List.findIdx?_eq_none_iff]

theorem firstStart_eq_some {c : Config} {acc : List Byte} {origin j : Nat} :
    firstStart c acc origin = some j ↔
      origin ≤ j ∧ acc[j]? = some (startByte c) ∧ ∀ k, origin ≤ k → k < j → acc[k]? ≠ some (startByte c) := by
  simp only [firstStart, Option.map_eq_some_iff, List.findIdx?_eq_some_iff_getElem, List.getElem_drop, beq_iff_eq,
    List.length_drop]
  constructor
  · rintro ⟨a, ⟨h, ha, hlt⟩, rfl⟩
    refine ⟨by omega, ?_, ?_⟩
    · rw [List.getElem?_eq_getElem (by omega)]; simp only [Nat.add_comm a origin, ha]
    · intro k hk hka
      have := hlt (k - origin) (by omega)
      rw [List.getElem?_eq_getElem (by omega)]
      simpa [Nat.add_sub_cancel' hk] using this
  · rintro ⟨ho, hj, hlt⟩
    obtain ⟨hl, hj⟩ := List.getElem?_eq_some_iff.1 hj
    refine ⟨j - origin, ⟨by omega, ?_, ?_⟩, by omega⟩
    · simpa [Nat.add_sub_cancel' ho] using hj
    · intro k hk
      have := hlt (origin + k) (by omega) (by omega)
      rw [List.getElem?_eq_getElem (by omega)] at this
      simpa using this

theorem firstStart_lt {c : Config} {acc : List Byte} {origin j : Nat} (h : firstStart c acc origin = some j) :
    j < acc.length := (List.getElem?_eq_some_iff.1 (firstStart_eq_some.1 h).2.1).1

theorem startCount_append (c : Config) (xs ys : List Byte) :
    startCount c (xs ++ ys) = startCount c xs + startCount c ys := by simp [startCount, List.countP_append]

theorem startCount_drop_le (c : Config) (acc : List Byte) (j : Nat) : startCount c (acc.drop j) ≤ startCount c acc :=
  (List.drop_sublist j acc).countP_le

theorem startCount_eq_zero {c : Config} {acc : List Byte} :
    startCount c acc = 0 ↔ ∀ x ∈ acc, x ≠ startByte c := by
  simp [startCount, List.countP_eq_zero]

/-- Dropping past a start marker drops a start marker. -/
theorem startCount_drop_lt {c : Config} {acc : List Byte} {s j : Nat} (hs : acc[s]? = some (startByte c)) (hj : s < j) :
    startCount c (acc.drop j) < startCount c acc := by
  obtain ⟨hl, hs⟩ := List.getElem?_eq_some_iff.1 hs
  have h1 : startCount c (acc.drop j) ≤ startCount c (acc.drop (s + 1)) := by
    have : acc.drop j = (acc.drop (s + 1)).drop (j - (s + 1)) := by rw [List.drop_drop]; congr 1; omega
    rw [this]; exact startCount_drop_le _ _ _
  have h2 : startCount c (acc.drop s) = startCount c (acc.drop (s + 1)) + 1 := by
    rw [List.drop_eq_getElem_cons hl]
    simp [startCount, hs]
  have h3 := startCount_drop_le c acc s
  omega

/-! ### classify -/

/-- A candidate is rejected, accepted or waited for at the first start marker. -/
theorem classify_of_firstStart {c : Config} {acc : List Byte} {s : Nat} (h : firstStart c acc 0 = some s) :
    classify c acc = classifyCandidate c s (acc.drop s) := by simp [classify, h]

theorem classify_of_no_start {c : Config} {acc : List Byte} (h : firstStart c acc 0 = none) :
    classify c acc = .waitStart := by simp [classify, h]

theorem classify_nil (c : Config) : classify c [] = .waitStart := rfl

theorem classifyCandidate_ne_waitStart (c : Config) (s : Nat) (xs : List Byte) :
    classifyCandidate c s xs ≠ .waitStart := by
  unfold classifyCandidate
  split
  · simp only
    split
    · simp
    · split
      · simp
      · split
        · simp
        · split <;> simp
  · simp

theorem classify_eq_waitStart {c : Config} {acc : List Byte} :
    classify c acc = .waitStart ↔ firstStart c acc 0 = none := by
  refine ⟨fun h => ?_, classify_of_no_start⟩
  cases hf : firstStart c acc 0 with
  | none => rfl
  | some s => rw [classify_of_firstStart hf] at h; exact absurd h (classifyCandidate_ne_waitStart c s _)

theorem classify_reject_start {c : Config} {acc : List Byte} {cause : DesyncCause} {s : Nat}
    (h : classify c acc = .reject cause s) : firstStart c acc 0 = some s := by
  cases hf : firstStart c acc 0 with
  | none => rw [classify_of_no_start hf] at h; cases h
  | some t =>
    rw [classify_of_firstStart hf] at h
    unfold classifyCandidate at h
    split at h
    · simp only at h
      split at h
      · cases h; rfl
      · split at h
        · cases h; rfl
        · split at h
          · cases h
          · split at h
            · cases h; rfl
            · cases h
    · cases h

/-- What an accepted candidate is (30_encoding.md rule R65). -/
theorem classify_accept {c : Config} {acc : List Byte} {s len : Nat} {op : Byte}
    (h : classify c acc = .accept s op len) :
    firstStart c acc 0 = some s ∧ recognized c op = true ∧ len ≤ maxLen ∧
      acc[s + 1]? = some op ∧ acc[s + 4 + len]? = some (stopByte c) := by
  cases hf : firstStart c acc 0 with
  | none => rw [classify_of_no_start hf] at h; cases h
  | some t =>
    rw [classify_of_firstStart hf] at h
    obtain ⟨m, o, lo, hi, body, hd⟩ : ∃ m o lo hi body, acc.drop t = m :: o :: lo :: hi :: body := by
      unfold classifyCandidate at h
      split at h
      · exact ⟨_, _, _, _, _, by assumption⟩
      · cases h
    have hget : ∀ k, acc[t + k]? = (m :: o :: lo :: hi :: body)[k]? := by
      intro k; rw [← hd, List.getElem?_drop]
    rw [hd] at h
    simp only [classifyCandidate] at h
    split at h
    · cases h
    · split at h
      · cases h
      · split at h
        · cases h
        · rename_i hlen hrec _ x hx
          split at h
          · cases h
          · rename_i hstop
            cases h
            refine ⟨rfl, by simpa using hrec, by omega, by simpa using hget 1, ?_⟩
            have h4 := hget (4 + u16le lo hi)
            rw [← Nat.add_assoc, Nat.add_comm 4 (u16le lo hi)] at h4
            rw [h4]
            simp only [ne_eq, Decidable.not_not] at hstop
            simp only [List.getElem?_cons_succ, hx, hstop]

/-! ### DESYNC -/

theorem resync_acc (c : Config) (origin : Nat) (b : Block) :
    (resync c origin b).acc = match firstStart c b.acc origin with | some j => b.acc.drop j | none => [] := by
  unfold resync; split <;> simp_all

theorem resync_fields (c : Config) (origin : Nat) (b : Block) :
    resync c origin b = { b with acc := (resync c origin b).acc } := by
  unfold resync; split <;> rfl

theorem resync_length_le (c : Config) (origin : Nat) (b : Block) : (resync c origin b).acc.length ≤ b.acc.length := by
  rw [resync_acc]; split <;> simp

/-- The recovery from a rejected candidate drops its start marker (41_resynchronizer.md rule R99). -/
theorem startCount_resync_lt {c : Config} {b : Block} {cause : DesyncCause} {s : Nat}
    (h : classify c b.acc = .reject cause s) :
    startCount c (resync c (s + 1) b).acc < startCount c b.acc := by
  have hs := (firstStart_eq_some.1 (classify_reject_start h)).2.1
  rw [resync_acc]
  split
  · rename_i j hj
    exact startCount_drop_lt hs (by have := (firstStart_eq_some.1 hj).1; omega)
  · have := startCount_drop_lt hs (Nat.lt_succ_self s)
    simp only [startCount, List.countP_nil] at *; omega

theorem countBadPacket_cases (b : Block) :
    (b.badCount = 4 ∧ countBadPacket b = ({ b with badCount := 0 }, [.persistentDesync])) ∨
      (b.badCount ≠ 4 ∧ countBadPacket b = ({ b with badCount := b.badCount + 1 }, [])) := by
  unfold countBadPacket desyncThreshold
  split
  · left; exact ⟨by omega, rfl⟩
  · right; exact ⟨by omega, rfl⟩

/-- What a DESYNC does: it drops bytes and counts (41_resynchronizer.md rule R95). -/
theorem desync_cases (c : Config) (cause : DesyncCause) (origin : Nat) (b : Block) :
    (b.badCount = 4 ∧ desync c cause origin b =
        ({ b with acc := (resync c origin b).acc, badCount := 0 },
          [.desync cause origin (b.acc.length - (resync c origin b).acc.length), .persistentDesync])) ∨
      (b.badCount ≠ 4 ∧ desync c cause origin b =
        ({ b with acc := (resync c origin b).acc, badCount := b.badCount + 1 },
          [.desync cause origin (b.acc.length - (resync c origin b).acc.length)])) := by
  have hf := resync_fields c origin b
  have hb : (resync c origin b).badCount = b.badCount := by rw [hf]
  rcases countBadPacket_cases (resync c origin b) with ⟨h, e⟩ | ⟨h, e⟩
  · left; refine ⟨by omega, ?_⟩
    simp only [desync, e]; rw [hf]
  · right; refine ⟨by omega, ?_⟩
    simp only [desync, e]; rw [hf]

@[simp] theorem desync_acc (c : Config) (cause : DesyncCause) (origin : Nat) (b : Block) :
    (desync c cause origin b).1.acc = (resync c origin b).acc := by
  rcases desync_cases c cause origin b with ⟨_, e⟩ | ⟨_, e⟩ <;> rw [e]

@[simp] theorem desync_queue (c : Config) (cause : DesyncCause) (origin : Nat) (b : Block) :
    (desync c cause origin b).1.queue = b.queue := by
  rcases desync_cases c cause origin b with ⟨_, e⟩ | ⟨_, e⟩ <;> rw [e]

@[simp] theorem desync_halted (c : Config) (cause : DesyncCause) (origin : Nat) (b : Block) :
    (desync c cause origin b).1.halted = b.halted := by
  rcases desync_cases c cause origin b with ⟨_, e⟩ | ⟨_, e⟩ <;> rw [e]

theorem desync_badCount_le (c : Config) (cause : DesyncCause) (origin : Nat) (b : Block) (h : b.badCount ≤ 4) :
    (desync c cause origin b).1.badCount ≤ 4 := by
  rcases desync_cases c cause origin b with ⟨_, e⟩ | ⟨_, e⟩ <;> rw [e] <;> simp only <;> omega

/-! ### EMIT -/

/-- What EMIT does: it queues the frame and clears, or halts (41_resynchronizer.md rule R94). -/
theorem emit_cases (c : Config) (s : Nat) (op : Byte) (len : Nat) (b : Block) :
    (b.queue.length = queueCap ∧ emit c s op len b = (haltOnOverflow c s op len b, [.fatalQueueOverflow op len])) ∨
      (b.queue.length ≠ queueCap ∧ emit c s op len b =
        ({ b with acc := [], curOpcode := none, curLength := none, badCount := 0,
                  queue := b.queue ++ [⟨op, memRead b.acc (s + 4) len⟩] }, [.frame op len])) := by
  unfold emit
  split
  · left; exact ⟨by assumption, rfl⟩
  · right; exact ⟨by assumption, rfl⟩

/-! ### PASS -/

/-- Any bound above the number of start markers gives the same pass (41_resynchronizer.md rule R99). -/
theorem passUpTo_bound (c : Config) : ∀ (n m : Nat) (b : Block), startCount c b.acc < n → startCount c b.acc < m →
    passUpTo c n b = passUpTo c m b := by
  intro n
  induction n with
  | zero => intro m b h; omega
  | succ n ih =>
    intro m b hn hm
    obtain ⟨m, rfl⟩ : ∃ k, m = k + 1 := ⟨m - 1, by omega⟩
    simp only [passUpTo]
    cases hc : classify c b.acc with
    | waitStart => rfl
    | waitHeader s => rfl
    | waitBody s op len => rfl
    | accept s op len => rfl
    | reject cause s =>
      have hlt := startCount_resync_lt hc
      have e := ih m (desync c cause (s + 1) b).1 (by rw [desync_acc]; omega) (by rw [desync_acc]; omega)
      simp only [e]

theorem pass_of_wait {c : Config} {b : Block} (h : isWait (classify c b.acc) = true) : pass c b = (b, []) := by
  unfold pass passUpTo
  cases hc : classify c b.acc <;> simp_all [isWait]

theorem pass_of_accept {c : Config} {b : Block} {s len : Nat} {op : Byte} (h : classify c b.acc = .accept s op len) :
    pass c b = emit c s op len b := by
  unfold pass passUpTo; simp only [h]

theorem pass_of_reject {c : Config} {b : Block} {cause : DesyncCause} {s : Nat} (h : classify c b.acc = .reject cause s) :
    pass c b = ((pass c (desync c cause (s + 1) b).1).1,
      (desync c cause (s + 1) b).2 ++ (pass c (desync c cause (s + 1) b).1).2) := by
  have hlt := startCount_resync_lt h
  have e : passUpTo c (startCount c b.acc) (desync c cause (s + 1) b).1 = pass c (desync c cause (s + 1) b).1 :=
    passUpTo_bound c _ _ _ (by rw [desync_acc]; omega) (Nat.lt_succ_self _)
  rw [← e, pass, passUpTo]
  simp only [h]

/-- The induction of a pass, once: what holds where `classify` waits or accepts, and carries back over a DESYNC, holds
of every pass (41_resynchronizer.md rules R96 and R99). -/
theorem pass_induction {c : Config} {P : Block → Block × List Event → Prop}
    (wait : ∀ b, isWait (classify c b.acc) = true → P b (b, []))
    (accept : ∀ b s op len, classify c b.acc = .accept s op len → P b (emit c s op len b))
    (reject : ∀ b cause s r, classify c b.acc = .reject cause s → P (desync c cause (s + 1) b).1 r →
      P b (r.1, (desync c cause (s + 1) b).2 ++ r.2)) (b : Block) : P b (pass c b) := by
  induction hn : startCount c b.acc using Nat.strong_induction_on generalizing b with
  | _ n ih =>
    cases hc : classify c b.acc with
    | waitStart => rw [pass_of_wait (by rw [hc]; rfl)]; exact wait b (by rw [hc]; rfl)
    | waitHeader s => rw [pass_of_wait (by rw [hc]; rfl)]; exact wait b (by rw [hc]; rfl)
    | waitBody s op len => rw [pass_of_wait (by rw [hc]; rfl)]; exact wait b (by rw [hc]; rfl)
    | accept s op len => rw [pass_of_accept hc]; exact accept b s op len hc
    | reject cause s =>
      rw [pass_of_reject hc]
      refine reject b cause s _ hc (ih _ ?_ _ rfl)
      rw [desync_acc, ← hn]; exact startCount_resync_lt hc

/-! ### settle -/

@[simp] theorem settle_acc (c : Config) (b : Block) : (settle c b).acc = b.acc := by unfold settle; split <;> rfl
@[simp] theorem settle_badCount (c : Config) (b : Block) : (settle c b).badCount = b.badCount := by
  unfold settle; split <;> rfl
@[simp] theorem settle_queue (c : Config) (b : Block) : (settle c b).queue = b.queue := by unfold settle; split <;> rfl
@[simp] theorem settle_halted (c : Config) (b : Block) : (settle c b).halted = b.halted := by unfold settle; split <;> rfl

/-- Settling twice is settling once. -/
@[simp] theorem settle_settle (c : Config) (b : Block) : settle c (settle c b) = settle c b := by
  cases h : classify c b.acc <;> simp [settle, h]

/-- The registers that `settle` leaves depend on the accumulator only (41_resynchronizer.md rule R89). -/
theorem settle_congr {c : Config} {a b : Block} (hw : isWait (classify c a.acc) = true) (hacc : a.acc = b.acc)
    (hbad : a.badCount = b.badCount) (hq : a.queue = b.queue) (hh : a.halted = b.halted) : settle c a = settle c b := by
  unfold settle
  rw [← hacc]
  cases h : classify c a.acc <;> simp_all [isWait]

/-! ### The overflow guard -/

/-- What the guard does (41_resynchronizer.md rule R97): nothing when there is room, else a DESYNC from origin 0, and a
clear when that leaves too little room. -/
theorem overflowGuard_cases (c : Config) (batch : List Byte) (b : Block) :
    (b.acc.length + batch.length ≤ c.accCap ∧ overflowGuard c batch b = (b, [])) ∨
      (c.accCap < b.acc.length + batch.length ∧ (resync c 0 b).acc.length + batch.length ≤ c.accCap ∧
        overflowGuard c batch b = desync c .overflow 0 b) ∨
      (c.accCap < b.acc.length + batch.length ∧ c.accCap < (resync c 0 b).acc.length + batch.length ∧
        overflowGuard c batch b = (accClear (desync c .overflow 0 b).1, (desync c .overflow 0 b).2)) := by
  unfold overflowGuard
  split
  · right
    simp only [desync_acc]
    split
    · right; exact ⟨by assumption, by assumption, rfl⟩
    · left; exact ⟨by assumption, by omega, rfl⟩
  · left; exact ⟨by omega, rfl⟩

/-- After the guard the batch fits, if it is no longer than the capacity (41_resynchronizer.md rule R97). -/
theorem overflowGuard_room (c : Config) (batch : List Byte) (b : Block) (h : batch.length ≤ c.accCap) :
    (overflowGuard c batch b).1.acc.length + batch.length ≤ c.accCap := by
  rcases overflowGuard_cases c batch b with ⟨h1, e⟩ | ⟨_, h2, e⟩ | ⟨_, _, e⟩ <;> rw [e]
  · exact h1
  · simpa using h2
  · simpa using h

@[simp] theorem overflowGuard_queue (c : Config) (batch : List Byte) (b : Block) :
    (overflowGuard c batch b).1.queue = b.queue := by
  rcases overflowGuard_cases c batch b with ⟨_, e⟩ | ⟨_, _, e⟩ | ⟨_, _, e⟩ <;> rw [e] <;> simp

@[simp] theorem overflowGuard_halted (c : Config) (batch : List Byte) (b : Block) :
    (overflowGuard c batch b).1.halted = b.halted := by
  rcases overflowGuard_cases c batch b with ⟨_, e⟩ | ⟨_, _, e⟩ | ⟨_, _, e⟩ <;> rw [e] <;> simp

theorem overflowGuard_badCount_le (c : Config) (batch : List Byte) (b : Block) (h : b.badCount ≤ 4) :
    (overflowGuard c batch b).1.badCount ≤ 4 := by
  have := desync_badCount_le c .overflow 0 b h
  rcases overflowGuard_cases c batch b with ⟨_, e⟩ | ⟨_, _, e⟩ | ⟨_, _, e⟩ <;> rw [e]
  · exact h
  · exact this
  · exact this

/-! ### FEED and DEQUEUE -/

theorem feed_of_halted {c : Config} {batch : List Byte} {b : Block} (h : b.halted = true) :
    feed c batch b = (b, refusedResponse .halted) := by simp [feed, h]

theorem feed_of_tooLong {c : Config} {batch : List Byte} {b : Block} (h : b.halted = false)
    (hl : c.batchMax < batch.length) : feed c batch b = (b, refusedResponse .batchTooLong) := by simp [feed, h, hl]

/-- The block a performed FEED leaves, and its events (41_resynchronizer.md rule R98). -/
theorem feed_of_ok {c : Config} {batch : List Byte} {b : Block} (h : b.halted = false)
    (hl : batch.length ≤ c.batchMax) :
    feed c batch b =
      (let p := pass c (accAppend batch (overflowGuard c batch b).1)
       (if p.1.halted then p.1 else settle c p.1, okResponse .none ((overflowGuard c batch b).2 ++ p.2))) := by
  simp [feed, h, Nat.not_lt.2 hl]

theorem dequeue_cases (b : Block) :
    (b.halted = true ∧ dequeue b = (b, refusedResponse .halted)) ∨
      (b.halted = false ∧ b.queue = [] ∧ dequeue b = (b, okResponse .none [])) ∨
      (b.halted = false ∧ ∃ e rest, b.queue = e :: rest ∧
        dequeue b = ({ b with queue := rest }, okResponse (.entry e) [])) := by
  unfold dequeue
  cases hh : b.halted with
  | true => left; simp
  | false =>
    right
    cases hq : b.queue with
    | nil => left; simp
    | cons e rest => right; exact ⟨rfl, e, rest, rfl, by simp⟩

end Sys2Proof.Machine
end

