-- ==== Sys2Proof/Laws/Exec.lean ====
section
/-!
SUPPORT. What `exec` can do, said once: the encoder's answer, the three outcomes of a FEED, the five shapes of an
instruction, and what no instruction changes; and what a pass of the resynchronizer raises and leaves.
-/
namespace Sys2Proof.Machine
open Sys2Proof

/-! ### Answers -/

theorem answerFrame_eq (op : Opcode) (p0 p1 : Byte) (s : State) :
    answerFrame op p0 p1 s =
      .next { s with resp := { status := .ok, result := .frame (outboundFrame s.cfg op p0 p1), events := [] } } := by
  rw [answerFrame, answer_eq]

theorem quantizeByte_of_none {c : Config} (h : c.qBoundary = none) (x : Rat) (brake : Bool) :
    quantizeByte c x brake = quantizeExact x brake := by
  simp [quantizeByte, h]

theorem finish_refused (s : State) (reason : RefusalReason) :
    finish s s.blk (refusedResponse reason) =
      { s with resp := { status := .refused reason, result := .none, events := [] }, runRefused := true } := by
  cases s; simp [finish, refusedResponse]

/-! ### The counter, as a function of its value -/

theorem persistentAt_eq (n : Nat) : persistentAt n = if n = 4 then [.persistentDesync] else [] := by
  simp [persistentAt, desyncThreshold]

theorem bumped_eq (n : Nat) : bumped n = if n = 4 then 0 else n + 1 := by simp [bumped, desyncThreshold]

theorem desync_eq (c : Config) (cause : DesyncCause) (origin : Nat) (b : Block) :
    desync c cause origin b =
      ({ b with acc := (resync c origin b).acc, badCount := bumped b.badCount },
        .desync cause origin (b.acc.length - (resync c origin b).acc.length) :: persistentAt b.badCount) := by
  rcases desync_cases c cause origin b with ⟨h, e⟩ | ⟨h, e⟩ <;> rw [e] <;> simp [bumped_eq, persistentAt_eq, h]

theorem overflowGuard_of_room {c : Config} {batch : List Byte} {b : Block}
    (h : b.acc.length + batch.length ≤ c.accCap) : overflowGuard c batch b = (b, []) := by
  simp [overflowGuard, Nat.not_lt.2 h]

/-! ### FEED -/

/-- A FEED is refused because the block is halted, refused because the batch is too long, or performed
(41_resynchronizer.md rule R98). -/
theorem exec_feed_cases (batch : List Byte) (s : State) :
    (s.blk.halted = true ∧ exec (.feed batch) s = .next (finish s s.blk (refusedResponse .halted))) ∨
    (s.blk.halted = false ∧ s.cfg.batchMax < batch.length ∧
      exec (.feed batch) s = .next (finish s s.blk (refusedResponse .batchTooLong))) ∨
    (s.blk.halted = false ∧ batch.length ≤ s.cfg.batchMax ∧
      let g := overflowGuard s.cfg batch s.blk
      let p := pass s.cfg (accAppend batch g.1)
      exec (.feed batch) s =
        .next (finish s (if p.1.halted then p.1 else settle s.cfg p.1) (okResponse .none (g.2 ++ p.2)))) := by
  rcases h : s.blk.halted
  · rcases Nat.lt_or_ge s.cfg.batchMax batch.length with hl | hl
    · right; left; refine ⟨rfl, hl, ?_⟩; simp [exec, execFeed, feedState, feed_of_tooLong h hl]
    · right; right; refine ⟨rfl, hl, ?_⟩; simp [exec, execFeed, feedState, feed_of_ok h hl]
  · left; refine ⟨rfl, ?_⟩; simp [exec, execFeed, feedState, feed_of_halted h]

/-- A FEED whose block and events are known answers the state that holds them. -/
theorem exec_feed_of_feed {batch : List Byte} {s : State} {b : Block} {events : List Event}
    (hf : feed s.cfg batch s.blk = (b, okResponse .none events)) :
    exec (.feed batch) s =
      .next { s with
        blk := b
        resp := { status := .ok, result := .none, events := events }
        runFaulted := s.runFaulted || events.any isFatal } := by
  simp only [exec, execFeed, feedState, hf]
  cases s; simp [finish, okResponse]

/-- A FEED with room whose bytes then wait appends them and settles. -/
theorem feed_of_wait {c : Config} {batch : List Byte} {b : Block} (h : b.halted = false)
    (hl : batch.length ≤ c.batchMax) (hfit : b.acc.length + batch.length ≤ c.accCap)
    (hw : isWait (classify c (b.acc ++ batch)) = true) :
    feed c batch b = (settle c { b with acc := b.acc ++ batch }, okResponse .none []) := by
  rw [feed_of_ok h hl, overflowGuard_of_room hfit]
  have hp : pass c (accAppend batch b) = (accAppend batch b, []) := pass_of_wait (by simpa using hw)
  simp only [hp]
  simp [h, accAppend]

/-! ### All instructions -/

/-- An instruction is a FEED of its bytes, FEED, DEQUEUE, RESET, or an answer that changes the response alone. -/
theorem exec_shape (i : Instr) (s : State) :
    (channelOf i = .inbound ∧ exec i s = exec (.feed (encode s.cfg i)) s) ∨ (∃ batch, i = .feed batch) ∨
      i = .dequeue ∨ i = .reset ∨ (i ≠ .dequeue ∧ i ≠ .reset ∧ ∃ r, exec i s = .next (answer s r)) := by
  cases i
  case feed b => exact Or.inr (Or.inl ⟨b, rfl⟩)
  case dequeue => exact Or.inr (Or.inr (Or.inl rfl))
  case reset => exact Or.inr (Or.inr (Or.inr (Or.inl rfl)))
  all_goals first
    | exact Or.inl ⟨rfl, rfl⟩
    | exact Or.inr (Or.inr (Or.inr (Or.inr ⟨by simp, by simp, _, rfl⟩)))

/-- No instruction changes the parameters or the pending requests. -/
theorem exec_cfg_requests {i : Instr} {s t : State} (h : exec i s = .next t) :
    t.cfg = s.cfg ∧ t.requests = s.requests := by
  cases i <;> (obtain rfl := Host.Outcome.next.inj h; exact ⟨rfl, rfl⟩)

/-! ### What a pass raises and leaves (41_resynchronizer.md rule R96) -/

/-- A rejected candidate is never rejected for overflow: that cause is the guard's. -/
theorem classify_reject_cause {c : Config} {acc : List Byte} {cause : DesyncCause} {s : Nat}
    (h : classify c acc = .reject cause s) : cause ≠ .overflow := by
  rintro rfl
  have key : ∀ xs, classifyCandidate c s xs ≠ .reject .overflow s := by
    intro xs; unfold classifyCandidate
    split
    · simp only
      split
      · simp
      · split
        · simp
        · split
          · simp
          · split <;> simp
    · simp
  rw [classify_of_firstStart (classify_reject_start h)] at h
  exact key _ h

/-- A pass of a block that is not halted ends waiting, with an EMIT that queues, or with the fatal one. -/
theorem pass_cases (c : Config) (b : Block) : b.halted = false →
    ((pass c b).1.halted = false ∧ isWait (classify c (pass c b).1.acc) = true ∧ (pass c b).1.queue = b.queue) ∨
    ((pass c b).1.halted = false ∧ (pass c b).1.acc = [] ∧ (pass c b).1.badCount = 0 ∧ b.queue.length ≠ queueCap ∧
      ∃ e : Entry, (pass c b).1.queue = b.queue ++ [e] ∧ recognized c e.opcode = true ∧ e.payload.length ≤ maxLen) ∨
    ((pass c b).1.halted = true ∧ b.queue.length = queueCap ∧ (pass c b).1.queue = b.queue ∧
      ∃ (op : Byte) (len st : Nat), classify c (pass c b).1.acc = .accept st op len ∧
        (pass c b).1.start = some st ∧ (pass c b).1.curOpcode = some op ∧ (pass c b).1.curLength = some len ∧
        (pass c b).1.phase = .seekingBody ∧ (pass c b).1.lastStop = lastStop c (pass c b).1.acc ∧
        .fatalQueueOverflow op len ∈ (pass c b).2) := by
  refine pass_induction (c := c) (P := fun b r => b.halted = false →
    (r.1.halted = false ∧ isWait (classify c r.1.acc) = true ∧ r.1.queue = b.queue) ∨
    (r.1.halted = false ∧ r.1.acc = [] ∧ r.1.badCount = 0 ∧ b.queue.length ≠ queueCap ∧
      ∃ e : Entry, r.1.queue = b.queue ++ [e] ∧ recognized c e.opcode = true ∧ e.payload.length ≤ maxLen) ∨
    (r.1.halted = true ∧ b.queue.length = queueCap ∧ r.1.queue = b.queue ∧
      ∃ (op : Byte) (len st : Nat), classify c r.1.acc = .accept st op len ∧
        r.1.start = some st ∧ r.1.curOpcode = some op ∧ r.1.curLength = some len ∧
        r.1.phase = .seekingBody ∧ r.1.lastStop = lastStop c r.1.acc ∧
        .fatalQueueOverflow op len ∈ r.2)) ?_ ?_ ?_ b
  · intro b hw hh
    exact Or.inl ⟨hh, hw, rfl⟩
  · intro b s op len hc hh
    rcases emit_cases c s op len b with ⟨q, e⟩ | ⟨q, e⟩ <;> rw [e]
    · exact Or.inr (Or.inr ⟨rfl, q, rfl, op, len, s, by simpa using hc, rfl, rfl, rfl, rfl, rfl, by simp⟩)
    · obtain ⟨_, hr, hm, _⟩ := classify_accept hc
      refine Or.inr (Or.inl ⟨by simpa using hh, rfl, rfl, q, _, rfl, hr, ?_⟩)
      simp only [memRead, List.length_take]
      exact le_trans (min_le_left _ _) hm
  · intro b cause s r hc ih hh
    rcases ih (by simpa using hh) with ⟨h1, h2, h3⟩ | ⟨h1, h2, h3, h4, h5⟩ | ⟨h1, h2, h3, op, len, st, h4⟩
    · exact Or.inl ⟨h1, h2, by simpa using h3⟩
    · exact Or.inr (Or.inl ⟨h1, h2, h3, by simpa using h4, by simpa using h5⟩)
    · refine Or.inr (Or.inr ⟨h1, by simpa using h2, by simpa using h3, op, len, st, h4.1, h4.2.1, h4.2.2.1,
        h4.2.2.2.1, h4.2.2.2.2.1, h4.2.2.2.2.2.1, ?_⟩)
      exact List.mem_append_right _ h4.2.2.2.2.2.2

/-- A pass lets no accumulator grow and keeps the counter in range. -/
theorem pass_acc_badCount (c : Config) (b : Block) :
    (pass c b).1.acc.length ≤ b.acc.length ∧ (b.badCount ≤ 4 → (pass c b).1.badCount ≤ 4) := by
  refine pass_induction (c := c)
    (P := fun b r => r.1.acc.length ≤ b.acc.length ∧ (b.badCount ≤ 4 → r.1.badCount ≤ 4)) ?_ ?_ ?_ b
  · intro b _; exact ⟨le_refl _, id⟩
  · intro b s op len hc
    rcases emit_cases c s op len b with ⟨_, e⟩ | ⟨_, e⟩ <;> rw [e] <;> simp
  · intro b cause s r hc ih
    refine ⟨le_trans ih.1 (by rw [desync_acc]; exact resync_length_le _ _ _), fun h => ih.2 ?_⟩
    exact desync_badCount_le _ _ _ _ h

end Sys2Proof.Machine
end

