-- ==== Sys2Proof/Laws/Frames.lean ====
section
/-!
SUPPORT. What the scans and `classify` find when an inbound frame stands behind bytes without a start marker, and what the
parts of a frame are.
-/
namespace Sys2Proof.Machine
open Sys2Proof

/-! ### The shape of a frame (30_encoding.md rule R63) -/

theorem inboundHeader_append (c : Config) (o : Byte) (n : Nat) (tail : List Byte) :
    inboundHeader c o n ++ tail = startByte c :: o :: lengthLow n :: lengthHigh n :: tail := rfl

theorem inboundFrame_append (c : Config) (op : Opcode) (p : List Byte) (t : Byte) (after : List Byte) :
    inboundFrame c op p t ++ after =
      startByte c :: opcodeByte c op :: lengthLow p.length :: lengthHigh p.length :: (p ++ t :: after) := by
  simp [inboundFrame, inboundHeader]

@[simp] theorem inboundFrame_length (c : Config) (op : Opcode) (p : List Byte) (t : Byte) :
    (inboundFrame c op p t).length = p.length + 5 := by
  simp [inboundFrame, inboundHeader]

theorem encode_inboundRow (c : Config) (op : Opcode) (p : List Byte) :
    encode c (inboundRow op p) = inboundFrame c op p (stopByte c) := by cases op <;> rfl

theorem channelOf_inboundRow (op : Opcode) (p : List Byte) : channelOf (inboundRow op p) = .inbound := by
  cases op <;> rfl

/-! ### The length field, read back -/

theorem u16le_eq_toNat (lo hi : Byte) : (hi ++ lo : BitVec 16).toNat = u16le lo hi := by
  rw [BitVec.toNat_append, ← Nat.shiftLeft_add_eq_or_of_lt lo.isLt, Nat.shiftLeft_eq]
  simp only [u16le]; omega

theorem lengthLow_u16le (lo hi : Byte) : lengthLow (u16le lo hi) = lo := by
  apply BitVec.eq_of_toNat_eq; simp [lengthLow, u16le]; omega

theorem lengthHigh_u16le (lo hi : Byte) : lengthHigh (u16le lo hi) = hi := by
  apply BitVec.eq_of_toNat_eq; simp [lengthHigh, u16le]; omega

/-! ### Behind bytes without a start marker -/

theorem firstStart_of_no_start {c : Config} {acc : List Byte} (h : ∀ x ∈ acc, x ≠ startByte c) (origin : Nat) :
    firstStart c acc origin = none := by
  rw [firstStart_eq_none]; intro x hx; exact h x (List.mem_of_mem_drop hx)

theorem firstStart_behind {c : Config} {acc after : List Byte} (h : ∀ x ∈ acc, x ≠ startByte c) :
    firstStart c (acc ++ startByte c :: after) 0 = some acc.length := by
  rw [firstStart_eq_some]
  refine ⟨Nat.zero_le _, by simp, ?_⟩
  intro k _ hk
  rw [List.getElem?_append_left hk, List.getElem?_eq_getElem hk]
  simp only [ne_eq, Option.some.injEq]
  exact h _ (List.getElem_mem hk)

theorem classify_behind {c : Config} {acc after : List Byte} (h : ∀ x ∈ acc, x ≠ startByte c) :
    classify c (acc ++ startByte c :: after) = classifyCandidate c acc.length (startByte c :: after) := by
  rw [classify_of_firstStart (firstStart_behind h)]; simp

/-- A whole frame with a legal header is accepted or rejected by its terminator alone (41_resynchronizer.md rule R88). -/
theorem classify_frame {c : Config} {acc p after : List Byte} {op : Opcode} {t : Byte}
    (h : ∀ x ∈ acc, x ≠ startByte c) (hp : p.length ≤ 2048) :
    classify c (acc ++ (inboundFrame c op p t ++ after)) =
      if t = stopByte c then .accept acc.length (opcodeByte c op) p.length
      else .reject .badTerminator acc.length := by
  rw [inboundFrame_append, classify_behind h]
  simp only [classifyCandidate, u16le_lengthBytes (by omega : p.length < 65536), recognized_opcodeByte]
  rw [if_neg (by simp; omega)]
  simp

/-- The payload that EMIT reads out of a frame is the frame's. -/
theorem memRead_frame {c : Config} {acc p after : List Byte} {op : Opcode} {t : Byte} :
    memRead (acc ++ (inboundFrame c op p t ++ after)) (acc.length + 4) p.length = p := by
  rw [inboundFrame_append]; simp [memRead]

/-- On a proper prefix of a frame `classify` waits (41_resynchronizer.md rule R93). -/
theorem classify_prefix {c : Config} {acc w after p : List Byte} {op : Opcode} (hg : ∀ x ∈ acc, x ≠ startByte c)
    (hp : p.length ≤ 2048) (hw : inboundFrame c op p (stopByte c) = w ++ after) (hr : after ≠ []) :
    isWait (classify c (acc ++ w)) = true := by
  have hs := inboundFrame_append c op p (stopByte c) []
  rw [List.append_nil] at hs
  cases w with
  | nil => rw [List.append_nil, classify_of_no_start (firstStart_of_no_start hg 0)]; rfl
  | cons x w =>
    rw [hs] at hw
    simp only [List.cons_append, List.cons.injEq] at hw
    obtain ⟨rfl, hw⟩ := hw
    rw [classify_behind hg]
    unfold classifyCandidate
    split
    · rename_i x op' lo hi body heq
      simp only [List.cons.injEq] at heq
      obtain ⟨rfl, rfl⟩ := heq
      simp only [List.cons_append, List.cons.injEq] at hw
      obtain ⟨rfl, rfl, rfl, hw⟩ := hw
      simp only [u16le_lengthBytes (by omega : p.length < 65536), recognized_opcodeByte]
      rw [if_neg (by simp; omega)]
      have hlen := congrArg List.length hw
      simp at hlen
      have : 0 < after.length := List.length_pos_iff.2 hr
      rw [List.getElem?_eq_none (by omega)]
      simp [isWait]
    · rfl

end Sys2Proof.Machine
end

