-- ==== Sys2Proof/Laws/PerInstr.lean ====
section
/-!
SUPPORT. A statement about every instruction as syntax, one lemma per constructor of `Instr`: some agent may issue it, and
its encoding begins with a selector below 8 on the command port, with the start marker on the wires.
-/
namespace Sys2Proof.Laws.EncodingStarts
open Sys2Proof Sys2Proof.Machine

/-- The first byte of an instruction's encoding (30_encoding.md rules R59, R63, R69) and its issuers
(60_exceptions.md rule R133). -/
def Statement (i : Instr) : Prop :=
  issuers i ≠ [] ∧
    ∀ c : Config, ∃ (first : Byte) (others : List Byte), encode c i = first :: others ∧
      (channelOf i = .command → first.toNat < 8) ∧ (channelOf i ≠ .command → first = startByte c)

/-- An operation of the command port begins with its selector. -/
theorem of_command {i : Instr} (sel : Byte) (rest : Config → List Byte) (hi : issuers i ≠ [])
    (hc : channelOf i = .command) (hs : sel.toNat < 8) (he : ∀ c, encode c i = sel :: rest c) : Statement i :=
  ⟨hi, fun c => ⟨sel, rest c, he c, fun _ => hs, fun h => absurd hc h⟩⟩

/-- A frame begins with the start marker. -/
theorem of_wire {i : Instr} (rest : Config → List Byte) (hi : issuers i ≠ []) (hc : channelOf i ≠ .command)
    (he : ∀ c, encode c i = startByte c :: rest c) : Statement i :=
  ⟨hi, fun c => ⟨startByte c, rest c, he c, fun h => absurd h hc, fun _ => rfl⟩⟩

theorem feed (batch : List Byte) : Statement (.feed batch) :=
  of_command 0#8 _ (by simp [issuers, allAgents, mayIssue]) rfl (by decide) fun _ => rfl
theorem dequeue : Statement .dequeue :=
  of_command 1#8 _ (by simp [issuers, allAgents, mayIssue]) rfl (by decide) fun _ => rfl
theorem health : Statement .health :=
  of_command 2#8 _ (by simp [issuers, allAgents, mayIssue]) rfl (by decide) fun _ => rfl
theorem reset : Statement .reset :=
  of_command 3#8 _ (by simp [issuers, allAgents, mayIssue]) rfl (by decide) fun _ => rfl
theorem encode (op : Opcode) (p0 p1 : Byte) : Statement (.encode op p0 p1) :=
  of_command 4#8 _ (by simp [issuers, allAgents, mayIssue]) rfl (by decide) fun _ => rfl
theorem encodeParamless (op : Opcode) : Statement (.encodeParamless op) :=
  of_command 5#8 _ (by simp [issuers, allAgents, mayIssue]) rfl (by decide) fun _ => rfl
theorem encodeMotor (op : Opcode) (left right : Rat) (brakeLeft brakeRight : Bool) : Statement (.encodeMotor op left right brakeLeft brakeRight) :=
  of_command 6#8 _ (by simp [issuers, allAgents, mayIssue]) rfl (by decide) fun _ => rfl
theorem quantize (x : Rat) (brake : Bool) : Statement (.quantize x brake) :=
  of_command 7#8 _ (by simp [issuers, allAgents, mayIssue]) rfl (by decide) fun _ => rfl
theorem outGetLog : Statement .outGetLog :=
  of_wire _ (by simp [issuers, allAgents, mayIssue]) (by simp [channelOf]) fun _ => rfl
theorem outSetMotorLevels (left right : Byte) : Statement (.outSetMotorLevels left right) :=
  of_wire _ (by simp [issuers, allAgents, mayIssue]) (by simp [channelOf]) fun _ => rfl
theorem outResetState : Statement .outResetState :=
  of_wire _ (by simp [issuers, allAgents, mayIssue]) (by simp [channelOf]) fun _ => rfl
theorem outGetState : Statement .outGetState :=
  of_wire _ (by simp [issuers, allAgents, mayIssue]) (by simp [channelOf]) fun _ => rfl
theorem outNack : Statement .outNack :=
  of_wire _ (by simp [issuers, allAgents, mayIssue]) (by simp [channelOf]) fun _ => rfl
theorem outAck : Statement .outAck :=
  of_wire _ (by simp [issuers, allAgents, mayIssue]) (by simp [channelOf]) fun _ => rfl
theorem outStart : Statement .outStart :=
  of_wire _ (by simp [issuers, allAgents, mayIssue]) (by simp [channelOf]) fun _ => rfl
theorem outStop : Statement .outStop :=
  of_wire _ (by simp [issuers, allAgents, mayIssue]) (by simp [channelOf]) fun _ => rfl
theorem inGetLog (payload : List Byte) : Statement (.inGetLog payload) :=
  of_wire _ (by simp [issuers, allAgents, mayIssue]) (by simp [channelOf]) fun _ => rfl
theorem inSetMotorLevels (payload : List Byte) : Statement (.inSetMotorLevels payload) :=
  of_wire _ (by simp [issuers, allAgents, mayIssue]) (by simp [channelOf]) fun _ => rfl
theorem inResetState (payload : List Byte) : Statement (.inResetState payload) :=
  of_wire _ (by simp [issuers, allAgents, mayIssue]) (by simp [channelOf]) fun _ => rfl
theorem inGetState (payload : List Byte) : Statement (.inGetState payload) :=
  of_wire _ (by simp [issuers, allAgents, mayIssue]) (by simp [channelOf]) fun _ => rfl
theorem inNack (payload : List Byte) : Statement (.inNack payload) :=
  of_wire _ (by simp [issuers, allAgents, mayIssue]) (by simp [channelOf]) fun _ => rfl
theorem inAck (payload : List Byte) : Statement (.inAck payload) :=
  of_wire _ (by simp [issuers, allAgents, mayIssue]) (by simp [channelOf]) fun _ => rfl
theorem inStart (payload : List Byte) : Statement (.inStart payload) :=
  of_wire _ (by simp [issuers, allAgents, mayIssue]) (by simp [channelOf]) fun _ => rfl
theorem inStop (payload : List Byte) : Statement (.inStop payload) :=
  of_wire _ (by simp [issuers, allAgents, mayIssue]) (by simp [channelOf]) fun _ => rfl
theorem inInvalidBadLength (opByte : Byte) (len : BitVec 16) (tail : List Byte) : Statement (.inInvalidBadLength opByte len tail) :=
  of_wire _ (by simp [issuers, allAgents, mayIssue]) (by simp [channelOf]) fun _ => rfl
theorem inInvalidBadOpcode (opByte : Byte) (len : BitVec 16) (tail : List Byte) : Statement (.inInvalidBadOpcode opByte len tail) :=
  of_wire _ (by simp [issuers, allAgents, mayIssue]) (by simp [channelOf]) fun _ => rfl
theorem inInvalidBadTerminator (op : Opcode) (payload : List Byte) (terminator : Byte) : Statement (.inInvalidBadTerminator op payload terminator) :=
  of_wire _ (by simp [issuers, allAgents, mayIssue]) (by simp [channelOf]) fun _ => rfl

end Sys2Proof.Laws.EncodingStarts
end

