-- ==== Sys2Proof/Tests/Slice0.lean ====
section
/-!
SUPPORT. Tests. The expected values are those of 95_test_vectors.md (the vector is named with each test) or are written out
from the encoding tables of 30_encoding.md. Section 4 shows, for each statement for the provers that has hypotheses,
a concrete state and operands that meet them.
-/
namespace Sys2Proof.Tests
set_option Elab.async false
open Sys2Proof Sys2Proof.Machine

/-! ### Configurations and states -/

/-- REF-A of 00_scope.md rule R10. -/
def refA : Config where
  opcodeBytes := #v[0x01, 0x02, 0x03, 0x04, 0x05, 0x06, 0xAA, 0x55]
  accCap := 64
  batchMax := 64
  qBoundary := none
  platformMap := none

/-- REF-B: REF-A with room for the longest frame. -/
def refB : Config := { refA with accCap := 4096, batchMax := 4096 }

/-- REF-A with a `Q_BOUNDARY` table: the dead-zone bound rounded up, and the lower bound of magnitude 6 rounded down. -/
def refQ : Config :=
  { refA with qBoundary := some ⟨1 / 1000000, [⟨49 / 506, false, 0x15⟩, ⟨1799 / 16192, false, 0x15⟩], 0⟩ }

def n (k : Nat) (b : Byte) : List Byte := List.replicate k b

/-- A machine at rest under REF-A with these bytes, none of them a start marker, this counter and this queue. -/
def rest (acc : List Byte) (badCount : Nat) (queue : List Entry) : State :=
  { State.reset with cfg := refA, blk := seekingStartBlock refA acc badCount queue }

def idle : State := rest [] 0 []

/-- The state after a FEED. -/
def fed (s : State) (batch : List Byte) : State := feedState batch s

/-- 256 empty frames wait (program P5 after #256). -/
def full : State := rest [] 0 (List.replicate 256 ⟨0x04, []⟩)

/-- Program P5 after #257. -/
def halted : State := fed full [0xAA, 0x04, 0x00, 0x00, 0x55]

/-! ### 1. Well-formedness: each check refuses an ill-formed term -/

theorem test_refA_legal : refA.Legal := by decide +kernel
theorem test_refB_legal : refB.Legal := by decide +kernel
theorem test_refQ_legal : refQ.Legal := by decide +kernel

theorem test_illformed_two_opcodes_share_a_byte :
    ¬ { refA with opcodeBytes := #v[0x01, 0x02, 0x03, 0x04, 0x05, 0x06, 0xAA, 0xAA] }.Legal := by decide +kernel
theorem test_illformed_no_accumulator : ¬ { refA with accCap := 0, batchMax := 0 }.Legal := by decide +kernel
theorem test_illformed_no_batch : ¬ { refA with batchMax := 0 }.Legal := by decide +kernel
theorem test_illformed_batch_above_capacity : ¬ { refA with batchMax := 65 }.Legal := by decide +kernel
theorem test_illformed_boundary_distance : QBoundary.legal ⟨-1, [], 0⟩ = false := by decide +kernel
/-- 0x1D is magnitude 7, not adjacent to the exact magnitude 5 (Q24). -/
theorem test_illformed_boundary_not_adjacent :
    QBoundary.legal ⟨1 / 1000000, [⟨899 / 8096, false, 0x1D⟩], 0⟩ = false := by decide +kernel
/-- 0x16 is the adjacent magnitude with the direction of a negative input. -/
theorem test_illformed_boundary_direction :
    QBoundary.legal ⟨1 / 1000000, [⟨49 / 506, false, 0x16⟩], 0⟩ = false := by decide +kernel
/-- 1/2 is not within rounding distance of a boundary. -/
theorem test_illformed_boundary_too_far :
    QBoundary.legal ⟨1 / 1000000, [⟨1 / 2, false, 0x7D⟩], 0⟩ = false := by decide +kernel

theorem test_illformed_payload_too_long :
    ([Instr.inGetLog, .inSetMotorLevels, .inResetState, .inGetState, .inNack, .inAck, .inStart, .inStop].all fun f =>
      (f (n 2048 0)).wf refA && !(f (n 2049 0)).wf refA) = true := by decide +kernel
theorem test_illformed_bad_length :
    (Instr.inInvalidBadLength 0x04 2048 []).wf refA = false ∧
      (Instr.inInvalidBadLength 0x04 2049 (n 2051 0)).wf refA = false := by decide +kernel
theorem test_illformed_bad_opcode :
    (Instr.inInvalidBadOpcode 0x04 0 []).wf refA = false ∧ (Instr.inInvalidBadOpcode 0x07 2049 []).wf refA = false ∧
      (Instr.inInvalidBadOpcode 0x07 1 [0, 0, 0]).wf refA = false := by decide +kernel
theorem test_illformed_bad_terminator :
    (Instr.inInvalidBadTerminator .ack [] 0x55).wf refA = false ∧
      (Instr.inInvalidBadTerminator .ack (n 2049 0) 0x00).wf refA = false := by decide +kernel

/-! ### 2. Decoding: each constructor from a word written out from 30_encoding.md -/

/-- Section 4: the eight selectors in bits [2:0]; the operands laid out as assumption 2 says. -/
theorem test_decode_selectors :
    decodeCommand [0b00000000, 0x02, 0xAA, 0x55] = .ok (.feed [0xAA, 0x55]) ∧
    decodeCommand [0b00000001] = .ok .dequeue ∧
    decodeCommand [0b00000010] = .ok .health ∧
    decodeCommand [0b00000011] = .ok .reset ∧
    decodeCommand [0b00000100, 0x01, 0x79, 0x7A] = .ok (.encode .setMotorLevels 0x79 0x7A) ∧
    decodeCommand [0b00000101, 0x03] = .ok (.encodeParamless .getState) := by
  refine ⟨rfl, rfl, rfl, rfl, rfl, rfl⟩

/-- ENCODE_MOTOR of SET_MOTOR_LEVELS with 1/4 and -1/4, both brakes on (E15); QUANTIZE of -1/2. -/
theorem test_decode_rationals :
    readOperation 6 [0x01, 0x00, 0x01, 0x03, 0x01, 0x01, 0x03, 0x01, 0x01] =
      some (.encodeMotor .setMotorLevels (1 / 4) (-1 / 4) true true) ∧
    readOperation 7 [0x01, 0x01, 0x01, 0x00] = some (.quantize (-1 / 2) false) := by decide +kernel

theorem test_decode_rejects_by_name :
    decodeCommand [] = .error .emptyRequest ∧ decodeCommand [0x04, 0x00] = .error .missingOperand ∧
    decodeOutbound refA [0xAA, 0x04, 0x00, 0x55] = .error .notFiveBytes ∧
    decodeOutbound refA [0xAB, 0x04, 0x00, 0x00, 0x55] = .error .noStartMarker ∧
    decodeOutbound refA [0xAA, 0x04, 0x00, 0x00, 0x54] = .error .noStopMarker ∧
    decodeOutbound refA [0xAA, 0x07, 0x00, 0x00, 0x55] = .error .unknownOpcode ∧
    decodeOutbound refA [0xAA, 0x04, 0x00, 0x01, 0x55] = .error .nonzeroPayload ∧
    decodeInbound refA [0xAA, 0x04, 0x00] = .error .shortHeader ∧
    decodeInbound refA [0xAA, 0x04, 0x01, 0x00, 0x7E] = .error .incompleteBody ∧
    decodeInbound refA [0xAA, 0x04, 0x00, 0x00, 0x55, 0x00] = .error .trailingBytes := by
  refine ⟨rfl, rfl, rfl, rfl, rfl, rfl, rfl, rfl, rfl, rfl⟩

/-- Section 2: the outbound frames under REF-A (E1, E4 to E11). -/
theorem test_decode_outbound :
    decodeOutbound refA [0xAA, 0x01, 0x00, 0x00, 0x55] = .ok .outGetLog ∧
    decodeOutbound refA [0xAA, 0x02, 0x79, 0x7A, 0x55] = .ok (.outSetMotorLevels 0x79 0x7A) ∧
    decodeOutbound refA [0xAA, 0x03, 0x00, 0x00, 0x55] = .ok .outResetState ∧
    decodeOutbound refA [0xAA, 0x04, 0x00, 0x00, 0x55] = .ok .outGetState ∧
    decodeOutbound refA [0xAA, 0x05, 0x00, 0x00, 0x55] = .ok .outNack ∧
    decodeOutbound refA [0xAA, 0x06, 0x00, 0x00, 0x55] = .ok .outAck ∧
    decodeOutbound refA [0xAA, 0xAA, 0x00, 0x00, 0x55] = .ok .outStart ∧
    decodeOutbound refA [0xAA, 0x55, 0x00, 0x00, 0x55] = .ok .outStop := by
  refine ⟨rfl, rfl, rfl, rfl, rfl, rfl, rfl, rfl⟩

/-- Section 3: the inbound frames under REF-A; the length is low byte first. -/
theorem test_decode_inbound :
    decodeInbound refA [0xAA, 0x01, 0x00, 0x00, 0x55] = .ok (.inGetLog []) ∧
    decodeInbound refA [0xAA, 0x02, 0x02, 0x00, 0x79, 0x7A, 0x55] = .ok (.inSetMotorLevels [0x79, 0x7A]) ∧
    decodeInbound refA [0xAA, 0x03, 0x00, 0x00, 0x55] = .ok (.inResetState []) ∧
    decodeInbound refA [0xAA, 0x04, 0x01, 0x00, 0x7E, 0x55] = .ok (.inGetState [0x7E]) ∧
    decodeInbound refA [0xAA, 0x05, 0x00, 0x00, 0x55] = .ok (.inNack []) ∧
    decodeInbound refA [0xAA, 0x06, 0x00, 0x00, 0x55] = .ok (.inAck []) ∧
    decodeInbound refA [0xAA, 0xAA, 0x00, 0x00, 0x55] = .ok (.inStart []) ∧
    decodeInbound refA [0xAA, 0x55, 0x01, 0x00, 0xAA, 0x55] = .ok (.inStop [0xAA]) := by
  refine ⟨rfl, rfl, rfl, rfl, rfl, rfl, rfl, rfl⟩

/-- The invalid forms: F5 and F7 (the length is tested before the opcode), F6, and the first frame of F8. -/
theorem test_decode_invalid :
    decodeInbound refA [0xAA, 0x04, 0x01, 0x08] = .ok (.inInvalidBadLength 0x04 0x0801 []) ∧
    decodeInbound refA [0xAA, 0x07, 0x01, 0x08] = .ok (.inInvalidBadLength 0x07 0x0801 []) ∧
    decodeInbound refA [0xAA, 0x07, 0x00, 0x00, 0x55] = .ok (.inInvalidBadOpcode 0x07 0x0000 [0x55]) ∧
    decodeInbound refA [0xAA, 0x04, 0x01, 0x00, 0x7E, 0x00] = .ok (.inInvalidBadTerminator .getState [0x7E] 0x00) := by
  refine ⟨rfl, rfl, rfl, rfl⟩

/-- The encoder writes the same frames (F1, E13). -/
theorem test_encode_frames :
    encode refA (.inGetState [0x7E]) = [0xAA, 0x04, 0x01, 0x00, 0x7E, 0x55] ∧
    encode refA (.outSetMotorLevels 0xF9 0xFA) = [0xAA, 0x02, 0xF9, 0xFA, 0x55] := ⟨rfl, rfl⟩

/-- The reset state on a platform that hands requests over as they stand. -/
def resetAtPort : State := { State.reset with cfg := { Config.platform with platformMap := none } }
/-- A table word of the command port is fetched and run by the first step from reset. -/
theorem test_withFetchWord :
    step (State.reset.withFetchWord 8 1) = exec .dequeue resetAtPort ∧
      step (State.reset.withFetchWord 8 3) = exec .reset resetAtPort := ⟨rfl, rfl⟩
/-- A platform's transport gives the request that its bytes stand for. -/
theorem test_platform_map :
    commandRequest { refA with platformMap := some 7 } [0x01] = Config.platformTransport 7 [0x01] ∧
      fetchInstr refA .command [0x01] = .ok .dequeue := ⟨rfl, rfl⟩

/-! ### 3. One step of each kind -/

/-- Q1, Q2, Q3, Q5, Q8, Q12, Q14, Q15, Q16, Q20, Q22, Q23, Q24, Q26, Q27, Q29. -/
theorem test_quantize :
    quantizeExact 1 false = 0xF9 ∧ quantizeExact (-1) false = 0xFA ∧ quantizeExact 1 true = 0xFB ∧
    quantizeExact (1 / 2) false = 0x79 ∧ quantizeExact (-1 / 4) true = 0x3B ∧ quantizeExact (1 / 10) false = 0x15 ∧
    quantizeExact (9 / 100) true = 0x03 ∧ quantizeExact (49 / 506) false = 0x00 ∧
    quantizeExact (49 / 506 + 1 / 1000000000) false = 0x15 ∧ quantizeExact 0 true = 0x03 ∧
    quantizeExact (-3) false = 0xFA ∧ quantizeExact (1799 / 16192) false = 0x19 ∧
    quantizeExact (899 / 8096) false = 0x15 ∧ quantizeExact (16191 / 16192) false = 0xF9 ∧
    quantizeExact (8095 / 8096) false = 0xF5 ∧ quantizeExact (257 / 506 - 1 / 1000000) false = 0x79 := by
  decide +kernel

/-- The known values of `refQ` are the adjacent results; far from a boundary no function is asked. -/
theorem test_quantize_boundary :
    quantizeByte refQ (49 / 506) false = 0x15 ∧ quantizeByte refQ (1799 / 16192) false = 0x15 ∧
      quantizeByte refQ (1 / 2) false = 0x79 := by decide +kernel

/-- What an operation answers. -/
def answered (o : Host.Outcome State Fault Refusal) : Option (Status × Result × List Event) :=
  match o with
  | .next t => some (t.resp.status, t.resp.result, t.resp.events)
  | .fault _ => none
  | .refused _ => none

/-- What a step leaves: accumulator length, phase, start, cur_opcode, cur_length, last_stop, bad_count, queue length,
HEALTH.word. -/
structure Left where
  accLen : Nat
  phase : Phase
  start : Option Nat
  curOpcode : Option Byte
  curLength : Option Nat
  lastStop : Option Nat
  badCount : Nat
  queued : Nat
  word : BitVec 32
deriving DecidableEq, Repr

def left (o : Host.Outcome State Fault Refusal) : Option Left :=
  match o with
  | .next t =>
    some ⟨t.blk.acc.length, t.blk.phase, t.blk.start, t.blk.curOpcode, t.blk.curLength, t.blk.lastStop, t.blk.badCount,
      t.blk.queue.length, statusWord t.blk⟩
  | .fault _ => none
  | .refused _ => none

/-- E3. -/
theorem test_encode : answered (exec (.encode .start 0xAA 0x55) idle) =
    some (.ok, .frame [0xAA, 0xAA, 0xAA, 0x55, 0x55], []) := by decide +kernel
/-- E11. -/
theorem test_encodeParamless : answered (exec (.encodeParamless .stop) idle) =
    some (.ok, .frame [0xAA, 0x55, 0x00, 0x00, 0x55], []) := by decide +kernel
/-- E17. -/
theorem test_encodeMotor : answered (exec (.encodeMotor .getLog (1 / 2) 0 false true) idle) =
    some (.ok, .frame [0xAA, 0x01, 0x79, 0x03, 0x55], []) := by decide +kernel
/-- E13, by its frame row. -/
theorem test_outSetMotorLevels : answered (exec (.outSetMotorLevels 0xF9 0xFA) idle) =
    some (.ok, .frame [0xAA, 0x02, 0xF9, 0xFA, 0x55], []) := by decide +kernel

/-- F3, the second FEED: the header is whole. -/
theorem test_feed_header : left (exec (.feed [0x01, 0x00]) (fed idle [0xAA, 0x04])) =
    some ⟨4, .seekingBody, some 0, some 0x04, some 1, none, 0, 0, 0x2⟩ := by decide +kernel
/-- F9: the second frame of the batch is lost. -/
theorem test_feed_two_frames :
    answered (exec (.feed [0xAA, 0x04, 0x01, 0x00, 0x7E, 0x55, 0xAA, 0x06, 0x00, 0x00, 0x55]) idle) =
      some (.ok, .none, [.frame 0x04 1]) := by decide +kernel
/-- F1, by its frame row. -/
theorem test_inGetState : left (exec (.inGetState [0x7E]) idle) =
    some ⟨0, .seekingStart, none, none, none, none, 0, 1, 0x140⟩ := by decide +kernel
/-- F5: length 2049. -/
theorem test_inInvalidBadLength : answered (exec (.inInvalidBadLength 0x04 0x0801 []) idle) =
    some (.ok, .none, [.desync .badLength 1 4]) := by decide +kernel
/-- F6: opcode 07. -/
theorem test_inInvalidBadOpcode : answered (exec (.inInvalidBadOpcode 0x07 0 [0x55]) idle) =
    some (.ok, .none, [.desync .badOpcode 1 5]) := by decide +kernel
/-- F21: a start marker in the terminator position; the next byte arrives with it. -/
theorem test_bad_terminator : left (exec (.feed [0xAA, 0x04, 0x01, 0x00, 0xAA, 0x00]) idle) =
    some ⟨2, .seekingHeader, some 0, none, none, none, 1, 0, 0x5⟩ := by decide +kernel
/-- F8. -/
theorem test_feed_recovers :
    answered (exec (.feed [0xAA, 0x04, 0x01, 0x00, 0x7E, 0x00, 0xAA, 0x04, 0x01, 0x00, 0x7F, 0x55]) idle) =
      some (.ok, .none, [.desync .badTerminator 1 6, .frame 0x04 1]) := by decide +kernel
/-- F20b: six bad frames in one batch. -/
theorem test_feed_persistent :
    answered (exec (.feed ((List.range 6).flatMap fun _ => [0xAA, 0x07, 0x00, 0x00, 0x55])) idle) =
      some (.ok, .none, [.desync .badOpcode 1 5, .desync .badOpcode 1 5, .desync .badOpcode 1 5,
        .desync .badOpcode 1 5, .desync .badOpcode 1 5, .persistentDesync, .desync .badOpcode 1 5]) := by
  decide +kernel
/-- F17, the second FEED: the overflow guard keeps the frame in progress. -/
theorem test_feed_overflow_compacts :
    answered (exec (.feed [3, 4, 5, 6, 7, 8, 9, 10, 11, 12, 13, 14, 15, 16, 17, 18, 19, 20, 0x55])
      (fed idle (n 40 0x11 ++ [0xAA, 0x04, 0x14, 0x00, 0x01, 0x02]))) =
      some (.ok, .none, [.desync .overflow 0 40, .frame 0x04 20]) := by decide +kernel
/-- F18, the second FEED: the compaction drops nothing, so the second step clears. -/
theorem test_feed_overflow_clears :
    left (exec (.feed (n 30 0x22)) (fed idle ([0xAA, 0x04, 0x3C, 0x00] ++ n 40 0x11))) =
      some ⟨30, .seekingStart, none, none, none, none, 1, 0, 0x4⟩ := by decide +kernel
/-- P5, #257: the frozen state. -/
theorem test_feed_fatal : left (exec (.feed [0xAA, 0x04, 0x00, 0x00, 0x55]) full) =
    some ⟨5, .seekingBody, some 0, some 0x04, some 0, some 4, 0, 256, 0x00010062⟩ := by decide +kernel
/-- P5, the variant with an earlier event. -/
theorem test_feed_fatal_variant :
    answered (exec (.feed [0x11, 0xAA, 0x07, 0x00, 0x00, 0x55, 0xAA, 0x04, 0x02, 0x00, 0xAA, 0x55, 0x55]) full) =
      some (.ok, .none, [.desync .badOpcode 2 6, .fatalQueueOverflow 0x04 2]) := by decide +kernel

/-- D9, and the second DEQUEUE of F9. -/
theorem test_dequeue :
    answered (exec .dequeue halted) = some (.refused .halted, .none, []) ∧
      answered (exec .dequeue (fed idle [0xAA, 0x04, 0x01, 0x00, 0x7E, 0x55])) =
        some (.ok, .entry ⟨0x04, [0x7E]⟩, []) := by decide +kernel
/-- D8: HEALTH of the halted block. -/
theorem test_health : (healthRecord halted.blk).queueCount = 256 ∧ (healthRecord halted.blk).word = 0x00010062 := by
  decide +kernel
/-- D10: RESET leaves the halt. -/
theorem test_reset : left (exec .reset halted) =
    some ⟨0, .seekingStart, none, none, none, none, 0, 0, 0⟩ := by decide +kernel

/-- T1. -/
theorem test_telemetry :
    telemetry [0x79, 0x7A, 0x00, 0x01, 0x40, 0xE2, 0x01, 0x00, 0xFE, 0xFF, 0xFF, 0xFF, 0xE8, 0x1C, 0x02, 0xF1, 0xFF,
        0x62, 0xFF, 0xFF, 0x78, 0x56, 0x34, 0x12, 0x01, 0x88, 0x13, 0x00, 0x00] =
      some ⟨0x79, 0x7A, 0, 1, 123456, -2, 7400, 2, -15, 98, -1, 0x12345678, 1, 5000, 0⟩ := by decide +kernel
/-- T4: 28 bytes give NONE. -/
theorem test_telemetry_short : telemetry (n 28 0) = none := by decide +kernel
/-- The value T2 gives, at the extremes of each field. -/
def extremes : Telemetry :=
  ⟨0, 255, 0x80, 0x7F, -2147483648, 2147483647, -32768, 0xFF, 32767, 0, 32767, -1, 0, -1, 1⟩
/-- T2. -/
theorem test_telemetry_bytes :
    telemetryBytes extremes =
      [0x00, 0xFF, 0x80, 0x7F, 0x00, 0x00, 0x00, 0x80, 0xFF, 0xFF, 0xFF, 0x7F, 0x00, 0x80, 0xFF, 0xFF, 0x7F, 0x00, 0xFF,
        0x7F, 0xFF, 0xFF, 0xFF, 0xFF, 0x00, 0xFF, 0xFF, 0x01, 0x00] := by decide +kernel

/-- The events' codes (60_exceptions.md rule R120). -/
theorem test_event_codes :
    eventCode (.frame 0 0) = 0x01 ∧ eventCode (.desync .badLength 0 0) = 0x10 ∧
      eventCode (.desync .badOpcode 0 0) = 0x11 ∧ eventCode (.desync .badTerminator 0 0) = 0x12 := by decide

/-! ### 4. The statements' hypotheses are met -/

/-- The outcome is a next state of which this holds. -/
def Goes (o : Host.Outcome State Fault Refusal) (P : State → Prop) : Prop := ∃ t, o = .next t ∧ P t

/-- Three garbage bytes wait (F4). -/
def garbage : State := rest [0x11, 0x22, 0x33] 0 []
/-- A header waits for its body (F3). -/
def inBody : State := fed idle [0xAA, 0x04, 0x01, 0x00]
/-- One frame waits in the queue (F1). -/
def oneQueued : State := fed idle [0xAA, 0x04, 0x01, 0x00, 0x7E, 0x55]
/-- 255 frames wait. -/
def almostFull : State := rest [] 0 (List.replicate 255 ⟨0x04, []⟩)
/-- A frame of the longest length fits. -/
def roomy : State := { idle with cfg := refB }

theorem witness_exactQuantizer : idle.cfg.qBoundary = none := rfl
/-- EncodeMotorCarriesLeftThenRight, QuantizeFollowsItsFiveSteps: the hypothesis, in a halted state as well. -/
theorem witness_exactQuantizer_halted : halted.cfg.qBoundary = none ∧ halted.blk.halted = true := by decide +kernel
/-- QuantizerMagnitudeIntervals, at the ends of its range. -/
theorem witness_QuantizerMagnitudeIntervals :
    (49 / 506 : Rat) < |1799 / 16192| ∧ (5 : Nat) ≤ 5 ∧ (5 : Nat) ≤ 61 ∧ (61 : Nat) ≤ 61 ∧
      (257 * (5 + 1) / 16192 : Rat) ≤ |1 / 10| ∧ |(1 / 10 : Rat)| < 257 * (5 + 2) / 16192 ∧
      (16191 / 16192 : Rat) ≤ |(-1)| := by decide +kernel
theorem witness_BrakeSetsBothBitsAndKeepsMagnitude : |(49 / 506 : Rat)| ≤ 49 / 506 := by decide +kernel
theorem witness_QuantizerClampsBeyondTheContractRange : (1 : Rat) < 2 ∧ (-3 : Rat) < -1 := by decide +kernel
theorem witness_OppositeInputsShareTheMagnitude : (49 / 506 : Rat) < 1 / 10 := by decide +kernel
/-- Both ways a table may differ from the exact result: across the dead-zone bound, and across the bound of 6. -/
theorem witness_BoundaryTableGivesExactOrAdjacentResult :
    refQ.Legal ∧ refQ.qBoundary = some ⟨1 / 1000000, [⟨49 / 506, false, 0x15⟩, ⟨1799 / 16192, false, 0x15⟩], 0⟩ ∧
      refQ.qBoundary.bind (·.entries.find? fun e => e.x == 49 / 506 && e.brake == false) = some ⟨49 / 506, false, 0x15⟩ ∧
      quantizeByte refQ (49 / 506) false ≠ quantizeExact (49 / 506) false ∧
      quantizeByte refQ (1799 / 16192) false ≠ quantizeExact (1799 / 16192) false := by decide +kernel
theorem witness_DeadZoneMotorCommandIsZeroPayload :
    idle.cfg.qBoundary = none ∧ |(49 / 506 : Rat)| ≤ 49 / 506 ∧ |(-9 / 100 : Rat)| ≤ 49 / 506 := by decide +kernel
theorem witness_EncoderIsPureAndNeverRefused :
    Instr.outAck ≠ .health ∧ (∀ a : Agent, mayIssue a .outAck = true) ∧
      idle.cfg.opcodeBytes = refA.opcodeBytes ∧ idle.cfg.qBoundary = refA.qBoundary :=
  ⟨by decide, by intro a; cases a <;> rfl, rfl, rfl⟩
theorem witness_OverlongBatchIsRefused : idle.blk.halted = false ∧ idle.cfg.batchMax < (n 65 0x11).length := by
  decide +kernel
theorem witness_HaltedBlockRefusesFeedAndDequeueOnly : halted.blk.halted = true := by decide +kernel
/-- FeedCompletesSettledOrHalted, LastStopIsStoredAndNeverRead, FeedReadsNoRestingRegister: the longest batch. -/
theorem witness_performedFeed : idle.blk.halted = false ∧ (n 64 0x11).length ≤ idle.cfg.batchMax := by decide +kernel
/-- The three clauses: no start marker; three bytes of a header; the longest length, with an empty body. -/
theorem witness_FeedKeepsWaitingBytes :
    idle.blk.halted = false ∧ (4 : Nat) ≤ idle.cfg.batchMax ∧ idle.blk.acc.length + 4 ≤ idle.cfg.accCap ∧
    firstStart refA [0x11, 0x22, 0x33] 0 = none ∧
    (firstStart refA [0x11, 0xAA, 0x04, 0x01] 0 = some 1 ∧ [0x11, 0xAA, 0x04, (0x01 : Byte)].length - 1 < 4) ∧
    (firstStart refA [0xAA, 0x04, 0x00, 0x08] 0 = some 0 ∧
      (0x00 : Byte).toNat + 256 * (0x08 : Byte).toNat ≤ 2048 ∧ recognized refA 0x04 = true ∧
      [0xAA, 0x04, 0x00, (0x08 : Byte)].length < 0 + 4 + (0 + 256 * 8) + 1) := by decide +kernel
theorem witness_EmptyFeedChangesNothing :
    Block.Inv inBody.cfg inBody.blk ∧ inBody.blk.halted = false := by decide +kernel
/-- Both branches: the garbage fits, and it does not. -/
theorem witness_GarbageIsKeptOrClearedNeverEmitted :
    garbage.blk.halted = false ∧ (n 61 0x11).length ≤ garbage.cfg.batchMax ∧ NoStart garbage.cfg garbage.blk.acc ∧
    NoStart garbage.cfg (n 61 0x11) ∧ garbage.blk.acc.length + (n 61 0x11).length ≤ garbage.cfg.accCap ∧
    ((n 62 0x11).length ≤ garbage.cfg.batchMax ∧ NoStart garbage.cfg (n 62 0x11) ∧
      ¬ garbage.blk.acc.length + (n 62 0x11).length ≤ garbage.cfg.accCap) := by decide +kernel
/-- Both clauses at the boundary: 64 bytes fit, 65 do not. -/
theorem witness_OverflowGuardCompactsThenClears :
    inBody.cfg.Legal ∧ inBody.blk.halted = false ∧ (n 61 0).length ≤ inBody.cfg.batchMax ∧
      inBody.blk.acc.length + (n 60 0).length ≤ inBody.cfg.accCap ∧
      inBody.cfg.accCap < inBody.blk.acc.length + (n 61 0).length := by decide +kernel
theorem witness_LastStopIsStoredAndNeverRead :
    lastStop refA [0x55, 0x11] = some 0 ∧ lastStop refA [0x11] = none ∧ oneQueued.blk.halted = false := by
  decide +kernel
theorem witness_RecognizedBytesAreTheEightOpcodes : refA.Legal := by decide +kernel
/-- The longest frame, behind garbage and with one place left in the queue. -/
theorem witness_LegalFrameInOneBatchIsQueued :
    roomy.blk.halted = false ∧ (n 2048 0).length ≤ 2048 ∧ (n 2048 0).length + 5 ≤ roomy.cfg.batchMax ∧
    roomy.blk.acc.length + ((n 2048 0).length + 5) ≤ roomy.cfg.accCap ∧ NoStart roomy.cfg roomy.blk.acc ∧
    roomy.blk.queue.length < 256 ∧
    (almostFull.blk.halted = false ∧ (n 59 0).length + 5 ≤ almostFull.cfg.batchMax ∧
      almostFull.blk.acc.length + ((n 59 0).length + 5) ≤ almostFull.cfg.accCap ∧
      NoStart almostFull.cfg almostFull.blk.acc ∧ almostFull.blk.queue.length < 256) := by decide +kernel
/-- Both branches: the least length that is too long with no further start marker, and a start marker in the length. -/
theorem witness_BadLengthIsDesync :
    garbage.blk.halted = false ∧ 2048 < (0x0801 : BitVec 16).toNat ∧ 2048 < (0x08AA : BitVec 16).toNat ∧
    (n 0 0).length + 4 ≤ garbage.cfg.batchMax ∧ garbage.blk.acc.length + ((n 0 0).length + 4) ≤ garbage.cfg.accCap ∧
    NoStart garbage.cfg garbage.blk.acc ∧
    firstStart garbage.cfg (garbage.blk.acc ++ [0xAA, 0x04, lengthLow 0x0801, lengthHigh 0x0801]) 4 = none ∧
    firstStart garbage.cfg (garbage.blk.acc ++ [0xAA, 0x04, lengthLow 0x08AA, lengthHigh 0x08AA]) 4 = some 5 := by
  decide +kernel
/-- Both branches: the greatest length that is not too long, and a start marker in the length. -/
theorem witness_BadOpcodeIsDesync :
    garbage.blk.halted = false ∧ (0x0800 : BitVec 16).toNat ≤ 2048 ∧ (0x00AA : BitVec 16).toNat ≤ 2048 ∧
    recognized garbage.cfg 0x07 = false ∧
    (n 0 0).length + 4 ≤ garbage.cfg.batchMax ∧ garbage.blk.acc.length + ((n 0 0).length + 4) ≤ garbage.cfg.accCap ∧
    NoStart garbage.cfg garbage.blk.acc ∧
    firstStart garbage.cfg (garbage.blk.acc ++ [0xAA, 0x07, lengthLow 0x0800, lengthHigh 0x0800]) 4 = none ∧
    firstStart garbage.cfg (garbage.blk.acc ++ [0xAA, 0x07, lengthLow 0x00AA, lengthHigh 0x00AA]) 4 = some 5 := by
  decide +kernel
/-- Both branches: F8's first frame, and F21's start marker in the terminator position, which then waits. -/
theorem witness_BadTerminatorIsDesync :
    garbage.blk.halted = false ∧ [(0x7E : Byte)].length ≤ 2048 ∧ (0x00 : Byte) ≠ stopByte garbage.cfg ∧
    (0xAA : Byte) ≠ stopByte garbage.cfg ∧ [(0x7E : Byte)].length + 5 ≤ garbage.cfg.batchMax ∧
    garbage.blk.acc.length + ([(0x7E : Byte)].length + 5) ≤ garbage.cfg.accCap ∧
    NoStart garbage.cfg garbage.blk.acc ∧
    firstStart garbage.cfg (garbage.blk.acc ++ [0xAA, 0x04, 0x01, 0x00, 0x7E, 0x00]) 4 = none ∧
    firstStart garbage.cfg (garbage.blk.acc ++ [0xAA, 0x04, 0x01, 0x00, 0x7E, 0xAA]) 4 = some 8 ∧
    Goes (exec (.inInvalidBadTerminator .getState [0x7E] 0xAA) garbage) fun t =>
      t.resp.events = [.desync .badTerminator 4 8] ∧ t.blk.acc = [0xAA] ∧ t.blk.phase = .seekingHeader :=
  ⟨by decide +kernel, by decide +kernel, by decide +kernel, by decide +kernel, by decide +kernel, by decide +kernel,
    by decide +kernel, by decide +kernel, by decide +kernel, _, rfl, by decide +kernel⟩
/-- A FEED that raises the guard's DESYNC_EVENT, PERSISTENT_DESYNC behind it, and a FRAME. -/
theorem witness_EventsComeInTheOrderOfTheActions :
    Goes (exec (.feed [0xAA, 0x04, 0x00, 0x00, 0x55]) (rest (n 60 0x11) 4 [])) fun t =>
      t.resp.events = [.desync .overflow 0 60, .persistentDesync, .frame 0x04 0] := ⟨_, rfl, by decide +kernel⟩
/-- Each clause: a FRAME, a FATAL_QUEUE_OVERFLOW, and neither. -/
theorem witness_AtMostOneEmitPerFeed :
    (Goes (exec (.feed [0xAA, 0x04, 0x00, 0x00, 0x55]) idle) fun t => .frame 0x04 0 ∈ t.resp.events) ∧
    (Goes (exec (.feed [0xAA, 0x04, 0x00, 0x00, 0x55]) full) fun t => .fatalQueueOverflow 0x04 0 ∈ t.resp.events) ∧
    Goes (exec (.feed [0x11]) idle) fun t => t.resp.events.countP isFrame = 0 :=
  ⟨⟨_, rfl, by decide +kernel⟩, ⟨_, rfl, by decide +kernel⟩, ⟨_, rfl, by decide +kernel⟩⟩
theorem witness_DesyncsAreBoundedByStartMarkers :
    classify refA [0xAA, 0x07, 0x00, 0x00, 0x55] = .reject .badOpcode 0 ∧
      Goes (exec (.feed [0xAA, 0xAA, 0xAA, 0xAA, 0xAA]) idle) fun t => t.resp.events.countP isDesync = 2 :=
  ⟨by decide +kernel, _, rfl, by decide +kernel⟩
/-- The counter at 4, and a bad frame: the fifth. -/
theorem witness_BadPacketsCountToFive :
    (rest [] 4 []).blk.badCount ≤ 4 ∧ (rest [] 4 []).blk.halted = false ∧
      Goes (exec (.feed [0xAA, 0x07, 0x00, 0x00, 0x55]) (rest [] 4 [])) fun t =>
        t.resp.events.countP isPersistent = 1 := ⟨by decide +kernel, by decide +kernel, _, rfl, by decide +kernel⟩
/-- The variant of P5: an earlier event stays; and then another instruction than RESET. -/
theorem witness_QueueOverflowHaltsAndFreezes :
    full.blk.queue.length = 256 ∧ full.blk.badCount ≤ 4 ∧
    (Goes (exec (.feed [0x11, 0xAA, 0x07, 0x00, 0x00, 0x55, 0xAA, 0x04, 0x02, 0x00, 0xAA, 0x55, 0x55]) full) fun t =>
      .fatalQueueOverflow 0x04 2 ∈ t.resp.events ∧ Goes (exec .dequeue t) fun u => u.blk.queue.length = 256) :=
  ⟨by decide +kernel, by decide +kernel, _, rfl, by decide +kernel, _, rfl, by decide +kernel⟩
theorem witness_FrameOnFullQueueHalts :
    full.blk.halted = false ∧ (n 0 0).length ≤ 2048 ∧ (n 0 0).length + 5 ≤ full.cfg.batchMax ∧
    full.blk.acc.length + ((n 0 0).length + 5) ≤ full.cfg.accCap ∧ NoStart full.cfg full.blk.acc ∧
    full.blk.queue.length = 256 := by decide +kernel
theorem witness_BytesAfterAnEmittedFrameAreLost :
    garbage.blk.halted = false ∧ [(0x7E : Byte)].length ≤ 2048 ∧
    (encode garbage.cfg (inboundRow .getState [0x7E]) ++ [0xAA, 0x06, 0x00, 0x00, 0x55]).length ≤ garbage.cfg.batchMax ∧
    garbage.blk.acc.length +
      (encode garbage.cfg (inboundRow .getState [0x7E]) ++ [0xAA, 0x06, 0x00, 0x00, 0x55]).length ≤ garbage.cfg.accCap ∧
    NoStart garbage.cfg garbage.blk.acc ∧ garbage.blk.queue.length < 256 := by decide +kernel
/-- F8, behind garbage. -/
theorem witness_CorruptFrameCostsOneDesync :
    let corrupt := encode garbage.cfg (.inInvalidBadTerminator .getState [0x7E] 0x00)
    let next := encode garbage.cfg (inboundRow .getState [0x7F])
    garbage.blk.halted = false ∧ (0x00 : Byte) ≠ stopByte garbage.cfg ∧ NoStart garbage.cfg garbage.blk.acc ∧
    NoStart garbage.cfg corrupt.tail ∧ (corrupt ++ next).length ≤ garbage.cfg.batchMax ∧
    garbage.blk.acc.length + (corrupt ++ next).length ≤ garbage.cfg.accCap ∧ garbage.blk.queue.length < 256 := by
  decide +kernel
/-- A frame in three batches behind 60 garbage bytes: the guard fires while it arrives. -/
theorem witness_FrameIsQueuedHoweverItIsCut :
    let s := rest (n 60 0x11) 0 []
    s.blk.halted = false ∧ NoStart s.cfg s.blk.acc ∧ [(0xAA : Byte)].length ≤ 2048 ∧
    [(0xAA : Byte)].length + 5 ≤ s.cfg.accCap ∧ s.blk.queue.length < 256 ∧
    (∀ batch ∈ [[0xAA, 0x04], [0x01, 0x00, 0xAA], [(0x55 : Byte)]], batch.length ≤ s.cfg.batchMax) ∧
    [[0xAA, 0x04], [0x01, 0x00, 0xAA], [(0x55 : Byte)]].flatten = encode s.cfg (inboundRow .getState [0xAA]) := by
  decide +kernel
/-- The three clauses. -/
theorem witness_DequeueTakesTheHead :
    halted.blk.halted = true ∧ (idle.blk.halted = false ∧ idle.blk.queue = []) ∧
      (oneQueued.blk.halted = false ∧ oneQueued.blk.queue = [⟨0x04, [0x7E]⟩]) := by decide +kernel
/-- In a halted state and in one that waits for a body. -/
theorem witness_HealthReportsTheFields :
    Block.Inv halted.cfg halted.blk ∧ Block.Inv inBody.cfg inBody.blk := by decide +kernel
theorem witness_StatusWordPacksTheFields :
    (rest [] 4 []).blk.badCount ≤ 4 ∧ full.blk.queue.length ≤ 256 := by decide +kernel
theorem witness_ResetReturnsTheBlockToItsResetValues :
    halted.blk.halted = true ∧ Instr.health ≠ .reset ∧ Goes (exec .health halted) fun u => u.blk.halted = true :=
  ⟨by decide +kernel, by decide, _, rfl, by decide +kernel⟩
/-- QueueChangesOnlyByEmitDequeueReset, by its four branches. -/
theorem witness_QueueChangesOnlyByEmitDequeueReset :
    (Goes (exec .reset oneQueued) fun t => t.blk.queue = []) ∧
    (Goes (exec .dequeue oneQueued) fun t => t.blk.queue = []) ∧
    (Goes (exec (.inAck []) oneQueued) fun t => t.resp.events.any isFrame = true ∧ t.blk.queue.length = 2) ∧
    Goes (exec .health oneQueued) fun t => t.blk.queue.length = 1 :=
  ⟨⟨_, rfl, by decide +kernel⟩, ⟨_, rfl, by decide +kernel⟩, ⟨_, rfl, by decide +kernel⟩, ⟨_, rfl, by decide +kernel⟩⟩
theorem witness_OnlyOverflowHaltsAndOnlyResetResumes :
    (full.blk.halted = false ∧ Goes (exec (.inGetState []) full) fun t => t.blk.halted = true) ∧
    (halted.blk.halted = true ∧ Goes (exec (.inGetState []) halted) fun t => t.blk.halted = true) ∧
    Goes (exec .reset halted) fun t => t.blk.halted = false :=
  ⟨⟨by decide +kernel, _, rfl, by decide +kernel⟩, ⟨by decide +kernel, _, rfl, by decide +kernel⟩,
    _, rfl, by decide +kernel⟩
theorem witness_RunMarksRecordFaultsAndRefusals :
    (Goes (exec (.inGetState []) full) fun t => t.runFaulted = true) ∧
      Goes (exec .dequeue halted) fun t => t.resp.status ≠ .ok ∧ t.runRefused = true :=
  ⟨⟨_, rfl, by decide +kernel⟩, _, rfl, by decide +kernel⟩
/-- Lengths 28 and 29. -/
theorem witness_TelemetryReadsFieldsAtTheirOffsets :
    (n 28 0).length < 29 ∧ 29 ≤ (n 29 0).length ∧ telemetry (telemetryBytes extremes) = some extremes := by
  decide +kernel
theorem witness_TelemetryRoundTrip :
    (∀ v ∈ [extremes.ctrlLeft, extremes.ctrlRight, extremes.faultLeft, extremes.faultRight, extremes.safetyStatus,
      extremes.stateOfHealth, extremes.wirelessAttached], v ≤ 255) ∧
    (∀ v ∈ [extremes.batteryMv, extremes.temperature, extremes.flags, extremes.usbChargerMv, extremes.wirelessVrectMv],
      -32768 ≤ v ∧ v ≤ 32767) ∧
    (∀ v ∈ [extremes.encoderLeft, extremes.encoderRight, extremes.chargerDetails],
      -2147483648 ≤ v ∧ v ≤ 2147483647) := by decide +kernel
theorem witness_TelemetryFrameArrivesEndToEnd :
    garbage.blk.halted = false ∧ garbage.blk.queue = [] ∧ NoStart garbage.cfg garbage.blk.acc ∧
    34 ≤ garbage.cfg.batchMax ∧ garbage.blk.acc.length + 34 ≤ garbage.cfg.accCap ∧
    telemetry (telemetryBytes extremes) = some extremes := by decide +kernel
theorem witness_CommandDecodeOfEncode :
    channelOf (.encodeMotor .setMotorLevels (1 / 4) (-1 / 4) true true) = .command ∧ refA.platformMap = none ∧
      commandRequest refA (encode refA .dequeue ++ [0xFF]) = encode refA .dequeue ++ [0xFF] := ⟨rfl, rfl, rfl⟩
/-- An outbound row, a frame, and the longest tail of each invalid form. -/
theorem witness_WireDecodeOfEncode :
    refA.Legal ∧ ([Instr.outSetMotorLevels 0xF9 0xFA, .inStop (n 2048 0xAA), .inInvalidBadLength 0x04 2049 (n 2050 0),
      .inInvalidBadOpcode 0x07 0 [0x55], .inInvalidBadTerminator .ack [] 0x00].all fun i =>
        i.wf refA && channelOf i != .command) = true := by decide +kernel
theorem witness_WireEncodeOfDecode :
    Channel.inbound ≠ .command ∧ decodeOn refA .inbound [0xAA, 0x04, 0x00, 0x00, 0x55] = .ok (.inGetState []) ∧
      Channel.outbound ≠ .command ∧ decodeOn refA .outbound [0xAA, 0x04, 0x00, 0x00, 0x55] = .ok .outGetState :=
  ⟨by decide, rfl, by decide, rfl⟩
theorem witness_WrittenOutWordsDecode : refA.Legal := by decide +kernel
/-- No request; a request that decodes; a request that does not. -/
theorem witness_StepRunsTheDecodedInstruction :
    idle.requests = [] ∧
    fetchInstr idle.cfg .command [0x01] = .ok .dequeue ∧
    fetchInstr idle.cfg .outbound [0x01] = .error .notFiveBytes := ⟨rfl, rfl, rfl⟩
/-- Bytes that are one row, and bytes that are none. -/
theorem witness_InboundBytesAreFed :
    fetchInstr refA .inbound [0xAA, 0x04, 0x00, 0x00, 0x55] = .ok (.inGetState []) ∧
      fetchInstr refA .inbound [0x11] = .ok (.feed [0x11]) := ⟨rfl, rfl⟩
/-- One request of each agent. -/
def busy : State :=
  { idle with requests := [⟨.inbound, .inbound, [0xAA, 0x04, 0x00, 0x00, 0x55]⟩, ⟨.consumer, .command, [0x01]⟩,
      ⟨.host, .command, [0x03]⟩] }
theorem witness_StepAlwaysGoesOn : ∀ r ∈ busy.requests, requestWf busy.cfg r = true := by decide +kernel
theorem witness_AgentsIssueTheirOwnOperations :
    channelOf (.inAck []) = .inbound ∧ channelOf .outAck = .outbound := ⟨rfl, rfl⟩
theorem witness_StepKeepsTheInvariants :
    State.Inv busy ∧ Goes (step busy) fun t => t.blk.queue.length = 1 := ⟨by decide +kernel, _, rfl, by decide +kernel⟩

end Sys2Proof.Tests
end

