-- ==== Sys2Proof/Proofs/Scope.lean ====
section
/-!
PROOFS. The set RECOG of 00_scope.md rule R9: the image of the eight opcodes under the injective `opcodeByte`.
-/
namespace Sys2Proof.Proofs.Scope
open Sys2Proof Sys2Proof.Machine

theorem card_allOpcodes : allOpcodes.toFinset.card = 8 := rfl

/-- RECOG as a set of byte values is the image of the enumeration. -/
theorem filter_recognized_eq_image (c : Config) :
    (Finset.univ.filter fun n : Fin 256 => recognized c (BitVec.ofFin n) = true) =
      allOpcodes.toFinset.image fun o => (opcodeByte c o).toFin := by
  ext n
  simp only [Finset.mem_filter_univ, Finset.mem_image, List.mem_toFinset, recognized_iff]
  constructor
  · rintro ⟨o, ho⟩
    exact ⟨o, mem_allOpcodes o, congrArg BitVec.toFin ho⟩
  · rintro ⟨o, -, ho⟩
    exact ⟨o, congrArg BitVec.ofFin ho⟩

theorem card_filter_recognized {c : Config} (h : c.opcodeBytes.toList.Nodup) :
    (Finset.univ.filter fun n : Fin 256 => recognized c (BitVec.ofFin n) = true).card = 8 := by
  have toFin_injective : Function.Injective fun o => (opcodeByte c o).toFin :=
    fun _ _ e => opcodeByte_injective h (BitVec.toFin_inj.1 e)
  rw [filter_recognized_eq_image, Finset.card_image_of_injective _ toFin_injective, card_allOpcodes]

/-- Settles O24: membership is `recognized_iff`, and the count is that of an injective image of eight opcodes. -/
theorem recognizedBytesAreTheEightOpcodes : Obligations.RecognizedBytesAreTheEightOpcodes := by
  rintro c ⟨hdistinct, -⟩
  exact ⟨fun _ => recognized_iff, card_filter_recognized hdistinct, recognized_opcodeByte c .start,
    recognized_opcodeByte c .stop, startByte_ne_stopByte hdistinct⟩

end Sys2Proof.Proofs.Scope
end

