-- ==== Sys2Proof/Proofs/StatusWord.lean ====
section
/-!
PROOFS. The packed status word of 10_state.md rule R37. Each field is shifted above everything packed before it, so the
disjunction of the rule is a sum; every field, and each reserved range, is then a quotient and remainder of that sum.
-/
namespace Sys2Proof.Proofs.StatusWord
open Sys2Proof Sys2Proof.Machine

theorem phaseCode_ne_three (p : Phase) : phaseCode p ≠ 3#2 := by
  cases p <;> decide

@[simp] theorem flagWord_toNat (f : Bool) : (flagWord f).toNat = f.toNat := by
  cases f <;> rfl

theorem frameAvailable_eq_not_isEmpty (b : Block) : frameAvailable b = !b.queue.isEmpty := by
  cases hq : b.queue <;> simp [frameAvailable, hq]

/-- Packing a field above a word that ends below it adds the field at its weight. -/
theorem toNat_or_shiftLeft {low field : BitVec 32} {k : Nat} (hlow : low.toNat < 2 ^ k)
    (hfield : field.toNat * 2 ^ k < 2 ^ 32) : (low ||| field <<< k).toNat = low.toNat + field.toNat * 2 ^ k := by
  have hshift : (field <<< k).toNat = field.toNat <<< k := by
    rw [BitVec.toNat_shiftLeft, Nat.mod_eq_of_lt (by rwa [Nat.shiftLeft_eq])]
  rw [BitVec.toNat_or, hshift, Nat.or_comm, ← Nat.shiftLeft_add_eq_or_of_lt hlow, Nat.shiftLeft_eq, Nat.add_comm]

/-- The packing of R37 for any five fields that fit their bits: from the lowest field up, each addition keeps the word
below the next field's first bit. -/
theorem toNat_packed {phase badCount halted available count : BitVec 32} (hphase : phase.toNat < 4)
    (hbad : badCount.toNat < 8) (hhalted : halted.toNat ≤ 1) (havailable : available.toNat ≤ 1)
    (hcount : count.toNat < 512) :
    (phase ||| badCount <<< 2 ||| halted <<< 5 ||| available <<< 6 ||| count <<< 8).toNat =
      phase.toNat + badCount.toNat * 2 ^ 2 + halted.toNat * 2 ^ 5 + available.toNat * 2 ^ 6 + count.toNat * 2 ^ 8 := by
  have below5 := toNat_or_shiftLeft (low := phase) (field := badCount) (k := 2) (by omega) (by omega)
  have below6 := toNat_or_shiftLeft (low := phase ||| badCount <<< 2) (field := halted) (k := 5) (by omega) (by omega)
  have below7 := toNat_or_shiftLeft (low := phase ||| badCount <<< 2 ||| halted <<< 5) (field := available) (k := 6)
    (by omega) (by omega)
  rw [toNat_or_shiftLeft (by omega) (by omega), below7, below6, below5]

/-- The word as a sum, for every block: the counts enter cut to their 3 and 9 bits. -/
theorem statusWord_toNat (b : Block) :
    (statusWord b).toNat = (phaseCode b.phase).toNat + 4 * (b.badCount % 8) + 32 * b.halted.toNat +
      64 * (!b.queue.isEmpty).toNat + 256 * (b.queue.length % 512) := by
  have hphase := (phaseCode b.phase).isLt
  have phase_toNat : ((phaseCode b.phase).zeroExtend 32).toNat = (phaseCode b.phase).toNat :=
    BitVec.toNat_setWidth_of_le (by omega)
  have badCount_toNat : ((BitVec.ofNat 3 b.badCount).zeroExtend 32).toNat = b.badCount % 8 :=
    BitVec.toNat_setWidth_of_le (by omega)
  have count_toNat : ((BitVec.ofNat 9 b.queue.length).zeroExtend 32).toNat = b.queue.length % 512 :=
    BitVec.toNat_setWidth_of_le (by omega)
  have halted_le := b.halted.toNat_le
  have available_le := (!b.queue.isEmpty).toNat_le
  rw [statusWord, frameAvailable_eq_not_isEmpty, toNat_packed] <;>
    simp only [phase_toNat, badCount_toNat, count_toNat, flagWord_toNat] <;> omega

/-- A bit range of a word is its quotient and remainder. -/
theorem extractLsb'_eq_iff {w len : Nat} {x : BitVec w} {start : Nat} {y : BitVec len} :
    x.extractLsb' start len = y ↔ x.toNat / 2 ^ start % 2 ^ len = y.toNat := by
  rw [← BitVec.toNat_inj, BitVec.extractLsb'_toNat, Nat.shiftRight_eq_div_pow]

/-- A single bit of a word is its quotient's parity. -/
theorem getLsbD_eq_iff {w i : Nat} {x : BitVec w} {f : Bool} :
    x.getLsbD i = f ↔ x.toNat / 2 ^ i % 2 = f.toNat := by
  rw [← BitVec.testBit_toNat, Nat.testBit_eq_decide_div_mod_eq]
  cases f <;> simp

/-- Settles O41: every clause is arithmetic on the sum `statusWord_toNat`. -/
theorem statusWordPacksTheFields : Obligations.StatusWordPacksTheFields := by
  intro b
  have hword := statusWord_toNat b
  have hphase := (phaseCode b.phase).isLt
  have hhalted := b.halted.toNat_le
  have havailable := (!b.queue.isEmpty).toNat_le
  simp only [extractLsb'_eq_iff, getLsbD_eq_iff, BitVec.toNat_ofNat, Bool.toNat_false]
  refine ⟨?phase, ?badCount, ?halted, ?frameAvailable, ?bit7, ?queueCount, ?bitsFrom17, phaseCode_ne_three b.phase, ?sum⟩
  case sum =>
    intro hbad hqueue
    rw [hword, Nat.mod_eq_of_lt (by omega), Nat.mod_eq_of_lt (by omega)]
  all_goals omega

end Sys2Proof.Proofs.StatusWord
end

