-- ==== Sys2Proof/Proofs/FrameEncoder.lean ====
section
/-!
PROOFS. The frame encoder of 40_frame_encoder.md: the request that asks for ENCODE and the frame that answers it, and the
quantizer beyond the contract range, where the clamp of rule R76 gives every input of one sign the same voltage.
-/
namespace Sys2Proof.Proofs.FrameEncoder
open Sys2Proof Sys2Proof.Machine

/-! ### ENCODE -/

/-- The opcode argument of 30_encoding.md rule R69 is read back, whatever follows it. -/
@[simp] theorem readOpcode_opcodeArgument (op : Opcode) (rest : List Byte) :
    readOpcode (opcodeArgument op :: rest) = some (op, rest) := by
  cases op <;> rfl

theorem readEncode_opcodeArgument (op : Opcode) (p0 p1 : Byte) (rest : List Byte) :
    readEncode (opcodeArgument op :: p0 :: p1 :: rest) = some (.encode op p0 p1) := by
  simp [readEncode, readByte]

/-- Selector 0b100 reads the operands of ENCODE (30_encoding.md rule R69). -/
theorem decodeCommand_of_readEncode {operands : List Byte} {i : Instr} (h : readEncode operands = some i) :
    decodeCommand (0b100#8 :: operands) = .ok i := by
  have hsel : readOperation ⟨(0b100#8).toNat % 8, Nat.mod_lt _ (by decide)⟩ operands = readEncode operands := rfl
  simp only [decodeCommand, hsel, h]

theorem exec_encode (op : Opcode) (p0 p1 : Byte) (s : State) :
    exec (.encode op p0 p1) s = answerFrame op p0 p1 s := rfl

/-- Settles O1: the request is the selector, the opcode argument and the two bytes; the answer is `answerFrame_eq`. -/
theorem encodeAnswersTheFrameOfItsBytes : Obligations.EncodeAnswersTheFrameOfItsBytes := by
  intro op p0 p1 s
  have request := decodeCommand_of_readEncode (readEncode_opcodeArgument op p0 p1 [])
  exact ⟨⟨_, request⟩, by rw [exec_encode, answerFrame_eq, outboundFrame]⟩

/-! ### QUANTIZE beyond the contract range -/

/-- From 1 on the voltage stands at the lower clamp: step 1 of 40_frame_encoder.md rule R76 negates the input. -/
theorem motorVoltage_of_one_le {x : Rat} (h : 1 ≤ x) : motorVoltage x = -(253 / 50) := by
  have habs : ¬ |x| ≤ 49 / 506 := by rw [abs_of_pos (by linarith)]; linarith
  rw [motorVoltage_cases, if_neg habs]
  split
  · rfl
  · rw [if_neg (by linarith), show x = 1 by linarith]; norm_num

theorem motorVoltage_of_le_neg_one {x : Rat} (h : x ≤ -1) : motorVoltage x = 253 / 50 := by
  have habs : ¬ |x| ≤ 49 / 506 := by rw [abs_of_neg (by linarith)]; linarith
  rw [motorVoltage_cases, if_neg habs, if_neg (by linarith)]
  split
  · rfl
  · rw [show x = -1 by linarith]; norm_num

/-- The control byte depends on the input through its voltage alone (steps 4 and 5 of rule R76). -/
theorem quantizeExact_congr {x y : Rat} (h : motorVoltage x = motorVoltage y) (brake : Bool) :
    quantizeExact x brake = quantizeExact y brake := by
  simp only [quantizeExact, h]

theorem quantizeExact_of_one_le {x : Rat} (h : 1 ≤ x) (brake : Bool) : quantizeExact x brake = quantizeExact 1 brake :=
  quantizeExact_congr (by rw [motorVoltage_of_one_le h, motorVoltage_of_one_le le_rfl]) brake

theorem quantizeExact_of_le_neg_one {x : Rat} (h : x ≤ -1) (brake : Bool) :
    quantizeExact x brake = quantizeExact (-1) brake :=
  quantizeExact_congr (by rw [motorVoltage_of_le_neg_one h, motorVoltage_of_le_neg_one le_rfl]) brake

/-- The two ends of the contract range, without brake: magnitude 62 forward and backward. -/
theorem quantizeExact_ends : quantizeExact 1 false = 0xF9 ∧ quantizeExact (-1) false = 0xFA := by decide +kernel

/-- QUANTIZE answers the byte of its configuration, for every input: no branch of it refuses. -/
theorem exec_quantize (x : Rat) (brake : Bool) (s : State) :
    exec (.quantize x brake) s = .next (answer s (.control (quantizeByte s.cfg x brake))) := rfl

/-- The answer under the default quantizer of 00_scope.md rule R8. -/
theorem exec_quantize_exact {s : State} (h : s.cfg.qBoundary = none) (x : Rat) (brake : Bool) :
    exec (.quantize x brake) s =
      .next { s with resp := { status := .ok, result := .control (quantizeExact x brake), events := [] } } := by
  rw [exec_quantize, answer_eq, quantizeByte_of_none h]

/-- Settles O8: beyond 1 in magnitude the voltage is that of the end of its sign, and the three values are those of the
ends. -/
theorem quantizerClampsBeyondTheContractRange : Obligations.QuantizerClampsBeyondTheContractRange := by
  obtain ⟨forward, backward⟩ := quantizeExact_ends
  refine ⟨fun x brake h => quantizeExact_of_one_le h.le brake, fun x brake h => quantizeExact_of_le_neg_one h.le brake,
    ?two, forward, ?negThree, fun x brake s h => exec_quantize_exact h x brake⟩
  case two => rw [quantizeExact_of_one_le (by norm_num), forward]
  case negThree => rw [quantizeExact_of_le_neg_one (by norm_num), backward]

end Sys2Proof.Proofs.FrameEncoder
end

