-- ==== Sys2Proof/Proofs/Classify.lean ====
section
/-!
PROOFS. `classify` as the pseudocode of 41_resynchronizer.md rule R88: the model matches on the bytes from the candidate on,
the rule reads them by index, and the two agree for every list of bytes.
-/
namespace Sys2Proof.Proofs.Classify
open Sys2Proof Sys2Proof.Machine

/-- NONE of `firstStart`, by index (41_resynchronizer.md rule R86). -/
theorem firstStart_eq_none_index {c : Config} {acc : List Byte} {origin : Nat} :
    firstStart c acc origin = none ↔ ∀ k : Nat, origin ≤ k → acc[k]? ≠ some (startByte c) := by
  rw [firstStart_eq_none]
  constructor
  · intro absent k hk hget
    refine absent _ (List.mem_of_getElem? (i := k - origin) ?_) rfl
    rw [List.getElem?_drop, Nat.add_sub_cancel' hk, hget]
  · rintro absent x hx rfl
    obtain ⟨k, hk⟩ := List.mem_iff_getElem?.1 hx
    exact absent (origin + k) (Nat.le_add_right _ _) (by rw [← List.getElem?_drop, hk])

theorem getD_drop (acc : List Byte) (s k : Nat) : (acc.drop s).getD k 0 = acc.getD (s + k) 0 := by
  simp only [List.getD_eq_getElem?_getD, List.getElem?_drop]

/-- The tests of a candidate with its bytes read by index, `bytes` being those from the start marker on. -/
theorem classifyCandidate_eq (c : Config) (s : Nat) (bytes : List Byte) :
    classifyCandidate c s bytes =
      if bytes.length < 4 then .waitHeader s
      else
        let len := u16le (bytes.getD 2 0) (bytes.getD 3 0)
        if maxLen < len then .reject .badLength s
        else if recognized c (bytes.getD 1 0) = false then .reject .badOpcode s
        else if bytes.length < 4 + len + 1 then .waitBody s (bytes.getD 1 0) len
        else if bytes.getD (4 + len) 0 ≠ stopByte c then .reject .badTerminator s
        else .accept s (bytes.getD 1 0) len := by
  match bytes with
  | [] | [_] | [_, _] | [_, _, _] => rfl
  | marker :: op :: lo :: hi :: body =>
    have total : (marker :: op :: lo :: hi :: body).length = body.length + 4 := rfl
    have header : ¬ body.length + 4 < 4 := by omega
    have terminator : (marker :: op :: lo :: hi :: body).getD (4 + u16le lo hi) 0 = body.getD (u16le lo hi) 0 := by
      rw [Nat.add_comm]; rfl
    simp only [classifyCandidate, total, if_neg header, List.getD_cons_succ, List.getD_cons_zero,
      terminator, Bool.not_eq_true']
    rcases Nat.lt_or_ge (u16le lo hi) body.length with whole | short
    · have notShort : ¬ body.length + 4 < 4 + u16le lo hi + 1 := by omega
      simp only [List.getElem?_eq_getElem whole, if_neg notShort, List.getD_eq_getElem _ _ whole]
    · have isShort : body.length + 4 < 4 + u16le lo hi + 1 := by omega
      simp only [List.getElem?_eq_none short, if_pos isShort]

/-- Settles O21: `firstStart` by its two characterizations, `classify` by the tests of its candidate at the first start
marker. -/
theorem classifyIsThePseudocode : Obligations.ClassifyIsThePseudocode := by
  refine ⟨fun c acc origin j => firstStart_eq_some, fun c acc origin => firstStart_eq_none_index, fun c acc => ?_⟩
  cases hs : firstStart c acc 0 with
  | none => exact classify_of_no_start hs
  | some s =>
    have short (n : Nat) : acc.length - s < 4 + n + 1 ↔ acc.length < s + 4 + n + 1 := by
      have := firstStart_lt hs
      omega
    rw [classify_of_firstStart hs, classifyCandidate_eq]
    simp only [List.length_drop, getD_drop, short, ← Nat.add_assoc s 4]
    rfl

end Sys2Proof.Proofs.Classify
end

