-- ==== Sys2Proof/Proofs/OverflowGuard.lean ====
section
/-!
PROOFS. The overflow guard of 41_resynchronizer.md rule R97 in one equation: without room it replaces the accumulator by
the bytes that rule keeps, counts, and reports; the rest of the FEED never reports an overflow.
-/
namespace Sys2Proof.Proofs.OverflowGuard
open Sys2Proof Sys2Proof.Machine

/-! ### What the guard keeps -/

/-- The accumulator from its first start marker on. -/
def compactedAcc (c : Config) (acc : List Byte) : List Byte :=
  match firstStart c acc 0 with
  | some j => acc.drop j
  | none => []

/-- What the guard leaves of an accumulator that has no room for the batch: the compacted bytes if the batch then fits,
else none. -/
def keptAcc (c : Config) (batch acc : List Byte) : List Byte :=
  if (compactedAcc c acc).length + batch.length ≤ c.accCap then compactedAcc c acc else []

theorem resync_zero_acc (c : Config) (b : Block) : (resync c 0 b).acc = compactedAcc c b.acc := by
  rw [resync_acc]; rfl

theorem keptAcc_room {c : Config} {batch : List Byte} (h : batch.length ≤ c.accCap) (acc : List Byte) :
    (keptAcc c batch acc).length + batch.length ≤ c.accCap := by
  unfold keptAcc
  split
  · assumption
  · simpa using h

/-- The second clear neither counts nor reports again, so both of the guard's steps give one equation. -/
theorem overflowGuard_of_noRoom {c : Config} {batch : List Byte} {b : Block}
    (h : c.accCap < b.acc.length + batch.length) :
    overflowGuard c batch b =
      ({ b with acc := keptAcc c batch b.acc, badCount := bumped b.badCount },
        .desync .overflow 0 (b.acc.length - (compactedAcc c b.acc).length) :: persistentAt b.badCount) := by
  rcases overflowGuard_cases c batch b with ⟨room, _⟩ | ⟨_, fits, e⟩ | ⟨_, still, e⟩
  · omega
  · rw [resync_zero_acc] at fits
    rw [e, desync_eq, resync_zero_acc, keptAcc, if_pos fits]
  · rw [resync_zero_acc] at still
    rw [e, desync_eq, resync_zero_acc, keptAcc, if_neg (by omega)]
    rfl

/-! ### No overflow is reported behind the guard -/

theorem isOverflow_of_mem_persistentAt {n : Nat} {e : Event} (h : e ∈ persistentAt n) : isOverflow e = false := by
  rw [persistentAt_eq] at h
  split at h
  · rw [List.mem_singleton.1 h]; rfl
  · cases h

theorem isOverflow_of_mem_desync {c : Config} {cause : DesyncCause} {origin : Nat} {b : Block} {e : Event}
    (hcause : cause ≠ .overflow) (h : e ∈ (desync c cause origin b).2) : isOverflow e = false := by
  rw [desync_eq] at h
  rcases List.mem_cons.1 h with rfl | h
  · cases cause with
    | overflow => exact absurd rfl hcause
    | badLength | badOpcode | badTerminator => rfl
  · exact isOverflow_of_mem_persistentAt h

theorem isOverflow_of_mem_emit {c : Config} {s len : Nat} {op : Byte} {b : Block} {e : Event}
    (h : e ∈ (emit c s op len b).2) : isOverflow e = false := by
  rcases emit_cases c s op len b with ⟨_, he⟩ | ⟨_, he⟩ <;> rw [he] at h <;> rw [List.mem_singleton.1 h] <;> rfl

/-- A pass never reports an overflow: that cause is the guard's alone (60_exceptions.md rule R120). -/
theorem isOverflow_of_mem_pass (c : Config) (b : Block) : ∀ e ∈ (pass c b).2, isOverflow e = false := by
  refine pass_induction (P := fun _ r => ∀ e ∈ r.2, isOverflow e = false) ?wait ?accept ?reject b
  case wait => intro b _ e h; cases h
  case accept => intro b s op len _ e h; exact isOverflow_of_mem_emit h
  case reject =>
    intro b cause s r hc ih e h
    rcases List.mem_append.1 h with h | h
    · exact isOverflow_of_mem_desync (classify_reject_cause hc) h
    · exact ih e h

/-! ### FEED with room and without -/

theorem feed_of_room {c : Config} {batch : List Byte} {b : Block} (h : b.halted = false)
    (hl : batch.length ≤ c.batchMax) (room : b.acc.length + batch.length ≤ c.accCap) :
    feed c batch b =
      (let p := pass c (accAppend batch b)
       (if p.1.halted then p.1 else settle c p.1, okResponse .none p.2)) := by
  rw [feed_of_ok h hl, overflowGuard_of_room room]; rfl

/-- Without room, a FEED is the FEED of its batch to the block the guard leaves, behind the guard's events. -/
theorem feed_of_noRoom {c : Config} {batch : List Byte} {b : Block} (h : b.halted = false)
    (hl : batch.length ≤ c.batchMax) (hcap : batch.length ≤ c.accCap) (noRoom : c.accCap < b.acc.length + batch.length) :
    let guarded := { b with acc := keptAcc c batch b.acc, badCount := bumped b.badCount }
    (feed c batch b).1 = (feed c batch guarded).1 ∧
      (feed c batch b).2.events =
        .desync .overflow 0 (b.acc.length - (compactedAcc c b.acc).length) ::
          (persistentAt b.badCount ++ (feed c batch guarded).2.events) := by
  intro guarded
  rw [feed_of_ok h hl, overflowGuard_of_noRoom noRoom, feed_of_room (b := guarded) h hl (keptAcc_room hcap b.acc)]
  exact ⟨rfl, rfl⟩

theorem isOverflow_of_mem_feed {c : Config} {batch : List Byte} {b : Block} (h : b.halted = false)
    (hl : batch.length ≤ c.batchMax) (room : b.acc.length + batch.length ≤ c.accCap) :
    ∀ e ∈ (feed c batch b).2.events, isOverflow e = false := by
  rw [feed_of_room h hl room]
  exact isOverflow_of_mem_pass c (accAppend batch b)

theorem exec_feed (batch : List Byte) (s : State) : exec (.feed batch) s = .next (feedState batch s) := rfl

/-- Settles O20: without room the FEED is the one behind the guard, for which there is room, and with room a FEED raises
only what its pass raises. -/
theorem overflowGuardCompactsThenClears : Obligations.OverflowGuardCompactsThenClears := by
  rintro batch s ⟨-, -, -, hmax, -⟩ hh hl
  refine ⟨fun room => ⟨_, exec_feed batch s, isOverflow_of_mem_feed hh hl room⟩, fun noRoom => ?_⟩
  have hcap : batch.length ≤ s.cfg.accCap := hl.trans hmax
  have kept_room := keptAcc_room hcap s.blk.acc
  obtain ⟨blk_eq, events_eq⟩ := feed_of_noRoom hh hl hcap noRoom
  exact ⟨_, _, exec_feed batch s, exec_feed batch _, kept_room, blk_eq, events_eq,
    isOverflow_of_mem_feed hh hl kept_room⟩

end Sys2Proof.Proofs.OverflowGuard
end

