-- ==== Sys2Proof/Proofs/LastStop.lean ====
section
/-!
PROOFS. `last_stop` (41_resynchronizer.md rule R87): what `lastStop` finds, that a performed FEED stores it, and that FEED
and DEQUEUE do not read it. For FEED more is true: two blocks that agree on the accumulator, the counter and the queue are
fed alike, whatever their resting registers hold.
-/
namespace Sys2Proof.Proofs.LastStop
open Sys2Proof Sys2Proof.Machine Sys2Proof.Proofs.OverflowGuard

/-! ### The scan for the last stop marker -/

theorem lastStop_eq_some {c : Config} {acc : List Byte} {t : Nat} :
    lastStop c acc = some t ↔ acc[t]? = some (stopByte c) ∧ ∀ k : Nat, t < k → acc[k]? ≠ some (stopByte c) := by
  simp only [lastStop, Option.map_eq_some_iff, List.findIdx?_eq_some_iff_getElem, List.getElem_reverse, beq_iff_eq,
    List.length_reverse]
  constructor
  · rintro ⟨a, ⟨ha, hstop, hlast⟩, rfl⟩
    refine ⟨List.getElem?_eq_some_iff.2 ⟨by omega, hstop⟩, fun k hk hget => ?_⟩
    obtain ⟨hkl, hget⟩ := List.getElem?_eq_some_iff.1 hget
    refine hlast (acc.length - 1 - k) (by omega) ?_
    simpa only [show acc.length - 1 - (acc.length - 1 - k) = k by omega] using hget
  · rintro ⟨hget, hlast⟩
    obtain ⟨ht, hstop⟩ := List.getElem?_eq_some_iff.1 hget
    refine ⟨acc.length - 1 - t, ⟨by omega, ?_, fun j hj hjstop => ?_⟩, by omega⟩
    · simpa only [show acc.length - 1 - (acc.length - 1 - t) = t by omega] using hstop
    · exact hlast (acc.length - 1 - j) (by omega) (List.getElem?_eq_some_iff.2 ⟨by omega, hjstop⟩)

theorem lastStop_eq_none {c : Config} {acc : List Byte} : lastStop c acc = none ↔ ∀ x ∈ acc, x ≠ stopByte c := by
  simp [lastStop, List.findIdx?_eq_none_iff]

/-! ### FEED reads the accumulator, the counter and the queue alone -/

/-- The blocks agree on every field but the resting registers of 10_state.md rules R26 to R29. -/
structure SameContents (a b : Block) : Prop where
  acc : a.acc = b.acc
  badCount : a.badCount = b.badCount
  queue : a.queue = b.queue
  halted : a.halted = b.halted

/-- Two outcomes of a pass that `settle` does not tell apart: the same events, the same contents, and the same frozen
registers where the block halted. -/
structure SameOutcome (p q : Block × List Event) : Prop where
  events : p.2 = q.2
  contents : SameContents p.1 q.1
  frozen : p.1.halted = true → p.1 = q.1

theorem sameContents_desync {a b : Block} (h : SameContents a b) (c : Config) (cause : DesyncCause) (origin : Nat) :
    SameContents (desync c cause origin a).1 (desync c cause origin b).1 ∧
      (desync c cause origin a).2 = (desync c cause origin b).2 := by
  obtain ⟨hacc, hbad, hqueue, hhalted⟩ := h
  have hresync : (resync c origin a).acc = (resync c origin b).acc := by rw [resync_acc, resync_acc, hacc]
  rw [desync_eq, desync_eq, hresync, hbad, hacc]
  exact ⟨⟨rfl, rfl, hqueue, hhalted⟩, rfl⟩

/-- A halt overwrites every resting register. -/
theorem haltOnOverflow_congr {a b : Block} (h : SameContents a b) (c : Config) (s : Nat) (op : Byte) (len : Nat) :
    haltOnOverflow c s op len a = haltOnOverflow c s op len b := by
  obtain ⟨hacc, hbad, hqueue, -⟩ := h
  simp only [haltOnOverflow, hacc, hbad, hqueue]

theorem sameOutcome_emit {a b : Block} (h : SameContents a b) (hh : a.halted = false) (c : Config) (s : Nat)
    (op : Byte) (len : Nat) : SameOutcome (emit c s op len a) (emit c s op len b) := by
  have hqueue := h.queue
  rcases emit_cases c s op len a with ⟨qa, ea⟩ | ⟨qa, ea⟩
  · rw [ea, emit, if_pos (hqueue ▸ qa), haltOnOverflow_congr h]
    exact ⟨rfl, ⟨rfl, rfl, rfl, rfl⟩, fun _ => rfl⟩
  · rcases emit_cases c s op len b with ⟨qb, _⟩ | ⟨_, eb⟩
    · exact absurd (hqueue ▸ qb) qa
    · rw [ea, eb]
      refine ⟨rfl, ⟨rfl, rfl, ?_, h.halted⟩, fun halts => nomatch hh.symm.trans halts⟩
      simp only [hqueue, h.acc]

theorem sameOutcome_pass (c : Config) (a : Block) :
    ∀ b, SameContents a b → a.halted = false → SameOutcome (pass c a) (pass c b) := by
  refine pass_induction
    (P := fun a r => ∀ b, SameContents a b → a.halted = false → SameOutcome r (pass c b)) ?wait ?accept ?reject a
  case wait =>
    intro a hw b h hh
    rw [pass_of_wait (h.acc ▸ hw)]
    exact ⟨rfl, h, fun halts => nomatch hh.symm.trans halts⟩
  case accept =>
    intro a s op len hc b h hh
    rw [pass_of_accept (h.acc ▸ hc)]
    exact sameOutcome_emit h hh c s op len
  case reject =>
    intro a cause s r hc ih b h hh
    obtain ⟨contents, events⟩ := sameContents_desync h c cause (s + 1)
    have later := ih _ contents (by rw [desync_halted, hh])
    rw [pass_of_reject (h.acc ▸ hc), events]
    exact ⟨congrArg (_ ++ ·) later.events, later.contents, later.frozen⟩

theorem sameContents_overflowGuard {a b : Block} (h : SameContents a b) (c : Config) (batch : List Byte) :
    SameContents (overflowGuard c batch a).1 (overflowGuard c batch b).1 ∧
      (overflowGuard c batch a).2 = (overflowGuard c batch b).2 := by
  rcases Nat.lt_or_ge c.accCap (a.acc.length + batch.length) with noRoom | room
  · rw [overflowGuard_of_noRoom noRoom, overflowGuard_of_noRoom (h.acc ▸ noRoom), h.acc, h.badCount]
    exact ⟨⟨rfl, rfl, h.queue, h.halted⟩, rfl⟩
  · rw [overflowGuard_of_room room, overflowGuard_of_room (h.acc ▸ room)]
    exact ⟨h, rfl⟩

/-- Unless it halts the block, a pass leaves an accumulator on which `classify` waits (R89). -/
theorem isWait_pass {c : Config} {b : Block} (hh : b.halted = false) (runs : (pass c b).1.halted ≠ true) :
    isWait (classify c (pass c b).1.acc) = true := by
  rcases pass_cases c b hh with ⟨_, hw, _⟩ | ⟨_, hacc, _⟩ | ⟨halts, _⟩
  · exact hw
  · rw [hacc, classify_nil]; rfl
  · exact absurd halts runs

/-- A FEED depends on the contents of the block alone: a halt and `settle` write every resting register. -/
theorem feed_congr {c : Config} {batch : List Byte} {a b : Block} (h : SameContents a b) (hh : a.halted = false)
    (hl : batch.length ≤ c.batchMax) : feed c batch a = feed c batch b := by
  obtain ⟨guarded, guardEvents⟩ := sameContents_overflowGuard h c batch
  have hga : (accAppend batch (overflowGuard c batch a).1).halted = false := by simpa using hh
  have appended : SameContents (accAppend batch (overflowGuard c batch a).1) (accAppend batch (overflowGuard c batch b).1) :=
    ⟨congrArg (· ++ batch) guarded.acc, guarded.badCount, guarded.queue, guarded.halted⟩
  have passed := sameOutcome_pass c _ _ appended hga
  rw [feed_of_ok hh hl, feed_of_ok (h.halted ▸ hh) hl, guardEvents]
  by_cases halts : (pass c (accAppend batch (overflowGuard c batch a).1)).1.halted = true
  · rw [Prod.ext (passed.frozen halts) passed.events]
  · have settled := settle_congr (isWait_pass hga halts) passed.contents.acc passed.contents.badCount
      passed.contents.queue passed.contents.halted
    simp only [if_neg halts, if_neg (passed.contents.halted ▸ halts), passed.events, settled]

/-! ### What is stored -/

theorem settle_lastStop {c : Config} {b : Block} (h : isWait (classify c b.acc) = true) :
    (settle c b).lastStop = lastStop c b.acc := by
  unfold settle
  cases hc : classify c b.acc with
  | waitStart | waitHeader | waitBody => rfl
  | reject | accept => rw [hc] at h; cases h

theorem pass_lastStop_of_halts {c : Config} {b : Block} (hh : b.halted = false) (halts : (pass c b).1.halted = true) :
    (pass c b).1.lastStop = lastStop c (pass c b).1.acc := by
  rcases pass_cases c b hh with ⟨runs, _⟩ | ⟨runs, _⟩ | ⟨_, _, _, op, len, s, _, _, _, _, _, stored, _⟩
  · exact nomatch runs.symm.trans halts
  · exact nomatch runs.symm.trans halts
  · exact stored

/-- A performed FEED stores `lastStop` of the accumulator it leaves, by `settle` or by the halt. -/
theorem feed_lastStop {c : Config} {batch : List Byte} {b : Block} (hh : b.halted = false)
    (hl : batch.length ≤ c.batchMax) : (feed c batch b).1.lastStop = lastStop c (feed c batch b).1.acc := by
  have hg : (accAppend batch (overflowGuard c batch b).1).halted = false := by simpa using hh
  rw [feed_of_ok hh hl]
  by_cases halts : (pass c (accAppend batch (overflowGuard c batch b).1)).1.halted = true
  · simp only [if_pos halts, pass_lastStop_of_halts hg halts]
  · simp only [if_neg halts, settle_acc, settle_lastStop (isWait_pass hg halts)]

/-! ### Two blocks that differ in `last_stop` -/

theorem exec_feed_lastStop {batch : List Byte} {s : State} (hh : s.blk.halted = false)
    (hl : batch.length ≤ s.cfg.batchMax) (v : Option Nat) :
    exec (.feed batch) { s with blk := { s.blk with lastStop := v } } = exec (.feed batch) s := by
  have same : SameContents { s.blk with lastStop := v } s.blk := ⟨rfl, rfl, rfl, rfl⟩
  rw [exec_feed, exec_feed, feedState, feedState, feed_congr same hh hl]
  rfl

theorem dequeue_lastStop (b : Block) (v : Option Nat) :
    dequeue { b with lastStop := v } = ({ (dequeue b).1 with lastStop := v }, (dequeue b).2) := by
  cases hh : b.halted with
  | true => simp [dequeue, hh]
  | false => cases hq : b.queue <;> simp [dequeue, hh, hq]

theorem exec_dequeue_lastStop (s : State) (v : Option Nat) :
    ∃ t u : State, exec .dequeue s = .next t ∧
      exec .dequeue { s with blk := { s.blk with lastStop := v } } = .next u ∧
      u = { t with blk := { t.blk with lastStop := v } } := by
  refine ⟨_, _, rfl, rfl, ?_⟩
  rw [dequeue_lastStop]
  rfl

/-- Settles O22: the scan by its two characterizations, FEED by what it reads (`feed_congr`) and stores
(`feed_lastStop`), DEQUEUE by its cases. -/
theorem lastStopIsStoredAndNeverRead : Obligations.LastStopIsStoredAndNeverRead := by
  refine ⟨fun c acc t => lastStop_eq_some, fun c acc => lastStop_eq_none, fun s v hh => ⟨fun batch hl => ?_, ?_⟩⟩
  · exact ⟨exec_feed_lastStop hh hl v, _, exec_feed batch s, feed_lastStop hh hl⟩
  · exact exec_dequeue_lastStop s v

end Sys2Proof.Proofs.LastStop
end

