-- ==== Sys2Proof/Proofs/FrameQueue.lean ====
section
/-!
PROOFS. DEQUEUE, HEALTH and RESET of 42_frame_queue.md: what each answers and changes, that a halted block stays as it is
until RESET, and that HEALTH's record cuts no field of a block that meets its invariants.
-/
namespace Sys2Proof.Proofs.FrameQueue
open Sys2Proof Sys2Proof.Machine Sys2Proof.Proofs.StatusWord Sys2Proof.Proofs.Classify

/-! ### Answers without events, and the halted block -/

/-- A performed operation without events leaves the parameters, the requests and the run's marks. -/
theorem finish_ok_nil (s : State) (b : Block) (result : Result) :
    finish s b (okResponse result []) = { s with blk := b, resp := { status := .ok, result, events := [] } } := by
  cases s; simp [finish, okResponse]

theorem dequeue_of_halted {b : Block} (h : b.halted = true) : dequeue b = (b, refusedResponse .halted) := by
  simp [dequeue, h]

/-- The block in `halted` is left as it is by every instruction but RESET (60_exceptions.md rules R125 and R131). -/
theorem exec_blk_of_halted {i : Instr} {s t : State} (h : s.blk.halted = true) (hi : i ≠ .reset)
    (ht : exec i s = .next t) : t.blk = s.blk := by
  have fed (batch : List Byte) (hf : exec (.feed batch) s = .next t) : t.blk = s.blk := by
    obtain rfl := Host.Outcome.next.inj hf
    rw [feedState_blk, feed_of_halted h]
  rcases exec_shape i s with ⟨-, hbytes⟩ | ⟨batch, rfl⟩ | rfl | rfl | ⟨-, -, result, hanswer⟩
  · exact fed _ (hbytes ▸ ht)
  · exact fed batch ht
  · obtain rfl := Host.Outcome.next.inj ht
    rw [finish_blk, dequeue_of_halted h]
  · exact absurd rfl hi
  · obtain rfl := Host.Outcome.next.inj (hanswer.symm.trans ht)
    rfl

/-! ### DEQUEUE (42_frame_queue.md rule R109) -/

theorem dequeue_of_empty {b : Block} (h : b.halted = false) (hq : b.queue = []) :
    dequeue b = (b, okResponse .none []) := by
  simp [dequeue, h, hq]

theorem dequeue_of_cons {b : Block} {e : Entry} {rest : List Entry} (h : b.halted = false)
    (hq : b.queue = e :: rest) : dequeue b = ({ b with queue := rest }, okResponse (.entry e) []) := by
  simp [dequeue, h, hq]

theorem exec_dequeue (s : State) : exec .dequeue s = .next (finish s (dequeue s.blk).1 (dequeue s.blk).2) := rfl

theorem frameAvailable_iff {b : Block} : frameAvailable b = true ↔ b.queue ≠ [] := by
  simp [frameAvailable_eq_not_isEmpty]

/-- Settles O39: one equation of `dequeue` per clause, each finished by what a refusal or an answer leaves. -/
theorem dequeueTakesTheHead : Obligations.DequeueTakesTheHead := by
  refine fun s => ⟨rfl, fun a => beq_iff_eq, fun halts => ?_, fun runs empty => ?_, fun e rest runs head => ⟨?_, ?_⟩⟩
  · rw [exec_dequeue, dequeue_of_halted halts, finish_refused]
  · rw [exec_dequeue, dequeue_of_empty runs empty, finish_ok_nil]
  · rw [exec_dequeue, dequeue_of_cons runs head, finish_ok_nil]
  · exact frameAvailable_iff

/-! ### HEALTH (42_frame_queue.md rule R112) -/

/-- A candidate's body is waited for only under a length that 30_encoding.md rule R65 (a) admits. -/
theorem classify_waitBody_len_le {c : Config} {acc : List Byte} {s len : Nat} {op : Byte}
    (h : classify c acc = .waitBody s op len) : len ≤ maxLen := by
  cases hs : firstStart c acc 0 with
  | none => rw [classify_of_no_start hs] at h; cases h
  | some st =>
    rw [classify_of_firstStart hs, classifyCandidate_eq] at h
    dsimp only at h
    split_ifs at h with _ tooLong
    cases h
    exact Nat.le_of_not_lt tooLong

/-- Settled, the register holds a length only in the wait for a body (41_resynchronizer.md rule R89). -/
theorem curLength_le_of_settled {c : Config} {b : Block} {len : Nat} (h : Block.Settled c b)
    (hlen : b.curLength = some len) : len ≤ maxLen := by
  obtain ⟨waits, settled⟩ := h
  rw [← settled, settle] at hlen
  cases hc : classify c b.acc with
  | waitStart | waitHeader => rw [hc] at hlen; cases hlen
  | waitBody s op l =>
    rw [hc] at hlen
    cases hlen
    exact classify_waitBody_len_le hc
  | reject | accept => rw [hc] at waits; cases waits

/-- Frozen, the register holds the length of the frame that could not be queued (42_frame_queue.md rule R108). -/
theorem curLength_le_of_frozen {c : Config} {b : Block} {len : Nat} (h : Block.Frozen c b)
    (hlen : b.curLength = some len) : len ≤ maxLen := by
  obtain ⟨-, -, -, described⟩ := h
  rw [hlen] at described
  split at described
  · next s op l _ _ hl =>
    cases hl
    obtain ⟨-, -, hmax, -⟩ := classify_accept (eq_of_beq described)
    exact hmax
  · cases described

theorem curLength_le_of_inv {c : Config} {b : Block} {len : Nat} (h : Block.Inv c b) (hlen : b.curLength = some len) :
    len ≤ maxLen := by
  obtain ⟨-, -, -, -, resting⟩ := h
  split at resting
  · exact curLength_le_of_frozen resting hlen
  · exact curLength_le_of_settled resting hlen

theorem toNat_ofNat_of_lt {w n : Nat} (h : n < 2 ^ w) : (BitVec.ofNat w n).toNat = n := by
  rw [BitVec.toNat_ofNat, Nat.mod_eq_of_lt h]

theorem map_toNat_map_ofNat {w : Nat} {o : Option Nat} (h : ∀ n, o = some n → n < 2 ^ w) :
    (o.map (BitVec.ofNat w)).map (·.toNat) = o := by
  cases o with
  | none => rfl
  | some n => exact congrArg some (toNat_ofNat_of_lt (h n rfl))

theorem healthRecord_widths {c : Config} {b : Block} (h : Block.Inv c b) :
    (healthRecord b).badCount.toNat = b.badCount ∧ (healthRecord b).queueCount.toNat = b.queue.length ∧
      (healthRecord b).curLength.map (·.toNat) = b.curLength := by
  have fits (len : Nat) (hlen : b.curLength = some len) : len < 2 ^ 12 :=
    (curLength_le_of_inv h hlen).trans_lt (by decide)
  obtain ⟨-, hqueue, hbad, -⟩ := h
  exact ⟨toNat_ofNat_of_lt (hbad.trans_lt (by decide)), toNat_ofNat_of_lt (hqueue.trans_lt (by decide)),
    map_toNat_map_ofNat fits⟩

theorem exec_health (s : State) :
    exec .health s =
      .next { s with resp := { status := .ok, result := .health (healthRecord s.blk), events := [] } } :=
  congrArg Host.Outcome.next (answer_eq s _)

/-- Settles O40: the record is `healthRecord`, field by field, and `healthRecord_widths` for the three that are cut. -/
theorem healthReportsTheFields : Obligations.HealthReportsTheFields := fun s =>
  ⟨rfl, fun _ => rfl, healthRecord s.blk, exec_health s, rfl, rfl, frameAvailable_eq_not_isEmpty s.blk, rfl, rfl, rfl,
    rfl, rfl, healthRecord_widths⟩

/-! ### RESET (42_frame_queue.md rule R113) -/

theorem exec_reset (s : State) :
    exec .reset s =
      .next { s with blk := Block.reset, resp := { status := .ok, result := .none, events := [] } } :=
  congrArg Host.Outcome.next (finish_ok_nil s Block.reset .none)

/-- Settles O42: RESET is one equation for every state, the halted and the reset one included; a halted block that no
RESET meets is unchanged, so it is still halted. -/
theorem resetReturnsTheBlockToItsResetValues : Obligations.ResetReturnsTheBlockToItsResetValues := by
  refine fun s => ⟨rfl, fun a => beq_iff_eq, _, rfl, exec_reset s, exec_reset _, fun i u halts hi hu => ?_⟩
  rw [exec_blk_of_halted halts hi hu, halts]

end Sys2Proof.Proofs.FrameQueue
end

