-- ==== Sys2Proof/Proofs/QueueOverflow.lean ====
section
/-!
PROOFS. The queue overflow of 42_frame_queue.md rule R108. Up to its end a FEED only desyncs: it drops bytes, counts and
reports. It then waits, queues the frame that `classify` accepts, or halts on it; only the last raises the fatal event.
-/
namespace Sys2Proof.Proofs.QueueOverflow
open Sys2Proof Sys2Proof.Machine Sys2Proof.Proofs.OverflowGuard Sys2Proof.Proofs.FrameQueue

/-! ### What a FEED does before it waits or emits -/

/-- From block `a` to block `b` only the accumulator and the counter changed, no event is an EMIT's, and the counter
counts the DESYNC_EVENTs modulo 5 (60_exceptions.md rule R123). -/
structure OnlyDesyncs (a b : Block) (events : List Event) : Prop where
  unchanged : b = { a with acc := b.acc, badCount := b.badCount }
  noEmit : ∀ e ∈ events, isEmit e = false
  counted : a.badCount ≤ 4 → b.badCount = (a.badCount + events.countP isDesync) % 5

/-- Without a DESYNC the counter stands; the bytes may have changed, as they do when the batch is appended. -/
theorem OnlyDesyncs.of_acc (b : Block) (acc : List Byte) : OnlyDesyncs b { b with acc := acc } [] where
  unchanged := rfl
  noEmit _ h := nomatch h
  counted h := (Nat.mod_eq_of_lt (Nat.lt_succ_of_le h)).symm

theorem OnlyDesyncs.trans {a b d : Block} {events later : List Event} (h : OnlyDesyncs a b events)
    (h' : OnlyDesyncs b d later) : OnlyDesyncs a d (events ++ later) where
  unchanged := by rw [h'.unchanged, h.unchanged]
  noEmit e he := (List.mem_append.1 he).elim (h.noEmit e) (h'.noEmit e)
  counted hbad := by
    have first := h.counted hbad
    have second := h'.counted (by omega)
    rw [List.countP_append]
    omega

theorem isEmit_of_mem_persistentAt {n : Nat} {e : Event} (h : e ∈ persistentAt n) : isEmit e = false := by
  rw [persistentAt_eq] at h
  split at h
  · rw [List.mem_singleton.1 h]; rfl
  · cases h

theorem countP_isDesync_persistentAt (n : Nat) : (persistentAt n).countP isDesync = 0 := by
  rw [persistentAt_eq]
  split <;> rfl

/-- One DESYNC, whatever bytes it keeps (41_resynchronizer.md rule R95). -/
theorem OnlyDesyncs.of_counted (b : Block) (acc : List Byte) (cause : DesyncCause) (origin dropped : Nat) :
    OnlyDesyncs b { b with acc := acc, badCount := bumped b.badCount }
      (.desync cause origin dropped :: persistentAt b.badCount) where
  unchanged := rfl
  noEmit e he := by
    rcases List.mem_cons.1 he with rfl | he
    · rfl
    · exact isEmit_of_mem_persistentAt he
  counted hbad := by
    rw [List.countP_cons_of_pos rfl, countP_isDesync_persistentAt]
    simp only [bumped_eq]
    split <;> omega

theorem onlyDesyncs_desync (c : Config) (cause : DesyncCause) (origin : Nat) (b : Block) :
    OnlyDesyncs b (desync c cause origin b).1 (desync c cause origin b).2 := by
  rw [desync_eq]
  exact .of_counted b _ cause origin _

theorem onlyDesyncs_overflowGuard (c : Config) (batch : List Byte) (b : Block) :
    OnlyDesyncs b (overflowGuard c batch b).1 (overflowGuard c batch b).2 := by
  rcases Nat.lt_or_ge c.accCap (b.acc.length + batch.length) with noRoom | room
  · rw [overflowGuard_of_noRoom noRoom]
    exact .of_counted b _ .overflow 0 _
  · rw [overflowGuard_of_room room]
    exact .of_acc b b.acc

/-- The pass `r` of block `b` desyncs to a block on which `classify` waits, or to one on which it accepts and that EMIT
then takes. -/
def DesyncsThenEnds (c : Config) (b : Block) (r : Block × List Event) : Prop :=
  ∃ (d : Block) (events : List Event), OnlyDesyncs b d events ∧
    ((isWait (classify c d.acc) = true ∧ r = (d, events)) ∨
      ∃ (s len : Nat) (op : Byte), classify c d.acc = .accept s op len ∧
        r = ((emit c s op len d).1, events ++ (emit c s op len d).2))

/-- A pass desyncs until `classify` waits or accepts (41_resynchronizer.md rule R96). -/
theorem desyncsThenEnds_pass (c : Config) (b : Block) : DesyncsThenEnds c b (pass c b) := by
  refine pass_induction (P := DesyncsThenEnds c) ?wait ?accept ?reject b
  case wait => exact fun b hw => ⟨b, [], .of_acc b b.acc, .inl ⟨hw, rfl⟩⟩
  case accept => exact fun b s op len hc => ⟨b, [], .of_acc b b.acc, .inr ⟨s, len, op, hc, rfl⟩⟩
  case reject =>
    rintro b cause s r - ⟨d, events, more, ends⟩
    refine ⟨d, _, (onlyDesyncs_desync c cause (s + 1) b).trans more, ?_⟩
    rcases ends with ⟨hw, rfl⟩ | ⟨st, len, op, hc, rfl⟩
    · exact .inl ⟨hw, rfl⟩
    · exact .inr ⟨st, len, op, hc, by rw [List.append_assoc]⟩

/-! ### The three ends of a performed FEED -/

/-- A performed FEED desyncs, and then settles on a wait, queues the accepted frame and settles, or halts on it with the
bytes still in the accumulator (41_resynchronizer.md rule R98). -/
theorem feed_shape {c : Config} {batch : List Byte} {b : Block} (h : b.halted = false)
    (hl : batch.length ≤ c.batchMax) :
    ∃ (d : Block) (events : List Event), OnlyDesyncs b d events ∧
      ((isWait (classify c d.acc) = true ∧ feed c batch b = (settle c d, okResponse .none events)) ∨
        ∃ (s len : Nat) (op : Byte), classify c d.acc = .accept s op len ∧
          ((d.queue.length ≠ queueCap ∧
              feed c batch b =
                (settle c (emit c s op len d).1, okResponse .none (events ++ [.frame op len]))) ∨
            (d.queue.length = queueCap ∧
              feed c batch b =
                (haltOnOverflow c s op len d, okResponse .none (events ++ [.fatalQueueOverflow op len]))))) := by
  obtain ⟨d, events, passed, ends⟩ := desyncsThenEnds_pass c (accAppend batch (overflowGuard c batch b).1)
  have all := ((onlyDesyncs_overflowGuard c batch b).trans (.of_acc _ _)).trans passed
  rw [List.append_nil] at all
  have runs : d.halted = false := by rw [all.unchanged, h]
  refine ⟨d, _, all, ?_⟩
  simp only [feed_of_ok h hl]
  rcases ends with ⟨hw, hp⟩ | ⟨s, len, op, hc, hp⟩
  · exact .inl ⟨hw, by simp [hp, runs]⟩
  · refine .inr ⟨s, len, op, hc, ?_⟩
    rcases emit_cases c s op len d with ⟨full, he⟩ | ⟨room, he⟩
    · exact .inr ⟨full, by simp [hp, he]⟩
    · exact .inl ⟨room, by simp [hp, he, runs]⟩

/-- The fatal event is raised by the third end alone, and last. -/
theorem feed_of_fatal {c : Config} {batch : List Byte} {b : Block} {op : Byte} {len : Nat} (h : b.halted = false)
    (hl : batch.length ≤ c.batchMax) (fatal : .fatalQueueOverflow op len ∈ (feed c batch b).2.events) :
    ∃ (d : Block) (events : List Event) (s : Nat), OnlyDesyncs b d events ∧ d.queue.length = queueCap ∧
      classify c d.acc = .accept s op len ∧
      feed c batch b = (haltOnOverflow c s op len d, okResponse .none (events ++ [.fatalQueueOverflow op len])) := by
  obtain ⟨d, events, desyncs, ends⟩ := feed_shape h hl
  have notEarlier : .fatalQueueOverflow op len ∉ events := fun he => nomatch desyncs.noEmit _ he
  rcases ends with ⟨-, hf⟩ | ⟨s, len', op', hc, ⟨-, hf⟩ | ⟨full, hf⟩⟩ <;> rw [hf] at fatal
  · exact absurd (by simpa using fatal) notEarlier
  · exact absurd (by simpa using fatal) notEarlier
  · have last : op = op' ∧ len = len' := by simpa [notEarlier] using fatal
    obtain ⟨rfl, rfl⟩ := last
    exact ⟨d, events, s, desyncs, full, hc, hf⟩

/-- A refused FEED raises nothing, so one that raises an event is performed. -/
theorem feed_performed_of_mem {c : Config} {batch : List Byte} {b : Block} {e : Event}
    (h : e ∈ (feed c batch b).2.events) : b.halted = false ∧ batch.length ≤ c.batchMax := by
  cases hh : b.halted with
  | false =>
    refine ⟨rfl, Nat.le_of_not_lt fun tooLong => ?_⟩
    rw [feed_of_tooLong hh tooLong] at h
    cases h
  | true =>
    rw [feed_of_halted hh] at h
    cases h

theorem emit_of_full {c : Config} {b : Block} (h : b.queue.length = queueCap) (s len : Nat) (op : Byte) :
    emit c s op len b = (haltOnOverflow c s op len b, [.fatalQueueOverflow op len]) := if_pos h

/-- Settles O34: EMIT by its first case; a FEED with the fatal event by `feed_of_fatal`, whose block is the halt's; and the
freeze by `exec_blk_of_halted`. -/
theorem queueOverflowHaltsAndFreezes : Obligations.QueueOverflowHaltsAndFreezes := by
  refine ⟨fun c st len op b full => emit_of_full full st len op, fun batch s t op len ht fatal => ?_⟩
  obtain rfl := Host.Outcome.next.inj ht
  obtain ⟨runs, hl⟩ := feed_performed_of_mem fatal
  obtain ⟨d, events, st, desyncs, full, hc, hf⟩ := feed_of_fatal runs hl fatal
  have queue_eq : d.queue = s.blk.queue := by rw [desyncs.unchanged]
  simp only [feedState_blk, feedState_resp, feedState_runFaulted, hf]
  refine ⟨queue_eq ▸ full, queue_eq, rfl, rfl, rfl, rfl, rfl, ⟨st, rfl, hc⟩, ?counted, ⟨events, rfl, desyncs.noEmit⟩,
    ?faulted, ?frozen⟩
  case counted =>
    intro hbad
    rw [okResponse_events, List.countP_append]
    exact desyncs.counted hbad
  case faulted => simp [isFatal]
  case frozen =>
    intro i u hi hu
    rw [exec_blk_of_halted (by rw [feedState_blk, hf]; rfl) hi hu, feedState_blk, hf]

end Sys2Proof.Proofs.QueueOverflow
end

