-- ==== Sys2Proof/Proofs/Telemetry.lean ====
section
/-!
PROOFS. The telemetry layout (43_telemetry_layout.md): when TELEMETRY answers a record, and that every field it reads lies
within the payload's first 29 bytes.
-/
namespace Sys2Proof.Proofs.Telemetry
open Sys2Proof Sys2Proof.Machine

/-! ### When TELEMETRY answers -/

theorem telemetry_of_long {p : List Byte} (h : 29 ≤ p.length) : telemetry p = some (telemetryFields p) :=
  if_neg (Nat.not_lt.2 h)

theorem telemetry_eq_none_iff (p : List Byte) : telemetry p = none ↔ p.length < 29 := by
  simp [telemetry]

theorem telemetry_eq_some_iff (p : List Byte) (t : Telemetry) :
    telemetry p = some t ↔ 29 ≤ p.length ∧ telemetryFields p = t := by
  simp [telemetry]

/-! ### Integers that lie within a prefix are read from that prefix -/

section Prefix
variable {p : List Byte} {k : Nat}

theorem u8At_append (extra : List Byte) (h : k < p.length) : u8At (p ++ extra) k = u8At p k :=
  congrArg BitVec.toNat (List.getD_append p extra 0 k h)

theorem u16leAt_append (extra : List Byte) (h : k + 1 < p.length) : u16leAt (p ++ extra) k = u16leAt p k := by
  simp (disch := omega) only [u16leAt, u8At_append]

theorem s16leAt_append (extra : List Byte) (h : k + 1 < p.length) : s16leAt (p ++ extra) k = s16leAt p k := by
  simp only [s16leAt, u16leAt_append extra h]

theorem u32leAt_append (extra : List Byte) (h : k + 3 < p.length) : u32leAt (p ++ extra) k = u32leAt p k := by
  simp (disch := omega) only [u32leAt, u8At_append]

theorem s32leAt_append (extra : List Byte) (h : k + 3 < p.length) : s32leAt (p ++ extra) k = s32leAt p k := by
  simp only [s32leAt, u32leAt_append extra h]

end Prefix

/-- The last field ends at offset 29 (43_telemetry_layout.md rule R115). -/
theorem telemetryFields_append {p : List Byte} (extra : List Byte) (h : 29 ≤ p.length) :
    telemetryFields (p ++ extra) = telemetryFields p := by
  simp (disch := omega) only [telemetryFields, u8At_append, s16leAt_append, s32leAt_append]

theorem telemetry_append {p : List Byte} (extra : List Byte) (h : 29 ≤ p.length) :
    telemetry (p ++ extra) = telemetry p := by
  have long : 29 ≤ (p ++ extra).length := by rw [List.length_append]; omega
  rw [telemetry_of_long h, telemetry_of_long long, telemetryFields_append extra h]

/-- Settles O47: NONE and the bytes behind offset 29 by the lemmas above; a record that is answered is `telemetryFields`,
whose fifteen reads are the integers of rule R114 written out. -/
theorem telemetryReadsFieldsAtTheirOffsets : Obligations.TelemetryReadsFieldsAtTheirOffsets := by
  refine ⟨telemetry_eq_none_iff, fun _ extra h => telemetry_append extra h, fun p t answered => ?fields⟩
  obtain ⟨-, rfl⟩ := (telemetry_eq_some_iff p t).1 answered
  exact ⟨rfl, rfl, rfl, rfl, rfl, rfl, rfl, rfl, rfl, rfl, rfl, rfl, rfl, rfl, rfl⟩

end Sys2Proof.Proofs.Telemetry
end

