-- ==== Sys2Proof/Proofs/Exceptions.lean ====
section
/-!
PROOFS. The refusals of 60_exceptions.md: an operation that the block refuses leaves the block as it is (rules R125 and
R126). The operations that a halt does not stop answer alike in every state, halted or not.
-/
namespace Sys2Proof.Proofs.Exceptions
open Sys2Proof Sys2Proof.Machine
open Sys2Proof.Proofs.FrameEncoder Sys2Proof.Proofs.OverflowGuard Sys2Proof.Proofs.FrameQueue

/-! ### Refused operations -/

/-- The two refusals of a FEED differ in their reason alone. -/
theorem exec_feed_of_refused {batch : List Byte} {s : State} {reason : RefusalReason}
    (h : feed s.cfg batch s.blk = (s.blk, refusedResponse reason)) :
    exec (.feed batch) s =
      .next { s with resp := { status := .refused reason, result := .none, events := [] }, runRefused := true } := by
  rw [exec_feed, feedState, h, finish_refused]

theorem exec_dequeue_of_halted {s : State} (h : s.blk.halted = true) :
    exec .dequeue s =
      .next { s with resp := { status := .refused .halted, result := .none, events := [] }, runRefused := true } := by
  rw [exec_dequeue, dequeue_of_halted h, finish_refused]

/-- Settles O14: `feed` refuses before it touches the block. -/
theorem overlongBatchIsRefused : Obligations.OverlongBatchIsRefused := fun _ _ runs tooLong =>
  exec_feed_of_refused (feed_of_tooLong runs tooLong)

/-! ### Operations that no state refuses -/

theorem exec_encodeParamless (op : Opcode) (s : State) :
    exec (.encodeParamless op) s = answerFrame op 0 0 s := rfl

theorem exec_encodeMotor (op : Opcode) (left right : Rat) (brakeLeft brakeRight : Bool) (s : State) :
    exec (.encodeMotor op left right brakeLeft brakeRight) s =
      answerFrame op (quantizeByte s.cfg left brakeLeft) (quantizeByte s.cfg right brakeRight) s := rfl

/-- Settles O15: FEED and DEQUEUE are refused on the halted block; the other six by their equations, which hold in every
state. -/
theorem haltedBlockRefusesFeedAndDequeueOnly : Obligations.HaltedBlockRefusesFeedAndDequeueOnly := by
  refine fun s halts => ⟨fun batch => exec_feed_of_refused (feed_of_halted halts), exec_dequeue_of_halted halts,
    exec_health s, exec_reset s, fun op p0 p1 => ?encode, fun op => ?encodeParamless,
    fun op left right brakeLeft brakeRight => ?encodeMotor, fun x brake => ?quantize⟩
  case encode => rw [exec_encode, answerFrame_eq]
  case encodeParamless => rw [exec_encodeParamless, answerFrame_eq]
  case encodeMotor => rw [exec_encodeMotor, answerFrame_eq]
  case quantize => rw [exec_quantize, answer_eq]

end Sys2Proof.Proofs.Exceptions
end

