-- ==== Sys2Proof/Proofs/Reset.lean ====
section
/-!
PROOFS. The reset state of 70_reset_and_hazards.md: its registers are those of an empty accumulator, on which `classify`
waits, so the invariants of 10_state.md rule R39 hold whatever the parameters are.
-/
namespace Sys2Proof.Proofs.Reset
open Sys2Proof Sys2Proof.Machine Sys2Proof.Proofs.StatusWord Sys2Proof.Proofs.FrameQueue

theorem isWait_classify_nil (c : Config) : isWait (classify c []) = true := by
  rw [classify_nil, isWait]

theorem lastStop_nil (c : Config) : lastStop c [] = none := rfl

/-- `settle([])` (41_resynchronizer.md rule R89): no byte stands that a register could describe. -/
theorem settle_of_acc_nil (c : Config) {b : Block} (h : b.acc = []) :
    settle c b =
      { b with phase := .seekingStart, start := none, curOpcode := none, curLength := none, lastStop := none } := by
  rw [settle, h, classify_nil, lastStop_nil]

theorem settle_reset (c : Config) : settle c Block.reset = Block.reset :=
  settle_of_acc_nil c blockReset_acc

theorem settled_reset (c : Config) : Block.Settled c Block.reset :=
  ⟨isWait_classify_nil c, settle_reset c⟩

/-- The accumulator, the counter and the queue are empty, so their bounds hold; the block is not halted, so it must be
settled. -/
theorem inv_reset (c : Config) : Block.Inv c Block.reset := by
  refine ⟨?accCap, ?queueCap, ?badCount, ?entries, ?resting⟩
  case accCap => exact Nat.zero_le c.accCap
  case queueCap => exact Nat.zero_le queueCap
  case badCount => exact Nat.zero_le 4
  case entries => exact List.forall_mem_nil _
  case resting =>
    rw [blockReset_halted, if_neg Bool.false_ne_true]
    exact settled_reset c

/-- Every summand of the word is zero. -/
theorem statusWord_reset : statusWord Block.reset = 0#32 :=
  BitVec.eq_of_toNat_eq (statusWord_toNat Block.reset)

/-- Settles O43: power-on is `Block.reset` by definition, and RESET reaches it from every state by `exec_reset`. -/
theorem resetStateHoldsTheResetValues : Obligations.ResetStateHoldsTheResetValues := by
  refine ⟨rfl, statusWord_reset, fun s => ⟨_, exec_reset s, rfl⟩, fun c => ?_⟩
  exact ⟨isWait_classify_nil c, settle_reset c, inv_reset c⟩

end Sys2Proof.Proofs.Reset
end

