-- ==== Sys2Proof/Proofs/CommandPort.lean ====
section
/-!
PROOFS. The command port of 30_encoding.md section 4: each reader of an operand takes back what its writer wrote and leaves
the bytes behind it, so each selector's reader takes back its operation, whatever padding follows.
-/
namespace Sys2Proof.Proofs.CommandPort
open Sys2Proof Sys2Proof.Machine Sys2Proof.Proofs.FrameEncoder

/-! ### The operands of each selector (30_encoding.md rule R69) -/

@[simp] theorem readFlag_flagByte (b : Bool) (rest : List Byte) : readFlag (flagByte b :: rest) = some (b, rest) := by
  cases b <;> rfl

theorem readFeed_batch (batch padding : List Byte) :
    readFeed (natBytes batch.length ++ (batch ++ padding)) = some (.feed batch) := by
  simp [readFeed, readNat_natBytes]

theorem readEncodeParamless_opcodeArgument (op : Opcode) (rest : List Byte) :
    readEncodeParamless (opcodeArgument op :: rest) = some (.encodeParamless op) := by
  simp [readEncodeParamless]

theorem readEncodeMotor_operands (op : Opcode) (left right : Rat) (brakeLeft brakeRight : Bool) (rest : List Byte) :
    readEncodeMotor
        (opcodeArgument op :: (ratBytes left ++ (ratBytes right ++ flagByte brakeLeft :: flagByte brakeRight :: rest))) =
      some (.encodeMotor op left right brakeLeft brakeRight) := by
  simp [readEncodeMotor, readRat_ratBytes]

theorem readQuantize_operands (x : Rat) (brake : Bool) (rest : List Byte) :
    readQuantize (ratBytes x ++ flagByte brake :: rest) = some (.quantize x brake) := by
  simp [readQuantize, readRat_ratBytes]

/-! ### Requests -/

/-- The selector is bits [2:0] of the first byte, the operands are what follows it. -/
theorem decodeCommand_cons {selector : Byte} {operands : List Byte} {i : Instr}
    (h : readOperation ⟨selector.toNat % 8, Nat.mod_lt _ (by decide)⟩ operands = some i) :
    decodeCommand (selector :: operands) = .ok i := by
  simp only [decodeCommand, h]

/-- One reader's lemma per operation; an instruction of a wire has no request. -/
theorem decodeCommand_encode (c : Config) {i : Instr} (h : channelOf i = .command) (padding : List Byte) :
    decodeCommand (encode c i ++ padding) = .ok i := by
  cases i
  case feed batch =>
    rw [encode, List.cons_append, List.append_assoc]
    exact decodeCommand_cons (readFeed_batch batch padding)
  case dequeue => rfl
  case health => rfl
  case reset => rfl
  case encode op p0 p1 => exact decodeCommand_cons (readEncode_opcodeArgument op p0 p1 padding)
  case encodeParamless op => exact decodeCommand_cons (readEncodeParamless_opcodeArgument op padding)
  case encodeMotor op left right brakeLeft brakeRight =>
    simp only [encode, List.cons_append, List.append_assoc, List.nil_append]
    exact decodeCommand_cons (readEncodeMotor_operands op left right brakeLeft brakeRight padding)
  case quantize x brake =>
    simp only [encode, List.cons_append, List.append_assoc, List.nil_append]
    exact decodeCommand_cons (readQuantize_operands x brake padding)
  all_goals cases h

/-- Settles O50: the decoder by `decodeCommand_encode`; the fetch reads the request that `PLATFORM_MAP` gives, so it is the
decoder on those bytes. -/
theorem commandDecodeOfEncode : Obligations.CommandDecodeOfEncode := by
  intro c i padding h
  have decodes := decodeCommand_encode c h padding
  refine ⟨decodes, fun bytes maps => ?transported, fun unchanged => ?asItStands⟩
  case transported => rw [fetchInstr_command, maps, decodes]
  case asItStands => rw [fetchInstr_command, commandRequest_of_none unchanged, decodes]

end Sys2Proof.Proofs.CommandPort
end

