-- ==== Sys2Proof/Proofs/Wires.lean ====
section
/-!
PROOFS. The two wires of 30_encoding.md sections 2 and 3, in both directions: what the decoder of a wire reads from a frame
that was written, and which frames it can have read a row from.
-/
namespace Sys2Proof.Proofs.Wires
open Sys2Proof Sys2Proof.Machine Sys2Proof.Proofs.CommandPort

/-! ### Outbound frames (30_encoding.md rules R59 and R60) -/

theorem decodeOutbound_outboundFrame {c : Config} (h : c.opcodeBytes.toList.Nodup) (op : Opcode) (p0 p1 : Byte) :
    decodeOutbound c (outboundFrame c op p0 p1) = outboundRow op p0 p1 := by
  simp [outboundFrame, decodeOutbound, opcodeOfByte_opcodeByte h]

/-- What an outbound decoder accepts is the frame of an opcode whose row admits the payload. -/
theorem outboundFrame_of_decodeOutbound {c : Config} {bytes : List Byte} {i : Instr}
    (h : decodeOutbound c bytes = .ok i) :
    ∃ (op : Opcode) (p0 p1 : Byte), bytes = outboundFrame c op p0 p1 ∧ outboundRow op p0 p1 = .ok i := by
  unfold decodeOutbound at h
  split at h
  · next s o p0 p1 t =>
    split_ifs at h with start stop
    rw [not_not] at start stop
    subst start stop
    cases hop : opcodeOfByte c o with
    | none => rw [hop] at h; cases h
    | some op =>
      rw [hop] at h
      exact ⟨op, p0, p1, by rw [outboundFrame, opcodeByte_of_opcodeOfByte hop], h⟩
  · cases h

/-- Every outbound row is the one its opcode and payload have: the payload is zero where R60 leaves it unused. -/
theorem encode_of_outboundRow {c : Config} {op : Opcode} {p0 p1 : Byte} {i : Instr} (h : outboundRow op p0 p1 = .ok i) :
    i.wf c = true ∧ channelOf i = .outbound ∧ encode c i = outboundFrame c op p0 p1 := by
  cases op
  case setMotorLevels => cases h; exact ⟨rfl, rfl, rfl⟩
  all_goals
    simp only [outboundRow] at h
    split at h
    · next unused =>
      obtain ⟨rfl, rfl⟩ := unused
      cases h
      exact ⟨rfl, rfl, rfl⟩
    · cases h

/-- An outbound row's bytes are the frame that its own opcode and payload make. -/
theorem outboundFrame_of_row (c : Config) {i : Instr} (h : channelOf i = .outbound) :
    ∃ (op : Opcode) (p0 p1 : Byte), encode c i = outboundFrame c op p0 p1 ∧ outboundRow op p0 p1 = .ok i := by
  cases i <;> cases h <;> exact ⟨_, _, _, rfl, rfl⟩

/-! ### Inbound frames (30_encoding.md rules R63 to R65) -/

theorem wf_inboundRow (c : Config) (op : Opcode) (p : List Byte) :
    (inboundRow op p).wf c = true ↔ p.length ≤ maxLen := by
  cases op <;> exact decide_eq_true_iff

/-- The decoder of the inbound wire on a start marker, a header and what follows it, test by test (rule R65). -/
theorem decodeInbound_header (c : Config) (o lo hi : Byte) (rest : List Byte) :
    decodeInbound c (startByte c :: o :: lo :: hi :: rest) =
      if u16le lo hi + 1 < rest.length then .error .trailingBytes
      else if maxLen < u16le lo hi then .ok (.inInvalidBadLength o (hi ++ lo) rest)
      else
        match opcodeOfByte c o with
        | none => .ok (.inInvalidBadOpcode o (hi ++ lo) rest)
        | some op =>
          match rest[u16le lo hi]? with
          | none => .error .incompleteBody
          | some t =>
            if t = stopByte c then .ok (inboundRow op (rest.take (u16le lo hi)))
            else .ok (.inInvalidBadTerminator op (rest.take (u16le lo hi)) t) :=
  if_neg (not_not_intro rfl)

/-- A whole frame is read as its row, by its terminator (rule R65 (c)). -/
theorem decodeInbound_inboundFrame {c : Config} (h : c.opcodeBytes.toList.Nodup) {p : List Byte}
    (hp : p.length ≤ maxLen) (op : Opcode) (t : Byte) :
    decodeInbound c (inboundFrame c op p t) =
      .ok (if t = stopByte c then inboundRow op p else .inInvalidBadTerminator op p t) := by
  have len : u16le (lengthLow p.length) (lengthHigh p.length) = p.length :=
    u16le_lengthBytes (hp.trans_lt (by decide))
  have whole : ¬ p.length + 1 < (p ++ [t]).length := by simp
  have frame : inboundFrame c op p t = startByte c :: opcodeByte c op :: lengthLow p.length :: lengthHigh p.length ::
    (p ++ [t]) := by simpa using inboundFrame_append c op p t []
  rw [frame, decodeInbound_header, len, if_neg whole, if_neg (Nat.not_lt.2 hp), opcodeOfByte_opcodeByte h]
  by_cases stop : t = stopByte c <;> simp [stop]

/-- A header whose length exceeds `MAX_LEN` (rule R65 (a)). -/
theorem decodeInbound_badLength (c : Config) (o : Byte) {len : BitVec 16} {tail : List Byte}
    (hlen : maxLen < len.toNat) (htail : tail.length ≤ len.toNat + 1) :
    decodeInbound c (inboundHeader c o len.toNat ++ tail) = .ok (.inInvalidBadLength o len tail) := by
  rw [inboundHeader_append, decodeInbound_header, u16le_lengthBytes len.isLt, if_neg (Nat.not_lt.2 htail),
    if_pos hlen, lengthBytes_append]

/-- A header with a legal length and an opcode byte outside RECOG (rule R65 (b)). -/
theorem decodeInbound_badOpcode {c : Config} {o : Byte} {len : BitVec 16} {tail : List Byte}
    (hlen : len.toNat ≤ maxLen) (ho : recognized c o = false) (htail : tail.length ≤ len.toNat + 1) :
    decodeInbound c (inboundHeader c o len.toNat ++ tail) = .ok (.inInvalidBadOpcode o len tail) := by
  rw [inboundHeader_append, decodeInbound_header, u16le_lengthBytes len.isLt, if_neg (Nat.not_lt.2 htail),
    if_neg (Nat.not_lt.2 hlen), opcodeOfByte_eq_none.2 ho, lengthBytes_append]

/-- The inbound rows by the decoder's four lemmas: a legal frame or one of the three invalid forms. -/
theorem decodeInbound_encode {c : Config} (h : c.opcodeBytes.toList.Nodup) {i : Instr} (hw : i.wf c = true)
    (hi : channelOf i = .inbound) : decodeInbound c (encode c i) = .ok i := by
  have legal (op : Opcode) (p : List Byte) (hp : (inboundRow op p).wf c = true) :
      decodeInbound c (encode c (inboundRow op p)) = .ok (inboundRow op p) := by
    rw [encode_inboundRow, decodeInbound_inboundFrame h ((wf_inboundRow c op p).1 hp), if_pos rfl]
  cases i
  case inGetLog p => exact legal .getLog p hw
  case inSetMotorLevels p => exact legal .setMotorLevels p hw
  case inResetState p => exact legal .resetState p hw
  case inGetState p => exact legal .getState p hw
  case inNack p => exact legal .nack p hw
  case inAck p => exact legal .ack p hw
  case inStart p => exact legal .start p hw
  case inStop p => exact legal .stop p hw
  case inInvalidBadLength o len tail =>
    simp only [Instr.wf, Bool.and_eq_true, decide_eq_true_eq] at hw
    obtain ⟨hlen, htail⟩ := hw
    exact decodeInbound_badLength c o hlen htail
  case inInvalidBadOpcode o len tail =>
    simp only [Instr.wf, Bool.and_eq_true, decide_eq_true_eq, Bool.not_eq_true'] at hw
    obtain ⟨⟨hlen, ho⟩, htail⟩ := hw
    exact decodeInbound_badOpcode hlen ho htail
  case inInvalidBadTerminator op p t =>
    simp only [Instr.wf, Bool.and_eq_true, decide_eq_true_eq, bne_iff_ne] at hw
    obtain ⟨hp, ht⟩ := hw
    rw [encode, decodeInbound_inboundFrame h hp, if_neg ht]
  all_goals cases hi

/-- A body that reaches its terminator and goes no further is the payload and that one byte. -/
theorem take_append_terminator {rest : List Byte} {len : Nat} {t : Byte} (ht : rest[len]? = some t)
    (whole : rest.length ≤ len + 1) : rest.take len ++ [t] = rest := by
  obtain ⟨hlt, rfl⟩ := List.getElem?_eq_some_iff.1 ht
  rw [List.take_concat_get', List.take_of_length_le whole]

/-- What the inbound decoder accepts is a well-formed inbound row, and the bytes are that row's. -/
theorem encode_of_decodeInbound {c : Config} {bytes : List Byte} {i : Instr} (h : decodeInbound c bytes = .ok i) :
    i.wf c = true ∧ channelOf i = .inbound ∧ encode c i = bytes := by
  match bytes with
  | [] | [_] | [_, _] | [_, _, _] => cases h
  | s :: o :: lo :: hi :: rest =>
    by_cases start : s = startByte c
    case neg => simp [decodeInbound, start] at h
    subst start
    have header : inboundHeader c o (hi ++ lo : BitVec 16).toNat = [startByte c, o, lo, hi] := by
      rw [u16le_eq_toNat, inboundHeader, lengthLow_u16le, lengthHigh_u16le]
    rw [decodeInbound_header] at h
    split_ifs at h with trailing tooLong
    · cases h
      refine ⟨?_, rfl, by rw [encode, header]; rfl⟩
      simp only [Instr.wf, u16le_eq_toNat, Bool.and_eq_true, decide_eq_true_eq]
      exact ⟨tooLong, Nat.not_lt.1 trailing⟩
    · cases hop : opcodeOfByte c o with
      | none =>
        rw [hop] at h
        cases h
        refine ⟨?_, rfl, by rw [encode, header]; rfl⟩
        simp only [Instr.wf, u16le_eq_toNat, Bool.and_eq_true, decide_eq_true_eq, Bool.not_eq_true']
        exact ⟨⟨Nat.not_lt.1 tooLong, opcodeOfByte_eq_none.1 hop⟩, Nat.not_lt.1 trailing⟩
      | some op =>
        cases ht : rest[u16le lo hi]? with
        | none => simp only [hop, ht] at h; cases h
        | some t =>
          have body := take_append_terminator ht (Nat.not_lt.1 trailing)
          obtain ⟨within, -⟩ := List.getElem?_eq_some_iff.1 ht
          have len : (rest.take (u16le lo hi)).length = u16le lo hi := List.length_take_of_le within.le
          have legal : (rest.take (u16le lo hi)).length ≤ maxLen := by rw [len]; exact Nat.not_lt.1 tooLong
          have frame : inboundFrame c op (rest.take (u16le lo hi)) t = startByte c :: o :: lo :: hi :: rest := by
            rw [inboundFrame, len, List.append_assoc, body, inboundHeader, lengthLow_u16le, lengthHigh_u16le,
              opcodeByte_of_opcodeOfByte hop]
            rfl
          simp only [hop, ht] at h
          split_ifs at h with stop <;> cases h
          · refine ⟨(wf_inboundRow c op _).2 legal, channelOf_inboundRow op _, ?_⟩
            rw [encode_inboundRow, ← stop, frame]
          · refine ⟨?_, rfl, frame⟩
            simp only [Instr.wf, Bool.and_eq_true, decide_eq_true_eq, bne_iff_ne]
            exact ⟨legal, stop⟩

/-! ### Both wires -/

/-- The fetch takes what a wire's strict decoder accepts. -/
theorem fetchInstr_of_decodeOn {c : Config} {channel : Channel} {bytes : List Byte} {i : Instr}
    (hc : channel ≠ .command) (h : decodeOn c channel bytes = .ok i) : fetchInstr c channel bytes = .ok i := by
  cases channel with
  | command => exact absurd rfl hc
  | outbound => exact h
  | inbound => rw [decodeOn] at h; simp only [fetchInstr, h]

/-- Settles O51: the strict decoder by channel, and the fetch takes what it accepts. -/
theorem wireDecodeOfEncode : Obligations.WireDecodeOfEncode := by
  rintro c i ⟨distinct, -⟩ hw hi
  have strict : decodeOn c (channelOf i) (encode c i) = .ok i := by
    cases hc : channelOf i with
    | command => exact absurd hc hi
    | outbound =>
      obtain ⟨op, p0, p1, frame, row⟩ := outboundFrame_of_row c hc
      rw [decodeOn, frame, decodeOutbound_outboundFrame distinct, row]
    | inbound => exact decodeInbound_encode distinct hw hc
  exact ⟨strict, fetchInstr_of_decodeOn hi strict⟩

/-- Settles O52: by channel, from the frame that each decoder must have read. -/
theorem wireEncodeOfDecode : Obligations.WireEncodeOfDecode := by
  intro c channel bytes i hc h
  cases channel with
  | command => exact absurd rfl hc
  | outbound =>
    obtain ⟨op, p0, p1, rfl, row⟩ := outboundFrame_of_decodeOutbound h
    exact encode_of_outboundRow row
  | inbound => exact encode_of_decodeInbound h

/-! ### Words written out -/

/-- A table word of the command port whose bytes are an operation's request is that operation: the zero bytes behind it are
padding. -/
theorem decodeTableWord_of_encode {nbits w : Nat} {i : Instr} (hn : nbits ≤ 32) (hi : channelOf i = .command)
    (hb : lowBytesFirst ((nbits + 7) / 8) w = encode Config.platform i) : decodeTableWord nbits w = some i := by
  simp only [decodeTableWord, tableChannels, tableReading, tableBytes, if_pos hn, hb, decodeOn,
    decodeCommand_encode Config.platform hi, Option.map_some]

/-- Settles O53: the words and byte strings are requests and frames that the encoder writes. -/
theorem writtenOutWordsDecode : Obligations.WrittenOutWordsDecode := by
  refine ⟨rfl, rfl, rfl, ?encode, ?encodeParamless, rfl, ?quantize, fun c hc => ?wires⟩
  case encode => exact decodeTableWord_of_encode (by decide) rfl (by decide)
  case encodeParamless => exact decodeTableWord_of_encode (by decide) rfl (by decide)
  case quantize => exact decodeCommand_cons (by decide +kernel)
  case wires =>
    obtain ⟨distinct, -⟩ := hc
    refine ⟨decodeOutbound_outboundFrame distinct .setMotorLevels 0x79 0x7A, ?frame,
      decodeInbound_badLength c (opcodeByte c .getState) (len := 0x0801) (tail := []) (by decide) (by decide)⟩
    exact decodeInbound_encode distinct (i := .inGetState [0x7E]) rfl rfl

end Sys2Proof.Proofs.Wires
end

