-- ==== Sys2Proof/Proofs/EncoderAnswers.lean ====
section
/-!
PROOFS. What the encoder operations of 40_frame_encoder.md and the outbound rows answer: the frame or the byte that their
arguments, `OPCODE_BYTE` and `Q_BOUNDARY` give, in every state.
-/
namespace Sys2Proof.Proofs.EncoderAnswers
open Sys2Proof Sys2Proof.Machine
open Sys2Proof.Proofs.FrameEncoder Sys2Proof.Proofs.Exceptions Sys2Proof.Proofs.CommandPort

/-- Settles O2: its request is its own encoding, its answer `answerFrame_eq`; the coast command is evaluated. -/
theorem encodeParamlessAnswersZeroPayload : Obligations.EncodeParamlessAnswersZeroPayload := by
  refine ⟨fun op s => ⟨⟨[opcodeArgument op], ?request⟩, ?answer⟩, ?coast⟩
  case request => exact decodeCommand_cons (readEncodeParamless_opcodeArgument op [])
  case answer => exact answerFrame_eq op 0x00 0x00 s
  case coast => decide +kernel

/-- Settles O3: ENCODE_MOTOR is the frame of its two control bytes, which the default quantizer makes the exact ones. -/
theorem encodeMotorCarriesLeftThenRight : Obligations.EncodeMotorCarriesLeftThenRight := by
  intro op left right brakeLeft brakeRight s noBoundary
  rw [exec_encodeMotor, answerFrame_eq, quantizeByte_of_none noBoundary, quantizeByte_of_none noBoundary, outboundFrame]

/-- Settles O12: each row is the answer of its frame. -/
theorem outboundRowsAnswerTheirFrames : Obligations.OutboundRowsAnswerTheirFrames := fun s left right =>
  ⟨answerFrame_eq .getLog 0x00 0x00 s, answerFrame_eq .setMotorLevels left right s,
    answerFrame_eq .resetState 0x00 0x00 s, answerFrame_eq .getState 0x00 0x00 s, answerFrame_eq .nack 0x00 0x00 s,
    answerFrame_eq .ack 0x00 0x00 s, answerFrame_eq .start 0x00 0x00 s, answerFrame_eq .stop 0x00 0x00 s⟩

/-! ### What an encoder operation reads -/

/-- A frame reads `OPCODE_BYTE` and no other parameter. -/
theorem outboundFrame_congr {c d : Config} (h : c.opcodeBytes = d.opcodeBytes) (op : Opcode) (p0 p1 : Byte) :
    outboundFrame c op p0 p1 = outboundFrame d op p0 p1 := by
  simp only [outboundFrame, startByte, stopByte, opcodeByte, h]

/-- The quantizer reads `Q_BOUNDARY` and no other parameter. -/
theorem quantizeByte_congr {c d : Config} (h : c.qBoundary = d.qBoundary) (x : Rat) (brake : Bool) :
    quantizeByte c x brake = quantizeByte d x brake := by
  simp only [quantizeByte, boundaryByte, h]

/-- One result answers the instruction in every state with these two parameters. -/
def AnswersAlike (i : Instr) (bytes : Vector Byte 8) (boundary : Option QBoundary) : Prop :=
  ∃ result : Result, ∀ s : State, s.cfg.opcodeBytes = bytes → s.cfg.qBoundary = boundary →
    exec i s = .next { s with resp := { status := .ok, result := result, events := [] } }

/-- Parameters with these two; the others are read by no encoder operation. -/
def withParameters (bytes : Vector Byte 8) (boundary : Option QBoundary) : Config :=
  { Config.platform with opcodeBytes := bytes, qBoundary := boundary }

section
variable (bytes : Vector Byte 8) (boundary : Option QBoundary)

/-- An operation that answers the frame of two fixed bytes. -/
theorem answersAlike_of_frame {i : Instr} (op : Opcode) (p0 p1 : Byte) (h : ∀ s, exec i s = answerFrame op p0 p1 s) :
    AnswersAlike i bytes boundary := by
  refine ⟨.frame (outboundFrame (withParameters bytes boundary) op p0 p1), fun s hbytes _ => ?_⟩
  rw [h, answerFrame_eq, outboundFrame_congr (d := withParameters bytes boundary) hbytes]

theorem answersAlike_encodeMotor (op : Opcode) (left right : Rat) (brakeLeft brakeRight : Bool) :
    AnswersAlike (.encodeMotor op left right brakeLeft brakeRight) bytes boundary := by
  refine ⟨.frame (outboundFrame (withParameters bytes boundary) op
    (quantizeByte (withParameters bytes boundary) left brakeLeft)
    (quantizeByte (withParameters bytes boundary) right brakeRight)), fun s hbytes hboundary => ?_⟩
  rw [exec_encodeMotor, answerFrame_eq, outboundFrame_congr (d := withParameters bytes boundary) hbytes,
    quantizeByte_congr (d := withParameters bytes boundary) hboundary,
    quantizeByte_congr (d := withParameters bytes boundary) hboundary]

theorem answersAlike_quantize (x : Rat) (brake : Bool) : AnswersAlike (.quantize x brake) bytes boundary := by
  refine ⟨.control (quantizeByte (withParameters bytes boundary) x brake), fun s _ hboundary => ?_⟩
  rw [exec_quantize, answer_eq, quantizeByte_congr (d := withParameters bytes boundary) hboundary]

end

/-- Settles O13: by the operation; what some agent may not issue (60_exceptions.md rule R133) is no encoder operation. -/
theorem encoderIsPureAndNeverRefused : Obligations.EncoderIsPureAndNeverRefused := by
  intro i notHealth everyone bytes boundary
  show AnswersAlike i bytes boundary
  cases i
  case health => exact absurd rfl notHealth
  case encode op p0 p1 => exact answersAlike_of_frame bytes boundary op p0 p1 fun _ => rfl
  case encodeParamless op => exact answersAlike_of_frame bytes boundary op 0x00 0x00 fun _ => rfl
  case encodeMotor op left right brakeLeft brakeRight =>
    exact answersAlike_encodeMotor bytes boundary op left right brakeLeft brakeRight
  case quantize x brake => exact answersAlike_quantize bytes boundary x brake
  case outSetMotorLevels left right => exact answersAlike_of_frame bytes boundary .setMotorLevels left right fun _ => rfl
  case outGetLog => exact answersAlike_of_frame bytes boundary .getLog 0x00 0x00 fun _ => rfl
  case outResetState => exact answersAlike_of_frame bytes boundary .resetState 0x00 0x00 fun _ => rfl
  case outGetState => exact answersAlike_of_frame bytes boundary .getState 0x00 0x00 fun _ => rfl
  case outNack => exact answersAlike_of_frame bytes boundary .nack 0x00 0x00 fun _ => rfl
  case outAck => exact answersAlike_of_frame bytes boundary .ack 0x00 0x00 fun _ => rfl
  case outStart => exact answersAlike_of_frame bytes boundary .start 0x00 0x00 fun _ => rfl
  case outStop => exact answersAlike_of_frame bytes boundary .stop 0x00 0x00 fun _ => rfl
  case reset => cases everyone .consumer
  all_goals cases everyone .host

end Sys2Proof.Proofs.EncoderAnswers
end

