-- ==== Sys2Proof/Proofs/QuantizerForms.lean ====
section
/-!
PROOFS. The quantizer of 40_frame_encoder.md section 5 in closed form: the magnitude register as a floor of the clamped input,
the direction bits by the input's sign, and from these two the table of intervals, the brake, the opposite inputs, and what
the parameter `Q_BOUNDARY` may answer instead.
-/
namespace Sys2Proof.Proofs.QuantizerForms
open Sys2Proof Sys2Proof.Machine Sys2Proof.Proofs.FrameEncoder Sys2Proof.Proofs.Exceptions

/-! ### The magnitude register -/

/-- Step 4 of rule R76 as the floor of mathematics, which is not negative where the register is not. -/
theorem motorRegister_eq {v : Rat} (h : 0 ≤ ⌊64 * |v| / (4 * (257 / 200)) - 1⌋) :
    (motorRegister v : Int) = if v = 0 then 0 else ⌊64 * |v| / (4 * (257 / 200)) - 1⌋ := by
  have unfolded : motorRegister v = if v = 0 then 0 else ⌊64 * |v| / (4 * (257 / 200)) - 1⌋.toNat := rfl
  rw [unfolded]
  split
  · rfl
  · exact Int.toNat_of_nonneg h

/-- Steps 1 to 4 outside the dead zone: the floor of step 4 in terms of the input. -/
theorem step4_of_outside {x : Rat} (h : ¬ |x| ≤ 49 / 506) :
    ⌊64 * |motorVoltage x| / (4 * (257 / 200)) - 1⌋ = ⌊16192 * min |x| 1 / 257⌋ - 1 := by
  rw [abs_motorVoltage x h, Int.floor_sub_one]
  congr 2
  ring

/-- Outside the dead zone the floor is 6 to 63, so the register is 5 to 62. -/
theorem floor_bounds {x : Rat} (h : ¬ |x| ≤ 49 / 506) :
    6 ≤ ⌊16192 * min |x| 1 / 257⌋ ∧ ⌊16192 * min |x| 1 / 257⌋ ≤ 63 := by
  have above : 49 / 506 < min |x| 1 := lt_min (not_le.1 h) (by norm_num)
  have below : min |x| 1 ≤ 1 := min_le_right _ _
  constructor
  · rw [Int.le_floor, le_div_iff₀ (by norm_num)]
    push_cast
    linarith
  · rw [← Int.lt_add_one_iff, Int.floor_lt, div_lt_iff₀ (by norm_num)]
    push_cast
    linarith

/-- The register of an input in closed form. -/
theorem motorRegister_motorVoltage (x : Rat) :
    (motorRegister (motorVoltage x) : Int) =
      if |x| ≤ 49 / 506 then 0 else ⌊16192 * min |x| 1 / 257⌋ - 1 := by
  by_cases dead : |x| ≤ 49 / 506
  · rw [if_pos dead, (motorVoltage_eq_zero x).2 dead, motorRegister, if_pos rfl, Nat.cast_zero]
  · obtain ⟨atLeast, -⟩ := floor_bounds dead
    have step4 := step4_of_outside dead
    rw [motorRegister_eq (by omega), if_neg (dead ∘ (motorVoltage_eq_zero x).1), step4, if_neg dead]

theorem motorRegister_le (x : Rat) : motorRegister (motorVoltage x) ≤ 62 := by
  have closed := motorRegister_motorVoltage x
  split at closed
  · omega
  · next dead =>
    obtain ⟨-, atMost⟩ := floor_bounds dead
    omega

/-! ### The direction bits -/

/-- Outside the dead zone the voltage has the sign opposite to the input (rule R78). -/
theorem motorDirection_motorVoltage (x : Rat) (brake : Bool) :
    motorDirection (motorVoltage x) brake =
      if brake then 0b11#2 else if |x| ≤ 49 / 506 then 0b00#2 else if 0 < x then 0b01#2 else 0b10#2 := by
  unfold motorDirection
  refine if_congr Iff.rfl rfl ?_
  by_cases dead : |x| ≤ 49 / 506
  · simp [(motorVoltage_eq_zero x).2 dead, dead]
  · rw [if_neg dead]
    rcases lt_or_ge 0 x with positive | nonpositive
    · have negative : motorVoltage x < 0 := by
        rw [motorVoltage_cases, if_neg dead]
        split_ifs <;> linarith
      rw [if_pos negative, if_pos positive]
    · have outside : x < -(49 / 506) := by rw [abs_of_nonpos nonpositive] at dead; linarith
      have positive : 0 < motorVoltage x := by
        rw [motorVoltage_cases, if_neg dead, if_neg (by linarith)]
        split_ifs <;> linarith
      rw [if_neg positive.not_gt, if_pos positive, if_neg nonpositive.not_gt]

/-! ### The control byte -/

/-- The exact control byte, by its fields and its value (30_encoding.md rule R61). -/
theorem quantizeExact_fields (x : Rat) (brake : Bool) :
    controlMagnitude (quantizeExact x brake) = BitVec.ofNat 6 (motorRegister (motorVoltage x)) ∧
      controlDirection (quantizeExact x brake) = motorDirection (motorVoltage x) brake ∧
      (quantizeExact x brake).toNat = 4 * motorRegister (motorVoltage x) + (motorDirection (motorVoltage x) brake).toNat :=
  controlByte_fields _ _ ((motorRegister_le x).trans (by decide))

theorem controlMagnitude_toNat (x : Rat) (brake : Bool) :
    (controlMagnitude (quantizeExact x brake)).toNat = motorRegister (motorVoltage x) := by
  obtain ⟨magnitude, -⟩ := quantizeExact_fields x brake
  have := motorRegister_le x
  rw [magnitude, BitVec.toNat_ofNat, Nat.mod_eq_of_lt (by omega)]

/-- Settles O5: the register and the direction of the input are those of its control byte. -/
theorem quantizerClosedForm : Obligations.QuantizerClosedForm := by
  intro x brake
  obtain ⟨-, direction, -⟩ := quantizeExact_fields x brake
  rw [controlMagnitude_toNat, direction]
  exact ⟨motorRegister_motorVoltage x, motorDirection_motorVoltage x brake⟩

theorem motorDirection_toNat (v : Rat) (brake : Bool) :
    ((motorDirection v brake).toNat : Int) = if brake then 3 else if v < 0 then 1 else if 0 < v then 2 else 0 := by
  unfold motorDirection
  split_ifs <;> rfl

/-- The floor of step 4 is nowhere used where it is negative. -/
theorem motorRegister_floor (x : Rat) :
    (motorRegister (motorVoltage x) : Int) =
      if motorVoltage x = 0 then 0 else ⌊64 * |motorVoltage x| / (4 * (257 / 200)) - 1⌋ := by
  rw [motorRegister_motorVoltage]
  by_cases dead : |x| ≤ 49 / 506
  · rw [if_pos dead, if_pos ((motorVoltage_eq_zero x).2 dead)]
  · rw [if_neg dead, if_neg (dead ∘ (motorVoltage_eq_zero x).1), step4_of_outside dead]

/-- Settles O4: the statement's `v` is `motorVoltage x`, and the byte is its register and its direction, packed. -/
theorem quantizeFollowsItsFiveSteps : Obligations.QuantizeFollowsItsFiveSteps := by
  intro x brake s noBoundary
  refine ⟨quantizeExact x brake, exec_quantize_exact noBoundary x brake, ?_⟩
  have packed : ((quantizeExact x brake).toNat : Int) =
      4 * (if motorVoltage x = 0 then 0 else ⌊64 * |motorVoltage x| / (4 * (257 / 200)) - 1⌋) +
        (if brake then 3 else if motorVoltage x < 0 then 1 else if 0 < motorVoltage x then 2 else 0) := by
    obtain ⟨-, -, value⟩ := quantizeExact_fields x brake
    rw [value, ← motorRegister_floor, ← motorDirection_toNat]
    push_cast
    rfl
  exact packed

/-! ### The interval of each magnitude (rule R82) -/

theorem motorRegister_eq_zero_iff (x : Rat) : motorRegister (motorVoltage x) = 0 ↔ |x| ≤ 49 / 506 := by
  have closed := motorRegister_motorVoltage x
  split at closed
  · next dead => exact iff_of_true (by omega) dead
  · next dead =>
    obtain ⟨atLeast, -⟩ := floor_bounds dead
    exact iff_of_false (by omega) dead

/-- Below the clamp, magnitude k is a unit interval of the scaled input. -/
theorem motorRegister_eq_iff {x : Rat} (outside : ¬ |x| ≤ 49 / 506) {k : Nat} (hk : k ≤ 61) :
    motorRegister (motorVoltage x) = k ↔
      257 * ((k : Rat) + 1) / 16192 ≤ |x| ∧ |x| < 257 * ((k : Rat) + 2) / 16192 := by
  have closed := motorRegister_motorVoltage x
  rw [if_neg outside] at closed
  have hk' : (k : Rat) ≤ 61 := by exact_mod_cast hk
  calc motorRegister (motorVoltage x) = k ↔ ⌊16192 * min |x| 1 / 257⌋ = (k : Int) + 1 := by omega
    _ ↔ 257 * ((k : Rat) + 1) / 16192 ≤ min |x| 1 ∧ min |x| 1 < 257 * ((k : Rat) + 2) / 16192 := by
      rw [Int.floor_eq_iff]
      push_cast
      constructor <;> rintro ⟨low, high⟩ <;> constructor <;> linarith
    _ ↔ _ := by
      rw [le_min_iff, min_lt_iff]
      have low : 257 * ((k : Rat) + 1) / 16192 ≤ 1 := by linarith
      have high : ¬ (1 : Rat) < 257 * ((k : Rat) + 2) / 16192 := by linarith
      simp only [low, high, and_true, or_false]

/-- The clamp makes the last interval unbounded. -/
theorem motorRegister_eq_last_iff (x : Rat) : motorRegister (motorVoltage x) = 62 ↔ 16191 / 16192 ≤ |x| := by
  by_cases dead : |x| ≤ 49 / 506
  · have zero := (motorRegister_eq_zero_iff x).2 dead
    exact iff_of_false (by omega) (by linarith)
  · have closed := motorRegister_motorVoltage x
    rw [if_neg dead] at closed
    obtain ⟨-, atMost⟩ := floor_bounds dead
    calc motorRegister (motorVoltage x) = 62 ↔ 63 ≤ ⌊16192 * min |x| 1 / 257⌋ := by omega
      _ ↔ 16191 / 16192 ≤ min |x| 1 := by
        rw [Int.le_floor]
        push_cast
        constructor <;> intro h <;> linarith
      _ ↔ _ := by
        rw [le_min_iff]
        exact and_iff_left (by norm_num)

theorem motorRegister_range (x : Rat) :
    motorRegister (motorVoltage x) = 0 ∨
      5 ≤ motorRegister (motorVoltage x) ∧ motorRegister (motorVoltage x) ≤ 62 := by
  have closed := motorRegister_motorVoltage x
  split at closed
  · left; omega
  · next dead =>
    obtain ⟨atLeast, atMost⟩ := floor_bounds dead
    right; omega

/-- An input inside the interval of magnitude k, for every k from 5 to 62, in the contract range. -/
def inputOfMagnitude (k : Nat) : Rat := (256 * k + 319) / 16192

theorem motorRegister_inputOfMagnitude {k : Nat} (h5 : 5 ≤ k) (h62 : k ≤ 62) :
    |inputOfMagnitude k| ≤ 1 ∧ motorRegister (motorVoltage (inputOfMagnitude k)) = k := by
  have h5' : (5 : Rat) ≤ k := by exact_mod_cast h5
  have h62' : (k : Rat) ≤ 62 := by exact_mod_cast h62
  have size : |inputOfMagnitude k| = (256 * k + 319) / 16192 := abs_of_nonneg (by unfold inputOfMagnitude; linarith)
  refine ⟨by rw [size]; linarith, ?_⟩
  rcases Nat.lt_or_ge 61 k with last | below
  · obtain rfl : k = 62 := by omega
    rw [motorRegister_eq_last_iff, size]
    norm_num
  · rw [motorRegister_eq_iff (by rw [size]; linarith) below, size]
    have below' : (k : Rat) ≤ 61 := by exact_mod_cast below
    constructor <;> linarith

/-- Settles O6: each clause is one of the lemmas above, read at the register that the control byte carries. -/
theorem quantizerMagnitudeIntervals : Obligations.QuantizerMagnitudeIntervals := by
  refine ⟨fun x brake => ?_, fun k h5 h62 => ⟨inputOfMagnitude k, ?_⟩⟩ <;> simp only [controlMagnitude_toNat]
  · exact ⟨motorRegister_eq_zero_iff x, motorRegister_range x,
      fun outside k _ h61 => motorRegister_eq_iff outside.not_ge h61, motorRegister_eq_last_iff x⟩
  · exact motorRegister_inputOfMagnitude h5 h62

/-! ### Brake, opposite inputs, the dead zone -/

theorem quantizeExact_of_dead {x : Rat} (h : |x| ≤ 49 / 506) (brake : Bool) :
    quantizeExact x brake = quantizeExact 0 brake :=
  quantizeExact_congr (by rw [(motorVoltage_eq_zero x).2 h, (motorVoltage_eq_zero 0).2 (by norm_num)]) brake

/-- The dead zone's two bytes. -/
theorem quantizeExact_zero : quantizeExact 0 false = 0x00 ∧ quantizeExact 0 true = 0x03 := by decide +kernel

theorem motorDirection_false_ne_brake (v : Rat) : motorDirection v false ≠ 0b11#2 := by
  rw [motorDirection, if_neg Bool.false_ne_true]
  split_ifs <;> decide

/-- Settles O7: the magnitude bits do not read the brake flag, and the direction bits are by cases of it. -/
theorem brakeSetsBothBitsAndKeepsMagnitude : Obligations.BrakeSetsBothBitsAndKeepsMagnitude := by
  refine ⟨fun x => ?_, fun x => ?_⟩
  · obtain ⟨magnitude, direction, -⟩ := quantizeExact_fields x true
    obtain ⟨magnitude', -⟩ := quantizeExact_fields x false
    obtain ⟨-, zero⟩ := quantizeExact_zero
    exact ⟨direction, magnitude.trans magnitude'.symm, fun dead => (quantizeExact_of_dead dead true).trans zero⟩
  · obtain ⟨-, direction, -⟩ := quantizeExact_fields x false
    exact direction ▸ motorDirection_false_ne_brake _

/-- The register reads the size of the input alone. -/
theorem motorRegister_neg (x : Rat) : motorRegister (motorVoltage (-x)) = motorRegister (motorVoltage x) := by
  have h := motorRegister_motorVoltage (-x)
  rw [abs_neg, ← motorRegister_motorVoltage x] at h
  exact_mod_cast h

/-- Settles O9: the magnitude by `motorRegister_neg`, the direction by the sign of each of the two inputs. -/
theorem oppositeInputsShareTheMagnitude : Obligations.OppositeInputsShareTheMagnitude := by
  refine fun x => ⟨fun brake => ?_, fun above => ?_⟩
  · obtain ⟨magnitude, -⟩ := quantizeExact_fields x brake
    obtain ⟨magnitude', -⟩ := quantizeExact_fields (-x) brake
    rw [magnitude, magnitude', motorRegister_neg]
  · have positive : 0 < x := by linarith
    have outside : ¬ |x| ≤ 49 / 506 := by rw [abs_of_pos positive]; exact above.not_ge
    obtain ⟨-, forward, -⟩ := quantizeExact_fields x false
    obtain ⟨-, backward, -⟩ := quantizeExact_fields (-x) false
    rw [forward, backward, motorDirection_motorVoltage, motorDirection_motorVoltage, abs_neg]
    simp [outside, positive, positive.le]

/-- Settles O11: both control bytes are that of input 0. -/
theorem deadZoneMotorCommandIsZeroPayload : Obligations.DeadZoneMotorCommandIsZeroPayload := by
  intro left right s noBoundary deadLeft deadRight
  obtain ⟨zero, -⟩ := quantizeExact_zero
  rw [exec_encodeMotor, answerFrame_eq, quantizeByte_of_none noBoundary, quantizeByte_of_none noBoundary,
    quantizeExact_of_dead deadLeft, quantizeExact_of_dead deadRight, zero, outboundFrame]

/-! ### The parameter `Q_BOUNDARY` (rule R84) -/

theorem adjacentMagnitudes_iff {lower upper : Nat} :
    adjacentMagnitudes lower upper = true ↔
      (lower = 0 ∧ upper = 5) ∨ (5 ≤ lower ∧ upper = lower + 1 ∧ upper ≤ 62) := by
  simp only [adjacentMagnitudes, Bool.or_eq_true, Bool.and_eq_true, beq_iff_eq, decide_eq_true_eq]
  omega

/-- The byte of a given magnitude carries that magnitude, with the direction of the input's sign and the brake. -/
theorem byteOfMagnitude_fields {reg : Nat} (h : reg ≤ 62) {x : Rat} (hx : x ≠ 0) (brake : Bool) :
    (controlMagnitude (byteOfMagnitude reg x brake)).toNat = reg ∧
      controlDirection (byteOfMagnitude reg x brake) =
        if brake then 0b11#2 else if reg = 0 then 0b00#2 else if 0 < x then 0b01#2 else 0b10#2 := by
  obtain ⟨magnitude, direction, -⟩ :=
    controlByte_fields reg (motorDirection (if reg = 0 then 0 else -x) brake) (h.trans (by decide))
  refine ⟨?_, direction.trans ?_⟩
  · rw [byteOfMagnitude, magnitude, BitVec.toNat_ofNat, Nat.mod_eq_of_lt (by omega)]
  · unfold motorDirection
    refine if_congr Iff.rfl rfl ?_
    by_cases zero : reg = 0
    · simp [zero]
    · simp only [if_neg zero, Left.neg_neg_iff, Left.neg_pos_iff]
      rcases lt_or_gt_of_ne hx with negative | positive
      · rw [if_neg negative.not_gt, if_pos negative, if_neg negative.not_gt]
      · rw [if_pos positive, if_pos positive]

/-- What `Q_BOUNDARY` may answer for an input instead of the exact byte (00_scope.md rule R8). -/
def AdjacentResult (distance x : Rat) (brake : Bool) (byte : Byte) : Prop :=
  ∃ lower upper : Nat,
    ((lower = 0 ∧ upper = 5) ∨ (5 ≤ lower ∧ upper = lower + 1 ∧ upper ≤ 62)) ∧
    (((controlMagnitude (quantizeExact x brake)).toNat = lower ∧ (controlMagnitude byte).toNat = upper) ∨
      ((controlMagnitude (quantizeExact x brake)).toNat = upper ∧ (controlMagnitude byte).toNat = lower)) ∧
    |(|x| - magnitudeBoundary lower)| ≤ distance ∧
    controlDirection byte =
      if brake then 0b11#2
      else if (controlMagnitude byte).toNat = 0 then 0b00#2
      else if 0 < x then 0b01#2
      else 0b10#2

/-- A legal value is the exact byte or an adjacent result. -/
theorem exact_or_adjacent_of_legal {distance x : Rat} {brake : Bool} {byte : Byte}
    (h : boundaryEntryLegal distance ⟨x, brake, byte⟩ = true) :
    byte = quantizeExact x brake ∨ x ≠ 0 ∧ AdjacentResult distance x brake byte := by
  simp only [boundaryEntryLegal, Bool.or_eq_true, Bool.and_eq_true, beq_iff_eq, bne_iff_ne, List.any_eq_true,
    List.mem_range, decide_eq_true_eq] at h
  rcases h with same | ⟨hx, other, hother, rfl, adjacent⟩
  · exact .inl same
  · obtain ⟨magnitude, direction⟩ := byteOfMagnitude_fields (Nat.le_of_lt_succ hother) hx brake
    refine .inr ⟨hx, ?_⟩
    rcases adjacent with ⟨hadjacent, near⟩ | ⟨hadjacent, near⟩
    · exact ⟨_, _, adjacentMagnitudes_iff.1 hadjacent, .inl ⟨controlMagnitude_toNat x brake, magnitude⟩, near,
        by rw [direction, magnitude]⟩
    · exact ⟨_, _, adjacentMagnitudes_iff.1 hadjacent, .inr ⟨controlMagnitude_toNat x brake, magnitude⟩, near,
        by rw [direction, magnitude]⟩

/-- Settles O10: a known value is answered by `boundaryByte_of_known`; whatever is answered is legal, or the exact byte. -/
theorem boundaryTableGivesExactOrAdjacentResult : Obligations.BoundaryTableGivesExactOrAdjacentResult := by
  intro x brake s q legal hq
  refine ⟨quantizeByte s.cfg x brake, by rw [exec_quantize, answer_eq], fun known found => ?known, ?allowed⟩
  case known => rw [quantizeByte, boundaryByte_of_known hq found]
  case allowed =>
    cases covered : boundaryByte s.cfg x brake with
    | none => exact .inl (by rw [quantizeByte, covered])
    | some byte =>
      rw [quantizeByte, covered]
      exact exact_or_adjacent_of_legal (boundaryByte_legal legal hq covered)

end Sys2Proof.Proofs.QuantizerForms
end

