-- ==== Sys2Proof/Proofs/FeedEnds.lean ====
section
/-!
PROOFS. Every FEED, said once: it is refused, or its guard and its pass desync and then it waits, queues a frame, or halts.
With it what the DESYNCs on the way raise, count and drop, and the statements of 41_resynchronizer.md section 7 and
60_exceptions.md section 4 that follow.
-/
namespace Sys2Proof.Proofs.FeedEnds
open Sys2Proof Sys2Proof.Machine
open Sys2Proof.Proofs.OverflowGuard Sys2Proof.Proofs.QueueOverflow

/-! ### The counter (60_exceptions.md rule R123) -/

/-- From block `a` to block `b` every DESYNC_EVENT went into the counter, and every PERSISTENT_DESYNC took five out. -/
def CountsToFive (a b : Block) (events : List Event) : Prop :=
  a.badCount ≤ 4 →
    b.badCount ≤ 4 ∧ 5 * events.countP isPersistent + b.badCount = a.badCount + events.countP isDesync

theorem CountsToFive.of_nil {a b : Block} (h : b.badCount = a.badCount) : CountsToFive a b [] := fun ha =>
  ⟨h ▸ ha, by rw [h]; exact Nat.zero_add _⟩

theorem CountsToFive.trans {a b d : Block} {events later : List Event} (h : CountsToFive a b events)
    (h' : CountsToFive b d later) : CountsToFive a d (events ++ later) := by
  intro ha
  obtain ⟨hb, counted⟩ := h ha
  obtain ⟨hd, counted'⟩ := h' hb
  refine ⟨hd, ?_⟩
  rw [List.countP_append, List.countP_append]
  omega

theorem countP_isPersistent_persistentAt (n : Nat) :
    (persistentAt n).countP isPersistent = if n = 4 then 1 else 0 := by
  rw [persistentAt_eq]
  split <;> rfl

/-- One DESYNC (41_resynchronizer.md rule R95). -/
theorem CountsToFive.of_desync {a b : Block} (h : b.badCount = bumped a.badCount) (cause : DesyncCause)
    (origin dropped : Nat) : CountsToFive a b (.desync cause origin dropped :: persistentAt a.badCount) := by
  intro ha
  rw [List.countP_cons_of_neg Bool.false_ne_true, List.countP_cons_of_pos rfl, countP_isPersistent_persistentAt,
    countP_isDesync_persistentAt, h, bumped_eq]
  split <;> omega

/-! ### The order of events (60_exceptions.md section 4) -/

/-- Every PERSISTENT_DESYNC stands right behind a DESYNC_EVENT of the list. -/
def PersistentBehindDesync (events : List Event) : Prop :=
  events[0]? ≠ some .persistentDesync ∧
    ∀ k : Nat, events[k + 1]? = some .persistentDesync →
      ∃ (cause : DesyncCause) (origin dropped : Nat), events[k]? = some (.desync cause origin dropped)

/-- A list without a PERSISTENT_DESYNC. -/
theorem PersistentBehindDesync.of_not_mem {events : List Event} (h : .persistentDesync ∉ events) :
    PersistentBehindDesync events :=
  ⟨fun first => h (List.mem_of_getElem? first), fun _ later => absurd (List.mem_of_getElem? later) h⟩

theorem PersistentBehindDesync.of_desync (cause : DesyncCause) (origin dropped n : Nat) :
    PersistentBehindDesync (.desync cause origin dropped :: persistentAt n) := by
  refine ⟨by simp, fun k hk => ?_⟩
  cases k with
  | zero => exact ⟨cause, origin, dropped, rfl⟩
  | succ k =>
    rw [List.getElem?_cons_succ, persistentAt_eq] at hk
    split at hk <;> simp at hk

/-- The seam of two lists is no exception: the second does not begin with a PERSISTENT_DESYNC. -/
theorem PersistentBehindDesync.append {xs ys : List Event} (hx : PersistentBehindDesync xs)
    (hy : PersistentBehindDesync ys) : PersistentBehindDesync (xs ++ ys) := by
  obtain ⟨firstX, laterX⟩ := hx
  obtain ⟨firstY, laterY⟩ := hy
  refine ⟨?_, fun k hk => ?_⟩
  · cases xs with
    | nil => exact firstY
    | cons x xs => exact firstX
  · rcases Nat.lt_or_ge (k + 1) xs.length with within | beyond
    · rw [List.getElem?_append_left within] at hk
      rw [List.getElem?_append_left (by omega)]
      exact laterX k hk
    · rw [List.getElem?_append_right beyond] at hk
      rcases Nat.lt_or_ge k xs.length with seam | beyond'
      · rw [show k + 1 - xs.length = 0 by omega] at hk
        exact absurd hk firstY
      · rw [Nat.sub_add_comm beyond'] at hk
        rw [List.getElem?_append_right beyond']
        exact laterY _ hk

/-! ### The DESYNCs of a pass -/

/-- An event that a pass raises before it waits or emits (41_resynchronizer.md rule R96). -/
def IsPassEvent (e : Event) : Prop := (isDesync e = true ∧ isOverflow e = false) ∨ isPersistent e = true

theorem isPassEvent_of_mem_persistentAt {n : Nat} {e : Event} (h : e ∈ persistentAt n) : IsPassEvent e := by
  rw [persistentAt_eq] at h
  split at h
  · rw [List.mem_singleton.1 h]; exact .inr rfl
  · cases h

/-- What the DESYNCs of a pass from block `a` to block `b` raise and drop: each drops the start marker of the candidate it
rejects (rule R99). -/
structure PassReport (c : Config) (a b : Block) (events : List Event) : Prop where
  kinds : ∀ e ∈ events, IsPassEvent e
  order : PersistentBehindDesync events
  starts : events.countP isDesync + startCount c b.acc ≤ startCount c a.acc
  shorter : b.acc.length ≤ a.acc.length

theorem PassReport.refl (c : Config) (b : Block) : PassReport c b b [] where
  kinds _ h := nomatch h
  order := .of_not_mem (List.not_mem_nil)
  starts := by rw [List.countP_nil, Nat.zero_add]
  shorter := le_rfl

theorem PassReport.trans {c : Config} {a b d : Block} {events later : List Event} (h : PassReport c a b events)
    (h' : PassReport c b d later) : PassReport c a d (events ++ later) where
  kinds e he := (List.mem_append.1 he).elim (h.kinds e) (h'.kinds e)
  order := h.order.append h'.order
  starts := by
    have first := h.starts
    have second := h'.starts
    rw [List.countP_append]
    omega
  shorter := h'.shorter.trans h.shorter

/-- The DESYNC of a rejected candidate. -/
theorem passReport_desync {c : Config} {b : Block} {cause : DesyncCause} {s : Nat}
    (h : classify c b.acc = .reject cause s) :
    PassReport c b (desync c cause (s + 1) b).1 (desync c cause (s + 1) b).2 := by
  have hcause := classify_reject_cause h
  have fewer := startCount_resync_lt h
  rw [desync_eq]
  refine ⟨fun e he => ?_, .of_desync cause (s + 1) _ _, ?_, resync_length_le c (s + 1) b⟩
  · rcases List.mem_cons.1 he with rfl | he
    · refine .inl ⟨rfl, ?_⟩
      cases cause with
      | overflow => exact absurd rfl hcause
      | badLength | badOpcode | badTerminator => rfl
    · exact isPassEvent_of_mem_persistentAt he
  · rw [List.countP_cons_of_pos rfl, countP_isDesync_persistentAt]
    simp only
    omega

theorem countsToFive_desync (c : Config) (cause : DesyncCause) (origin : Nat) (b : Block) :
    CountsToFive b (desync c cause origin b).1 (desync c cause origin b).2 := by
  rw [desync_eq]
  exact .of_desync rfl cause origin _

/-- A pass from block `b` with outcome `r` desyncs to a block on which `classify` waits, or to one on which it accepts and
that EMIT then takes; with its report. -/
def ReportsThenEnds (c : Config) (b : Block) (r : Block × List Event) : Prop :=
  ∃ (d : Block) (events : List Event), OnlyDesyncs b d events ∧ CountsToFive b d events ∧ PassReport c b d events ∧
    ((isWait (classify c d.acc) = true ∧ r = (d, events)) ∨
      ∃ (s len : Nat) (op : Byte), classify c d.acc = .accept s op len ∧
        r = ((emit c s op len d).1, events ++ (emit c s op len d).2))

theorem reportsThenEnds_pass (c : Config) (b : Block) : ReportsThenEnds c b (pass c b) := by
  refine pass_induction (P := ReportsThenEnds c) ?wait ?accept ?reject b
  case wait => exact fun b hw => ⟨b, [], .of_acc b b.acc, .of_nil rfl, .refl c b, .inl ⟨hw, rfl⟩⟩
  case accept =>
    exact fun b s op len hc => ⟨b, [], .of_acc b b.acc, .of_nil rfl, .refl c b, .inr ⟨s, len, op, hc, rfl⟩⟩
  case reject =>
    rintro b cause s r hc ⟨d, events, only, counts, report, ends⟩
    refine ⟨d, _, (onlyDesyncs_desync c cause (s + 1) b).trans only,
      (countsToFive_desync c cause (s + 1) b).trans counts, (passReport_desync hc).trans report, ?_⟩
    rcases ends with ⟨hw, rfl⟩ | ⟨st, len, op, hc, rfl⟩
    · exact .inl ⟨hw, rfl⟩
    · exact .inr ⟨st, len, op, hc, by rw [List.append_assoc]⟩

/-! ### The guard's events -/

/-- The guard raises nothing, or its one DESYNC_EVENT of origin 0 with its count (rule R97). -/
theorem overflowGuard_events (c : Config) (batch : List Byte) (b : Block) :
    (overflowGuard c batch b).2 = [] ∨
      ∃ dropped : Nat, (overflowGuard c batch b).2 = .desync .overflow 0 dropped :: persistentAt b.badCount := by
  rcases Nat.lt_or_ge c.accCap (b.acc.length + batch.length) with noRoom | room
  · rw [overflowGuard_of_noRoom noRoom]
    exact .inr ⟨_, rfl⟩
  · rw [overflowGuard_of_room room]
    exact .inl rfl

theorem countsToFive_overflowGuard (c : Config) (batch : List Byte) (b : Block) :
    CountsToFive b (overflowGuard c batch b).1 (overflowGuard c batch b).2 := by
  rcases Nat.lt_or_ge c.accCap (b.acc.length + batch.length) with noRoom | room
  · rw [overflowGuard_of_noRoom noRoom]
    exact .of_desync rfl .overflow 0 _
  · rw [overflowGuard_of_room room]
    exact .of_nil rfl

/-! ### The ends of a performed FEED (41_resynchronizer.md rule R98) -/

/-- Where `classify` accepts, the payload that EMIT reads is as long as the header says. -/
theorem memRead_length_of_accept {c : Config} {acc : List Byte} {s len : Nat} {op : Byte}
    (h : classify c acc = .accept s op len) : (memRead acc (s + 4) len).length = len := by
  obtain ⟨-, -, -, -, terminator⟩ := classify_accept h
  obtain ⟨within, -⟩ := List.getElem?_eq_some_iff.1 terminator
  rw [memRead, List.length_take, List.length_drop]
  omega

theorem emit_of_room {c : Config} {b : Block} (h : b.queue.length ≠ queueCap) (s len : Nat) (op : Byte) :
    emit c s op len b =
      ({ b with acc := [], curOpcode := none, curLength := none, badCount := 0,
                queue := b.queue ++ [⟨op, memRead b.acc (s + 4) len⟩] }, [.frame op len]) := if_neg h

theorem settle_of_noStart {c : Config} {b : Block} (hh : b.halted = false) (h : NoStart c b.acc) :
    settle c b = seekingStartBlock c b.acc b.badCount b.queue := by
  rw [settle, classify_of_no_start (firstStart_of_no_start h 0), seekingStartBlock, ← hh]

/-- At rest behind an EMIT the block is empty but for its queue (rule R94). -/
theorem settle_emit_of_room {c : Config} {b : Block} (hh : b.halted = false) (room : b.queue.length ≠ queueCap)
    (s len : Nat) (op : Byte) :
    settle c (emit c s op len b).1 =
      seekingStartBlock c [] 0 (b.queue ++ [⟨op, memRead b.acc (s + 4) len⟩]) := by
  rw [emit_of_room room]
  exact settle_of_noStart hh (List.forall_mem_nil _)

/-- How a performed FEED ends, from the block `d` and the events that its DESYNCs left. -/
inductive FeedEnd (c : Config) (d : Block) (events : List Event) : Block × Response → Prop
  | waits (h : isWait (classify c d.acc) = true) : FeedEnd c d events (settle c d, okResponse .none events)
  | queues (e : Entry) (room : d.queue.length ≠ queueCap) (wf : Entry.Wf c e) :
      FeedEnd c d events
        (seekingStartBlock c [] 0 (d.queue ++ [e]), okResponse .none (events ++ [.frame e.opcode e.payload.length]))
  | halts (s len : Nat) (op : Byte) (full : d.queue.length = queueCap) (h : classify c d.acc = .accept s op len) :
      FeedEnd c d events (haltOnOverflow c s op len d, okResponse .none (events ++ [.fatalQueueOverflow op len]))

/-- An accepted candidate is queued or halts the block. -/
theorem feedEnd_of_accept {c : Config} {d : Block} {s len : Nat} {op : Byte} (hh : d.halted = false)
    (h : classify c d.acc = .accept s op len) (events : List Event) :
    FeedEnd c d events
      (if (emit c s op len d).1.halted then (emit c s op len d).1 else settle c (emit c s op len d).1,
        okResponse .none (events ++ (emit c s op len d).2)) := by
  by_cases full : d.queue.length = queueCap
  · rw [emit_of_full full, haltOnOverflow_halted, if_pos rfl]
    exact .halts s len op full h
  · obtain ⟨-, recog, len_le, -⟩ := classify_accept h
    have length := memRead_length_of_accept h
    have runs : (emit c s op len d).1.halted = false := by rw [emit_of_room full]; exact hh
    have events_eq : (emit c s op len d).2 = [.frame op len] := by rw [emit_of_room full]
    rw [runs, if_neg Bool.false_ne_true, settle_emit_of_room hh full, events_eq]
    have queued := FeedEnd.queues (events := events) ⟨op, memRead d.acc (s + 4) len⟩ full ⟨recog, by rw [length]; exact len_le⟩
    rwa [length] at queued

/-- A performed FEED: the guard's events, the pass's with their report, and the end. -/
structure Performed (c : Config) (batch : List Byte) (b d : Block) (passed : List Event) : Prop where
  runs : b.halted = false
  short : batch.length ≤ c.batchMax
  only : OnlyDesyncs b d ((overflowGuard c batch b).2 ++ passed)
  counts : CountsToFive b d ((overflowGuard c batch b).2 ++ passed)
  report : PassReport c (accAppend batch (overflowGuard c batch b).1) d passed
  ends : FeedEnd c d ((overflowGuard c batch b).2 ++ passed) (feed c batch b)

theorem feed_performed {c : Config} {batch : List Byte} {b : Block} (h : b.halted = false)
    (hl : batch.length ≤ c.batchMax) : ∃ (d : Block) (passed : List Event), Performed c batch b d passed := by
  obtain ⟨d, passed, only, counts, report, ends⟩ :=
    reportsThenEnds_pass c (accAppend batch (overflowGuard c batch b).1)
  have all := ((onlyDesyncs_overflowGuard c batch b).trans (.of_acc _ _)).trans only
  have counted := ((countsToFive_overflowGuard c batch b).trans (.of_nil (accAppend_badCount batch _))).trans counts
  rw [List.append_nil] at all counted
  have runs : d.halted = false := by rw [all.unchanged, h]
  refine ⟨d, passed, h, hl, all, counted, report, ?_⟩
  rw [feed_of_ok h hl]
  rcases ends with ⟨hw, hp⟩ | ⟨s, len, op, hc, hp⟩
  · simp only [hp, runs, Bool.false_eq_true, if_false]
    exact .waits hw
  · simp only [hp, ← List.append_assoc]
    exact feedEnd_of_accept runs hc _

/-- Every FEED is refused and changes nothing, or is performed. -/
theorem feed_cases (c : Config) (batch : List Byte) (b : Block) :
    (∃ reason : RefusalReason, feed c batch b = (b, refusedResponse reason)) ∨
      ∃ (d : Block) (passed : List Event), Performed c batch b d passed := by
  cases hh : b.halted with
  | true => exact .inl ⟨_, feed_of_halted hh⟩
  | false =>
    rcases Nat.lt_or_ge c.batchMax batch.length with tooLong | hl
    · exact .inl ⟨_, feed_of_tooLong hh tooLong⟩
    · exact .inr (feed_performed hh hl)

section
variable {c : Config} {batch : List Byte} {b d : Block} {passed : List Event}

theorem Performed.queue_eq (h : Performed c batch b d passed) : d.queue = b.queue := by rw [h.only.unchanged]

theorem Performed.halted_eq (h : Performed c batch b d passed) : d.halted = false := by rw [h.only.unchanged, h.runs]

end

end Sys2Proof.Proofs.FeedEnds
end

