-- ==== Sys2Proof/Proofs/FeedProperties.lean ====
section
/-!
PROOFS. The properties of every FEED (41_resynchronizer.md sections 6 and 7, 60_exceptions.md sections 2 and 4), each read off
the report of its DESYNCs and the way it ends.
-/
namespace Sys2Proof.Proofs.FeedProperties
open Sys2Proof Sys2Proof.Machine
open Sys2Proof.Proofs.Reset Sys2Proof.Proofs.FeedEnds

/-! ### Completion and rest -/

theorem settled_settle {c : Config} {b : Block} (h : isWait (classify c b.acc) = true) :
    Block.Settled c (settle c b) := ⟨by rwa [settle_acc], settle_settle c b⟩

theorem settled_seekingStartBlock (c : Config) (badCount : Nat) (queue : List Entry) :
    Block.Settled c (seekingStartBlock c [] badCount queue) :=
  ⟨isWait_classify_nil c, settle_of_acc_nil c rfl⟩

/-- A performed FEED answers OK without a result, and leaves the block halted or settled. -/
theorem feedEnd_rests {c : Config} {d : Block} {events : List Event} {r : Block × Response}
    (h : FeedEnd c d events r) :
    ∃ raised : List Event, r.2 = okResponse .none raised ∧ (r.1.halted = true ∨ Block.Settled c r.1) ∧
      (r.1.queue = d.queue ∨ ∃ e : Entry, r.1.queue = d.queue ++ [e]) := by
  cases h with
  | waits h => exact ⟨_, rfl, .inr (settled_settle h), .inl (settle_queue c d)⟩
  | queues e => exact ⟨_, rfl, .inr (settled_seekingStartBlock c 0 _), .inr ⟨e, rfl⟩⟩
  | halts => exact ⟨_, rfl, .inl rfl, .inl rfl⟩

/-- Settles O16: the three ends of a performed FEED. -/
theorem feedCompletesSettledOrHalted : Obligations.FeedCompletesSettledOrHalted := by
  intro batch s runs short
  obtain ⟨d, passed, performed⟩ := feed_performed runs short
  obtain ⟨raised, response, rests, queue⟩ := feedEnd_rests performed.ends
  rw [performed.queue_eq] at queue
  exact ⟨_, raised, exec_feed_of_feed (Prod.ext rfl response), rests, queue⟩

/-! ### The events of a performed FEED -/

/-- The events that end a FEED: none, FRAME, or the fatal one. -/
theorem feedEnd_events {c : Config} {d : Block} {events : List Event} {r : Block × Response}
    (h : FeedEnd c d events r) :
    ∃ last : List Event, r.2.events = events ++ last ∧
      (last = [] ∨ ∃ (op : Byte) (len : Nat), last = [.frame op len] ∨ last = [.fatalQueueOverflow op len]) := by
  cases h with
  | waits => exact ⟨[], (List.append_nil _).symm, .inl rfl⟩
  | queues e => exact ⟨_, rfl, .inr ⟨e.opcode, e.payload.length, .inl rfl⟩⟩
  | halts _ len op => exact ⟨_, rfl, .inr ⟨op, len, .inr rfl⟩⟩

theorem persistentBehindDesync_guard (c : Config) (batch : List Byte) (b : Block) :
    PersistentBehindDesync (overflowGuard c batch b).2 := by
  rcases overflowGuard_events c batch b with quiet | ⟨dropped, one⟩
  · rw [quiet]; exact .of_not_mem List.not_mem_nil
  · rw [one]; exact .of_desync .overflow 0 dropped _

theorem persistentBehindDesync_last {last : List Event}
    (h : last = [] ∨ ∃ (op : Byte) (len : Nat), last = [.frame op len] ∨ last = [.fatalQueueOverflow op len]) :
    PersistentBehindDesync last := by
  rcases h with rfl | ⟨op, len, rfl | rfl⟩ <;> exact .of_not_mem (by simp)

/-- Settles O30: the guard's events, the pass's, and the end's, in this order; none of the three lists begins with a
PERSISTENT_DESYNC. -/
theorem eventsComeInTheOrderOfTheActions : Obligations.EventsComeInTheOrderOfTheActions := by
  intro batch s t ht
  obtain rfl := Host.Outcome.next.inj ht
  rw [feedState_resp]
  rcases feed_cases s.cfg batch s.blk with ⟨reason, refused⟩ | ⟨d, passed, performed⟩
  · rw [refused]
    exact ⟨⟨[], [], [], rfl, .inl rfl, fun _ h => (nomatch h), .inl rfl⟩, by simp, by simp⟩
  · obtain ⟨last, events_eq, last_cases⟩ := feedEnd_events performed.ends
    rw [events_eq]
    exact ⟨⟨_, passed, last, rfl, overflowGuard_events s.cfg batch s.blk, performed.report.kinds, last_cases⟩,
      ((persistentBehindDesync_guard s.cfg batch s.blk).append performed.report.order).append
        (persistentBehindDesync_last last_cases)⟩

/-! ### At most one EMIT -/

theorem countP_eq_zero_of_noEmit {p : Event → Bool} {events : List Event} (h : ∀ e ∈ events, isEmit e = false)
    (hp : ∀ e, p e = true → isEmit e = true) : events.countP p = 0 :=
  List.countP_eq_zero.2 fun e he pe => nomatch (h e he).symm.trans (hp e pe)

theorem isEmit_of_isFrame {e : Event} (h : isFrame e = true) : isEmit e = true := by rw [isEmit, h]; rfl

/-- What each of the ends says about EMITs (41_resynchronizer.md rule R94). -/
theorem feedEnd_emits {c : Config} {d : Block} {events : List Event} {r : Block × Response}
    (h : FeedEnd c d events r) (noEmit : ∀ e ∈ events, isEmit e = false) :
    (r.2.events.countP isEmit ≤ 1) ∧
    (∀ (op : Byte) (len : Nat), .frame op len ∈ r.2.events →
      r.2.events.getLast? = some (.frame op len) ∧ r.1.acc = [] ∧ r.1.phase = .seekingStart ∧
      r.1.badCount = 0 ∧ r.1.halted = false ∧
      ∃ e : Entry, e.opcode = op ∧ e.payload.length = len ∧ r.1.queue = d.queue ++ [e]) ∧
    (∀ (op : Byte) (len : Nat), .fatalQueueOverflow op len ∈ r.2.events →
      r.2.events.getLast? = some (.fatalQueueOverflow op len) ∧ r.1.halted = true) ∧
    (r.2.events.countP isFrame = 0 → r.1.queue = d.queue) := by
  have noEarlier : events.countP isEmit = 0 := countP_eq_zero_of_noEmit noEmit fun _ => id
  have noFrame (op : Byte) (len : Nat) : .frame op len ∉ events := fun he => nomatch noEmit _ he
  have noFatal (op : Byte) (len : Nat) : .fatalQueueOverflow op len ∉ events := fun he => nomatch noEmit _ he
  cases h with
  | waits =>
    exact ⟨by simp [noEarlier], fun op len he => absurd he (noFrame op len),
      fun op len he => absurd he (noFatal op len), fun _ => settle_queue c d⟩
  | queues e =>
    refine ⟨by simp [noEarlier, isEmit, isFrame, isFatal], fun op len he => ?_, fun op len he => ?_, fun unframed => ?_⟩
    · have last : op = e.opcode ∧ len = e.payload.length := by simpa [noFrame] using he
      obtain ⟨rfl, rfl⟩ := last
      exact ⟨by simp, rfl, rfl, rfl, rfl, e, rfl, rfl, rfl⟩
    · exact absurd he (by simp [noFatal])
    · simp [isFrame] at unframed
  | halts st len op =>
    refine ⟨by simp [noEarlier, isEmit, isFatal], fun op' len' he => ?_, fun op' len' he => ?_, fun _ => rfl⟩
    · exact absurd he (by simp [noFrame])
    · have last : op' = op ∧ len' = len := by simpa [noFatal] using he
      obtain ⟨rfl, rfl⟩ := last
      exact ⟨by simp, rfl⟩

/-- Settles O31: no event before the end is an EMIT's, and each end has at most one. -/
theorem atMostOneEmitPerFeed : Obligations.AtMostOneEmitPerFeed := by
  intro batch s t ht
  obtain rfl := Host.Outcome.next.inj ht
  rw [feedState_resp, feedState_blk]
  rcases feed_cases s.cfg batch s.blk with ⟨reason, refused⟩ | ⟨d, passed, performed⟩
  · rw [refused]
    exact ⟨Nat.zero_le 1, fun _ _ h => (nomatch h), fun _ _ h => (nomatch h), fun _ => rfl⟩
  · rw [← performed.queue_eq]
    exact feedEnd_emits performed.ends performed.only.noEmit

/-! ### DESYNCs are bounded by the start markers -/

theorem countP_guard (c : Config) (batch : List Byte) (b : Block) :
    (overflowGuard c batch b).2.countP (fun e => isDesync e && !isOverflow e) = 0 ∧
      (overflowGuard c batch b).2.countP isOverflow ≤ 1 := by
  rcases overflowGuard_events c batch b with quiet | ⟨dropped, one⟩
  · rw [quiet]; exact ⟨rfl, Nat.zero_le 1⟩
  · rw [one, persistentAt_eq]
    split <;> exact ⟨rfl, le_rfl⟩

theorem countP_last {last : List Event}
    (h : last = [] ∨ ∃ (op : Byte) (len : Nat), last = [.frame op len] ∨ last = [.fatalQueueOverflow op len]) :
    last.countP (fun e => isDesync e && !isOverflow e) = 0 ∧ last.countP isOverflow = 0 := by
  rcases h with rfl | ⟨op, len, rfl | rfl⟩ <;> exact ⟨rfl, rfl⟩

theorem not_isOverflow_of_isPassEvent {e : Event} (h : IsPassEvent e) : ¬ isOverflow e = true := by
  rcases h with ⟨-, h⟩ | h
  · simp [h]
  · cases e with
    | persistentDesync => exact Bool.false_ne_true
    | frame | desync | fatalQueueOverflow => cases h

/-- A performed FEED's DESYNC_EVENTs: the pass's by the start markers they dropped, the guard's at most one. -/
theorem performed_bounded {c : Config} {batch : List Byte} {b d : Block} {passed : List Event}
    (h : Performed c batch b d passed) :
    (feed c batch b).2.events.countP (fun e => isDesync e && !isOverflow e) ≤
        startCount c ((overflowGuard c batch b).1.acc ++ batch) ∧
      (feed c batch b).2.events.countP isOverflow ≤ 1 := by
  obtain ⟨last, events_eq, last_cases⟩ := feedEnd_events h.ends
  obtain ⟨guardDesyncs, guardOverflows⟩ := countP_guard c batch b
  obtain ⟨lastDesyncs, lastOverflows⟩ := countP_last last_cases
  have passOverflows : passed.countP isOverflow = 0 :=
    List.countP_eq_zero.2 fun e he => not_isOverflow_of_isPassEvent (h.report.kinds e he)
  have passDesyncs : passed.countP (fun e => isDesync e && !isOverflow e) ≤ passed.countP isDesync :=
    List.countP_mono_left fun e _ he => (Bool.and_eq_true_iff.1 he).1
  have starts := h.report.starts
  rw [accAppend_acc] at starts
  simp only [events_eq, List.countP_append]
  omega

/-- Settles O32: a DESYNC drops its candidate's start marker, so a pass has no more than there are. -/
theorem desyncsAreBoundedByStartMarkers : Obligations.DesyncsAreBoundedByStartMarkers := by
  refine ⟨fun c b cause st hc => by rw [desync_acc]; exact startCount_resync_lt hc, fun batch s t ht => ?_⟩
  obtain ⟨oneEmit, -⟩ := atMostOneEmitPerFeed batch s t ht
  obtain rfl := Host.Outcome.next.inj ht
  refine (and_assoc.1 ⟨?_, oneEmit⟩)
  rw [feedState_resp]
  rcases feed_cases s.cfg batch s.blk with ⟨reason, refused⟩ | ⟨d, passed, performed⟩
  · rw [refused]
    exact ⟨Nat.zero_le _, Nat.zero_le 1⟩
  · exact performed_bounded performed

/-! ### The counter -/

/-- Behind an end the counter stands as the DESYNCs left it, or at 0 where a FRAME was raised. -/
theorem feedEnd_counter {c : Config} {d : Block} {events : List Event} {r : Block × Response}
    (h : FeedEnd c d events r) (noEmit : ∀ e ∈ events, isEmit e = false) :
    r.2.events.countP isPersistent = events.countP isPersistent ∧ r.2.events.countP isDesync = events.countP isDesync ∧
      r.1.badCount = if r.2.events.any isFrame then 0 else d.badCount := by
  have noFrame : events.any isFrame = false := by
    rw [List.any_eq_false]
    exact fun e he hf => nomatch (noEmit e he).symm.trans (isEmit_of_isFrame hf)
  cases h with
  | waits => exact ⟨rfl, rfl, by simp [noFrame]⟩
  | queues e => exact ⟨by simp [isPersistent], by simp [isDesync], by simp [isFrame, seekingStartBlock]⟩
  | halts => exact ⟨by simp [isPersistent], by simp [isDesync], by simp [noFrame, isFrame]⟩

/-- Settles O33: five DESYNCs a PERSISTENT_DESYNC, by `CountsToFive`; only a FRAME resets what is left. -/
theorem badPacketsCountToFive : Obligations.BadPacketsCountToFive := by
  intro batch s t low runs ht
  obtain rfl := Host.Outcome.next.inj ht
  rw [feedState_resp, feedState_blk]
  rcases feed_cases s.cfg batch s.blk with ⟨reason, refused⟩ | ⟨d, passed, performed⟩
  · simp only [refused, refusedResponse_events, List.countP_nil, List.any_nil, Bool.false_eq_true, if_false]
    omega
  · obtain ⟨persistents, desyncs, counter⟩ := feedEnd_counter performed.ends performed.only.noEmit
    obtain ⟨low', counted⟩ := performed.counts low
    rw [persistents, desyncs, counter]
    refine ⟨by omega, ?_⟩
    split
    · rfl
    · omega

end Sys2Proof.Proofs.FeedProperties
end

