-- ==== Sys2Proof/Proofs/AllInstructions.lean ====
section
/-!
PROOFS. What holds of every instruction: an operation ends in a next state, its marks are what it raised or was refused, and
only EMIT, DEQUEUE and RESET touch the queue, only the fatal event and RESET the halt.
-/
namespace Sys2Proof.Proofs.AllInstructions
open Sys2Proof Sys2Proof.Machine
open Sys2Proof.Proofs.FrameQueue Sys2Proof.Proofs.FeedEnds
open Sys2Proof.Proofs.FeedProperties

/-! ### The five shapes of an instruction -/

/-- An inbound row is the FEED of its bytes (assumption 9). -/
theorem exec_inbound {i : Instr} (h : channelOf i = .inbound) (s : State) :
    exec i s = exec (.feed (encode s.cfg i)) s := by
  cases i <;> cases h <;> rfl

/-- Every instruction is a FEED of some bytes, DEQUEUE, RESET, or an answer that leaves the block. -/
theorem exec_cases (i : Instr) (s : State) :
    (i ≠ .dequeue ∧ i ≠ .reset ∧ ∃ batch, exec i s = .next (feedState batch s)) ∨ i = .dequeue ∨ i = .reset ∨
      (i ≠ .dequeue ∧ i ≠ .reset ∧ ∃ result, exec i s = .next (answer s result)) := by
  rcases exec_shape i s with ⟨hi, hfeed⟩ | ⟨batch, rfl⟩ | rfl | rfl | answered
  · have isInbound {j : Instr} (hj : channelOf j = .command) : i ≠ j := fun h => nomatch (h ▸ hj).symm.trans hi
    exact .inl ⟨isInbound rfl, isInbound rfl, _, hfeed⟩
  · exact .inl ⟨by simp, by simp, batch, rfl⟩
  · exact .inr (.inl rfl)
  · exact .inr (.inr (.inl rfl))
  · exact .inr (.inr (.inr answered))

/-- A refusal leaves the block, raises nothing and answers nothing (00_scope.md rule R16). -/
def RefusedUnchanged (b b' : Block) (r : Response) : Prop :=
  r.status ≠ .ok → b' = b ∧ r.events = [] ∧ r.result = .none

theorem refusedUnchanged_feed (c : Config) (batch : List Byte) (b : Block) :
    RefusedUnchanged b (feed c batch b).1 (feed c batch b).2 := by
  rcases feed_cases c batch b with ⟨reason, refused⟩ | ⟨d, passed, performed⟩
  · rw [refused]
    exact fun _ => ⟨rfl, rfl, rfl⟩
  · obtain ⟨raised, response, -⟩ := feedEnd_rests performed.ends
    rw [response]
    exact fun notOk => absurd rfl notOk

theorem refusedUnchanged_dequeue (b : Block) : RefusedUnchanged b (dequeue b).1 (dequeue b).2 := by
  rcases dequeue_cases b with ⟨-, refused⟩ | ⟨-, -, empty⟩ | ⟨-, e, rest, -, taken⟩
  · rw [refused]; exact fun _ => ⟨rfl, rfl, rfl⟩
  · rw [empty]; exact fun notOk => absurd rfl notOk
  · rw [taken]; exact fun notOk => absurd rfl notOk

/-- Every instruction ends its operation with a block and a response. -/
theorem exec_finish (i : Instr) (s : State) :
    ∃ (b : Block) (r : Response), exec i s = .next (finish s b r) ∧ RefusedUnchanged s.blk b r := by
  rcases exec_cases i s with ⟨-, -, batch, fed⟩ | rfl | rfl | ⟨-, -, result, answered⟩
  · exact ⟨_, _, fed, refusedUnchanged_feed s.cfg batch s.blk⟩
  · exact ⟨_, _, rfl, refusedUnchanged_dequeue s.blk⟩
  · exact ⟨_, _, rfl, fun notOk => absurd rfl notOk⟩
  · exact ⟨_, _, answered, fun notOk => absurd rfl notOk⟩

/-- Settles O46: `finish` writes the marks, and a refusal is unchanged. -/
theorem runMarksRecordFaultsAndRefusals : Obligations.RunMarksRecordFaultsAndRefusals := by
  intro i s t ht
  obtain ⟨b, r, finished, refused⟩ := exec_finish i s
  obtain rfl := Host.Outcome.next.inj (finished.symm.trans ht)
  refine ⟨finish_runFaulted s b r, ?_, refused⟩
  rw [finish_runRefused, finish_resp]
  congr 1
  rw [Bool.eq_iff_iff, bne_iff_ne, decide_eq_true_iff]

/-! ### The queue -/

/-- A FEED appends the entry that its FRAME names, or leaves the queue. -/
theorem feed_queue (c : Config) (batch : List Byte) (b : Block) :
    if (feed c batch b).2.events.any isFrame then
      ∃ e : Entry, (feed c batch b).1.queue = b.queue ++ [e] ∧
        .frame e.opcode e.payload.length ∈ (feed c batch b).2.events
    else (feed c batch b).1.queue = b.queue := by
  rcases feed_cases c batch b with ⟨reason, refused⟩ | ⟨d, passed, performed⟩
  · rw [refused]
    exact rfl
  · have queue_eq := performed.queue_eq
    obtain ⟨-, framed, -, unframed⟩ := feedEnd_emits performed.ends performed.only.noEmit
    rw [queue_eq] at framed unframed
    split
    · next frame =>
      obtain ⟨e, raised, isFrame_e⟩ := List.any_eq_true.1 frame
      cases e with
      | frame op len =>
        obtain ⟨-, -, -, -, -, entry, rfl, rfl, queue⟩ := framed op len raised
        exact ⟨entry, queue, raised⟩
      | desync | persistentDesync | fatalQueueOverflow => cases isFrame_e
    · next noFrame => exact unframed (List.countP_eq_zero.2 fun e he hf => noFrame (List.any_eq_true.2 ⟨e, he, hf⟩))

theorem dequeue_queue (b : Block) : (dequeue b).1.queue = if b.halted then b.queue else b.queue.tail := by
  rcases dequeue_cases b with ⟨halts, h⟩ | ⟨runs, empty, h⟩ | ⟨runs, e, rest, head, h⟩
  · rw [h, if_pos halts]
  · rw [h, runs, empty]; rfl
  · rw [h, runs, head]; rfl

/-- Settles O44: by the four shapes of an instruction. -/
theorem queueChangesOnlyByEmitDequeueReset : Obligations.QueueChangesOnlyByEmitDequeueReset := by
  intro i s t ht
  rcases exec_cases i s with ⟨notDequeue, notReset, batch, fed⟩ | rfl | rfl | ⟨notDequeue, notReset, result, answered⟩
  · obtain rfl := Host.Outcome.next.inj (fed.symm.trans ht)
    rw [if_neg notReset, if_neg notDequeue]
    exact feed_queue s.cfg batch s.blk
  · obtain rfl := Host.Outcome.next.inj ht
    exact dequeue_queue s.blk
  · obtain rfl := Host.Outcome.next.inj ht
    exact rfl
  · obtain rfl := Host.Outcome.next.inj (answered.symm.trans ht)
    rw [if_neg notReset, if_neg notDequeue]
    exact rfl

/-! ### The halt -/

/-- A FEED that halts the block raised the fatal event. -/
theorem fatal_of_feed_halts {c : Config} {batch : List Byte} {b : Block} (runs : b.halted = false)
    (halts : (feed c batch b).1.halted = true) :
    ∃ (op : Byte) (len : Nat), .fatalQueueOverflow op len ∈ (feed c batch b).2.events := by
  rcases feed_cases c batch b with ⟨reason, refused⟩ | ⟨d, passed, performed⟩
  · rw [refused] at halts
    exact nomatch runs.symm.trans halts
  · have runs' := performed.halted_eq
    have ends := performed.ends
    generalize feed c batch b = r at ends halts ⊢
    cases ends with
    | waits => rw [settle_halted] at halts; exact nomatch runs'.symm.trans halts
    | queues => cases halts
    | halts _ len op => exact ⟨op, len, by simp⟩

theorem dequeue_halted (b : Block) : (dequeue b).1.halted = b.halted := by
  rcases dequeue_cases b with ⟨-, h⟩ | ⟨-, -, h⟩ | ⟨-, e, rest, -, h⟩ <;> rw [h]

/-- Settles O45: of the four shapes only a FEED can halt; a halted block is left by all but RESET. -/
theorem onlyOverflowHaltsAndOnlyResetResumes : Obligations.OnlyOverflowHaltsAndOnlyResetResumes := by
  intro i s t ht
  refine ⟨fun runs halts => ?_, fun halts notReset => exec_blk_of_halted halts notReset ht, ?_⟩
  · rcases exec_cases i s with ⟨-, -, batch, fed⟩ | rfl | rfl | ⟨-, -, result, answered⟩
    · obtain rfl := Host.Outcome.next.inj (fed.symm.trans ht)
      exact fatal_of_feed_halts runs halts
    · obtain rfl := Host.Outcome.next.inj ht
      exact nomatch (runs.symm.trans (dequeue_halted s.blk).symm).trans halts
    · obtain rfl := Host.Outcome.next.inj ht
      cases halts
    · obtain rfl := Host.Outcome.next.inj (answered.symm.trans ht)
      exact nomatch runs.symm.trans halts
  · rintro rfl
    obtain rfl := Host.Outcome.next.inj ht
    rfl

end Sys2Proof.Proofs.AllInstructions
end

