-- ==== Sys2Proof/Proofs/WaitingBytes.lean ====
section
/-!
PROOFS. A FEED after which `classify` waits (41_resynchronizer.md section 3): the bytes stay, the registers say what is waited
for, and nothing else of the block is read or written.
-/
namespace Sys2Proof.Proofs.WaitingBytes
open Sys2Proof Sys2Proof.Machine
open Sys2Proof.Proofs.Classify Sys2Proof.Proofs.OverflowGuard Sys2Proof.Proofs.LastStop Sys2Proof.Proofs.FeedEnds

/-! ### FEED on the machine -/

/-- A performed FEED without the fatal event changes the block and the response alone. -/
theorem exec_feed_of_noFatal {batch : List Byte} {s : State} {b : Block} {events : List Event}
    (hf : feed s.cfg batch s.blk = (b, okResponse .none events)) (noFatal : events.any isFatal = false) :
    exec (.feed batch) s =
      .next { s with blk := b, resp := { status := .ok, result := .none, events := events } } := by
  rw [exec_feed_of_feed hf, noFatal, Bool.or_false]

theorem persistentAt_noFatal (n : Nat) : (persistentAt n).any isFatal = false := by
  rw [persistentAt_eq]
  split <;> rfl

/-- A FEED with room whose bytes then wait: the registers are those of `settle`, nothing else is written. -/
theorem exec_feed_of_wait {batch : List Byte} {s : State} (runs : s.blk.halted = false)
    (short : batch.length ≤ s.cfg.batchMax) (room : s.blk.acc.length + batch.length ≤ s.cfg.accCap)
    (waits : isWait (classify s.cfg (s.blk.acc ++ batch)) = true) :
    exec (.feed batch) s =
      .next { s with
        blk := settle s.cfg (accAppend batch s.blk)
        resp := { status := .ok, result := .none, events := [] } } :=
  exec_feed_of_noFatal (feed_of_wait runs short room waits) rfl

theorem accAppend_nil (b : Block) : accAppend [] b = b := by rw [accAppend, List.append_nil]

/-! ### What is waited for -/

section
variable {c : Config} {acc : List Byte} {st : Nat}

/-- Fewer than four bytes from the marker on (41_resynchronizer.md rule R91). -/
theorem classify_of_short_header (hst : firstStart c acc 0 = some st) (short : acc.length - st < 4) :
    classify c acc = .waitHeader st := by
  obtain ⟨-, -, pseudocode⟩ := classifyIsThePseudocode
  rw [pseudocode, hst]
  exact if_pos short

/-- A legal header, and too few bytes behind it (41_resynchronizer.md rule R92). -/
theorem classify_of_short_body {op lo hi : Byte} (hst : firstStart c acc 0 = some st) (hop : acc[st + 1]? = some op)
    (hlo : acc[st + 2]? = some lo) (hhi : acc[st + 3]? = some hi) (legal : lo.toNat + 256 * hi.toNat ≤ 2048)
    (recog : recognized c op = true) (short : acc.length < st + 4 + (lo.toNat + 256 * hi.toNat) + 1) :
    classify c acc = .waitBody st op (lo.toNat + 256 * hi.toNat) := by
  obtain ⟨-, -, pseudocode⟩ := classifyIsThePseudocode
  obtain ⟨whole, -⟩ := List.getElem?_eq_some_iff.1 hhi
  have header : ¬ acc.length - st < 4 := by omega
  have recog' : ¬ recognized c op = false := by simp [recog]
  rw [pseudocode, hst]
  simp only [List.getD_eq_getElem?_getD, hop, hlo, hhi, Option.getD_some]
  rw [if_neg header, if_neg (Nat.not_lt.2 legal), if_neg recog', if_pos short]

end

/-- Settles O17: each clause says on what `classify` waits, and `settle` writes the registers of that wait. -/
theorem feedKeepsWaitingBytes : Obligations.FeedKeepsWaitingBytes := by
  intro batch s runs short room acc rest
  have waiting (v : Verdict) (hv : classify s.cfg acc = v) (hw : isWait v = true) :=
    exec_feed_of_wait runs short room (hv ▸ hw)
  refine ⟨fun absent => ?_, fun st hst => ⟨fun header => ?_, fun op lo hi hop hlo hhi legal recog body => ?_⟩⟩
  · have verdict := classify_of_no_start absent
    rw [waiting _ verdict rfl, settle, accAppend_acc, verdict, accAppend_halted, runs]
    rfl
  · have verdict := classify_of_short_header hst header
    rw [waiting _ verdict rfl, settle, accAppend_acc, verdict, accAppend_halted, runs]
    rfl
  · have verdict := classify_of_short_body hst hop hlo hhi legal recog body
    rw [waiting _ verdict rfl, settle, accAppend_acc, verdict, accAppend_halted, runs]
    rfl

/-- Settles O18: a settled block waits, and settling it again leaves it. -/
theorem emptyFeedChangesNothing : Obligations.EmptyFeedChangesNothing := by
  rintro s ⟨room, -, -, -, resting⟩ runs
  rw [runs, if_neg Bool.false_ne_true] at resting
  obtain ⟨waits, settled⟩ := resting
  rw [exec_feed_of_wait runs (Nat.zero_le _) (by simpa using room) (by rwa [List.append_nil])]
  rw [accAppend_nil, settled]

/-- Settles O23: `feed_congr`, since the two blocks hold the same contents. -/
theorem feedReadsNoRestingRegister : Obligations.FeedReadsNoRestingRegister := by
  intro batch s phase start op len stop runs short
  have same : SameContents
      { s.blk with phase := phase, start := start, curOpcode := op, curLength := len, lastStop := stop } s.blk :=
    ⟨rfl, rfl, rfl, rfl⟩
  rw [exec_feed, exec_feed, feedState, feedState, feed_congr same runs short]
  rfl

/-! ### Garbage (41_resynchronizer.md section 7) -/

theorem compactedAcc_of_noStart {c : Config} {acc : List Byte} (h : NoStart c acc) : compactedAcc c acc = [] := by
  rw [compactedAcc, firstStart_of_no_start h 0]

theorem keptAcc_of_noStart {c : Config} {acc : List Byte} (h : NoStart c acc) (batch : List Byte) :
    keptAcc c batch acc = [] := by
  rw [keptAcc, compactedAcc_of_noStart h, ite_self]

theorem isWait_of_noStart {c : Config} {acc : List Byte} (h : NoStart c acc) : isWait (classify c acc) = true := by
  rw [classify_of_no_start (firstStart_of_no_start h 0)]
  rfl

/-- A performed FEED whose guard leaves bytes that, with the batch, wait. -/
theorem feed_of_guarded_wait {c : Config} {batch : List Byte} {b g : Block} {events : List Event}
    (runs : b.halted = false) (short : batch.length ≤ c.batchMax) (guarded : overflowGuard c batch b = (g, events))
    (waits : isWait (classify c (g.acc ++ batch)) = true) :
    feed c batch b = (settle c (accAppend batch g), okResponse .none events) := by
  have runs' : g.halted = false := by rw [← runs, ← overflowGuard_halted c batch b, guarded]
  have passed : pass c (accAppend batch g) = (accAppend batch g, []) := pass_of_wait waits
  rw [feed_of_ok runs short, guarded]
  simp only [passed, accAppend_halted, runs', Bool.false_eq_true, if_false, List.append_nil]

/-- Settles O19: garbage waits; without room the guard keeps none of the old, so the batch alone waits. -/
theorem garbageIsKeptOrClearedNeverEmitted : Obligations.GarbageIsKeptOrClearedNeverEmitted := by
  intro batch s runs short old new
  split
  · next room =>
    have garbage : NoStart s.cfg (s.blk.acc ++ batch) := fun x hx => (List.mem_append.1 hx).elim (old x) (new x)
    rw [exec_feed_of_wait runs short room (isWait_of_noStart garbage),
      settle_of_noStart (b := accAppend batch s.blk) runs garbage]
    rfl
  · next noRoom =>
    have guarded := overflowGuard_of_noRoom (Nat.lt_of_not_le noRoom)
    rw [compactedAcc_of_noStart old, keptAcc_of_noStart old batch] at guarded
    have fed := feed_of_guarded_wait runs short guarded (isWait_of_noStart new)
    have rests := settle_of_noStart
      (b := accAppend batch { s.blk with acc := [], badCount := bumped s.blk.badCount }) runs new
    exact exec_feed_of_noFatal (rests ▸ fed) (persistentAt_noFatal _)

end Sys2Proof.Proofs.WaitingBytes
end

