-- ==== Sys2Proof/Proofs/InboundFrames.lean ====
section
/-!
PROOFS. An inbound frame that arrives in one batch behind bytes without a start marker (30_encoding.md section 3): a legal one
is queued or halts the block, whatever follows it; an invalid one costs a DESYNC, behind which the FEED goes on as an empty
FEED to the bytes that are left.
-/
namespace Sys2Proof.Proofs.InboundFrames
open Sys2Proof Sys2Proof.Machine
open Sys2Proof.Proofs.OverflowGuard Sys2Proof.Proofs.LastStop Sys2Proof.Proofs.QueueOverflow
open Sys2Proof.Proofs.Exceptions Sys2Proof.Proofs.FeedEnds Sys2Proof.Proofs.FeedProperties
open Sys2Proof.Proofs.AllInstructions Sys2Proof.Proofs.WaitingBytes

/-- Settles O25: the bytes written out are those of the row's encoding. -/
theorem inboundRowsFeedTheirBytes : Obligations.InboundRowsFeedTheirBytes := by
  intro s payload tail opByte terminator len op
  exact ⟨exec_inbound (i := .inGetLog payload) rfl s, exec_inbound (i := .inSetMotorLevels payload) rfl s,
    exec_inbound (i := .inResetState payload) rfl s, exec_inbound (i := .inGetState payload) rfl s,
    exec_inbound (i := .inNack payload) rfl s, exec_inbound (i := .inAck payload) rfl s,
    exec_inbound (i := .inStart payload) rfl s, exec_inbound (i := .inStop payload) rfl s,
    exec_inbound (i := .inInvalidBadLength opByte len tail) rfl s,
    exec_inbound (i := .inInvalidBadOpcode opByte len tail) rfl s,
    exec_inbound (i := .inInvalidBadTerminator op payload terminator) rfl s⟩

/-! ### One verdict of a FEED with room -/

section
variable {c : Config} {batch : List Byte} {b : Block}

/-- A candidate that is accepted behind the guard is queued, and the block rests empty. -/
theorem feed_of_guarded_accept {g : Block} {events : List Event} {s len : Nat} {op : Byte} (runs : b.halted = false)
    (short : batch.length ≤ c.batchMax) (guarded : overflowGuard c batch b = (g, events))
    (hc : classify c (g.acc ++ batch) = .accept s op len) (space : g.queue.length ≠ queueCap) :
    feed c batch b =
      (seekingStartBlock c [] 0 (g.queue ++ [⟨op, memRead (g.acc ++ batch) (s + 4) len⟩]),
        okResponse .none (events ++ [.frame op len])) := by
  have runs' : g.halted = false := by rw [← runs, ← overflowGuard_halted c batch b, guarded]
  have space' : (accAppend batch g).queue.length ≠ queueCap := space
  have passed : pass c (accAppend batch g) = emit c s op len (accAppend batch g) := pass_of_accept hc
  have rests := settle_emit_of_room (b := accAppend batch g) (c := c) runs' space' s len op
  have stillRuns : (emit c s op len (accAppend batch g)).1.halted = false := by rw [emit_of_room space']; exact runs'
  have raised : (emit c s op len (accAppend batch g)).2 = [.frame op len] := by rw [emit_of_room space']
  rw [feed_of_ok runs short, guarded]
  simp only [passed, stillRuns, Bool.false_eq_true, if_false, raised, rests]
  rfl

/-- With room for the batch the guard does nothing. -/
theorem feed_of_accept {s len : Nat} {op : Byte} (runs : b.halted = false) (short : batch.length ≤ c.batchMax)
    (room : b.acc.length + batch.length ≤ c.accCap) (hc : classify c (b.acc ++ batch) = .accept s op len)
    (space : b.queue.length ≠ queueCap) :
    feed c batch b =
      (seekingStartBlock c [] 0 (b.queue ++ [⟨op, memRead (b.acc ++ batch) (s + 4) len⟩]),
        okResponse .none [.frame op len]) :=
  feed_of_guarded_accept runs short (overflowGuard_of_room room) hc space

/-- On a full queue the accepted candidate halts the block (42_frame_queue.md rule R108). -/
theorem feed_of_accept_full {s len : Nat} {op : Byte} (runs : b.halted = false) (short : batch.length ≤ c.batchMax)
    (room : b.acc.length + batch.length ≤ c.accCap) (hc : classify c (b.acc ++ batch) = .accept s op len)
    (full : b.queue.length = queueCap) :
    feed c batch b =
      (haltOnOverflow c s op len (accAppend batch b), okResponse .none [.fatalQueueOverflow op len]) := by
  have passed : pass c (accAppend batch b) = emit c s op len (accAppend batch b) := pass_of_accept hc
  rw [feed_of_room runs short room]
  simp only [passed, emit_of_full (b := accAppend batch b) full, haltOnOverflow_halted, if_true]

/-- The block behind the DESYNC of a candidate at `s`: the bytes from the next start marker on, one more bad packet. -/
def desynced (c : Config) (s : Nat) (acc : List Byte) (b : Block) : Block :=
  { b with acc := (resync c (s + 1) { b with acc := acc }).acc, badCount := bumped b.badCount }

/-- A rejected candidate: behind its DESYNC the FEED goes on as the empty FEED to the block that the DESYNC left. -/
theorem feed_of_reject {s : Nat} {cause : DesyncCause} (runs : b.halted = false) (short : batch.length ≤ c.batchMax)
    (room : b.acc.length + batch.length ≤ c.accCap) (hc : classify c (b.acc ++ batch) = .reject cause s) :
    feed c batch b =
      ((feed c [] (desynced c s (b.acc ++ batch) b)).1,
        okResponse .none
          (.desync cause (s + 1) ((b.acc ++ batch).length - (desynced c s (b.acc ++ batch) b).acc.length) ::
            (persistentAt b.badCount ++ (feed c [] (desynced c s (b.acc ++ batch) b)).2.events))) := by
  have passed := pass_of_reject (b := accAppend batch b) hc
  have shorter := resync_length_le c (s + 1) (accAppend batch b)
  have room' : (desynced c s (b.acc ++ batch) b).acc.length + ([] : List Byte).length ≤ c.accCap := by
    rw [accAppend_acc, List.length_append] at shorter
    exact shorter.trans room
  have rest := feed_of_room (c := c) (batch := []) (b := desynced c s (b.acc ++ batch) b) runs (Nat.zero_le _) room'
  rw [accAppend_nil] at rest
  rw [feed_of_room runs short room, rest, passed, desync_eq]
  rfl

end

/-! ### DESYNC of the first candidate -/

theorem any_isFatal_desync (cause : DesyncCause) (origin dropped n : Nat) (events : List Event) :
    (Event.desync cause origin dropped :: (persistentAt n ++ events)).any isFatal = events.any isFatal := by
  rw [List.any_cons, List.any_append, persistentAt_noFatal]
  rfl

/-- What a FEED answers that rejects its first candidate at `s`, by what stands behind the candidate's start marker: nothing
further, or the next start marker, from which on the FEED continues. -/
def DesyncOutcome (cause : DesyncCause) (s : Nat) (acc : List Byte) (st : State)
    (outcome : Host.Outcome State Fault Refusal) : Prop :=
  match firstStart st.cfg acc (s + 1) with
  | none =>
    outcome = .next { st with
      blk := seekingStartBlock st.cfg [] (bumped st.blk.badCount) st.blk.queue
      resp := { status := .ok, result := .none,
                events := .desync cause (s + 1) acc.length :: persistentAt st.blk.badCount } }
  | some j =>
    ∃ u : State,
      exec (.feed []) { st with blk := { st.blk with acc := acc.drop j, badCount := bumped st.blk.badCount } } = .next u ∧
      outcome = .next { u with
        resp := { status := .ok, result := .none,
                  events := .desync cause (s + 1) j :: (persistentAt st.blk.badCount ++ u.resp.events) } }

theorem desynced_of_none {c : Config} {s : Nat} {acc : List Byte} (h : firstStart c acc (s + 1) = none) (b : Block) :
    desynced c s acc b = { b with acc := [], badCount := bumped b.badCount } := by
  rw [desynced, resync_acc]
  simp only [h]

theorem desynced_of_some {c : Config} {s j : Nat} {acc : List Byte} (h : firstStart c acc (s + 1) = some j) (b : Block) :
    desynced c s acc b = { b with acc := acc.drop j, badCount := bumped b.badCount } := by
  rw [desynced, resync_acc]
  simp only [h]

/-- The empty FEED to an empty accumulator rests on it. -/
theorem feed_nil_of_acc_nil {c : Config} {b : Block} (runs : b.halted = false) (h : b.acc = []) :
    feed c [] b = (seekingStartBlock c [] b.badCount b.queue, okResponse .none []) := by
  have noStart : NoStart c b.acc := by rw [h]; exact List.forall_mem_nil _
  have waits : isWait (classify c (b.acc ++ [])) = true := by rw [List.append_nil]; exact isWait_of_noStart noStart
  have guarded : overflowGuard c [] b = (b, []) := overflowGuard_of_room (by rw [h]; exact Nat.zero_le _)
  rw [feed_of_guarded_wait runs (Nat.zero_le _) guarded waits, accAppend_nil, settle_of_noStart runs noStart, h]

/-- The outcome of a FEED whose first candidate is rejected (41_resynchronizer.md rules R95 and R96). -/
theorem desyncOutcome_of_reject {batch : List Byte} {s : Nat} {cause : DesyncCause} {st : State}
    (runs : st.blk.halted = false) (short : batch.length ≤ st.cfg.batchMax)
    (room : st.blk.acc.length + batch.length ≤ st.cfg.accCap)
    (hc : classify st.cfg (st.blk.acc ++ batch) = .reject cause s) :
    DesyncOutcome cause s (st.blk.acc ++ batch) st (exec (.feed batch) st) := by
  have fed := feed_of_reject runs short room hc
  unfold DesyncOutcome
  cases marker : firstStart st.cfg (st.blk.acc ++ batch) (s + 1) with
  | none =>
    rw [desynced_of_none marker, feed_nil_of_acc_nil (b := { st.blk with acc := [], badCount := _ }) runs rfl,
      okResponse_events] at fed
    have noFatal := any_isFatal_desync cause (s + 1) (st.blk.acc ++ batch).length st.blk.badCount []
    rw [List.append_nil] at fed noFatal
    exact exec_feed_of_noFatal fed noFatal
  | some j =>
    have within := firstStart_lt marker
    have dropped : (st.blk.acc ++ batch).length - ((st.blk.acc ++ batch).drop j).length = j := by
      rw [List.length_drop]; omega
    obtain ⟨d, passed, performed⟩ := feed_performed (c := st.cfg) (batch := [])
      (b := { st.blk with acc := (st.blk.acc ++ batch).drop j, badCount := bumped st.blk.badCount })
      runs (Nat.zero_le _)
    obtain ⟨raised, response, -⟩ := feedEnd_rests performed.ends
    rw [desynced_of_some marker] at fed
    simp only [dropped, response, okResponse_events] at fed
    refine ⟨_, exec_feed_of_feed (Prod.ext rfl response), ?_⟩
    rw [exec_feed_of_feed fed, any_isFatal_desync]

/-! ### The invalid forms (30_encoding.md rule R65) -/

/-- A length above `MAX_LEN` is tested before anything else. -/
theorem classify_badLength {c : Config} {acc tail : List Byte} (h : NoStart c acc) (o : Byte) {len : BitVec 16}
    (hlen : maxLen < len.toNat) :
    classify c (acc ++ (inboundHeader c o len.toNat ++ tail)) = .reject .badLength acc.length := by
  rw [inboundHeader_append, classify_behind h]
  simp only [classifyCandidate, u16le_lengthBytes len.isLt, if_pos hlen]

/-- Under a legal length the opcode is tested next. -/
theorem classify_badOpcode {c : Config} {acc tail : List Byte} (h : NoStart c acc) {o : Byte} {len : BitVec 16}
    (hlen : len.toNat ≤ maxLen) (ho : recognized c o = false) :
    classify c (acc ++ (inboundHeader c o len.toNat ++ tail)) = .reject .badOpcode acc.length := by
  rw [inboundHeader_append, classify_behind h]
  simp only [classifyCandidate, u16le_lengthBytes len.isLt, if_neg (Nat.not_lt.2 hlen), ho, Bool.not_false, if_true]

/-- A frame with nothing behind it. -/
theorem classify_lone_frame {c : Config} {acc p : List Byte} {op : Opcode} {t : Byte} (h : NoStart c acc)
    (hp : p.length ≤ 2048) :
    classify c (acc ++ inboundFrame c op p t) =
      if t = stopByte c then .accept acc.length (opcodeByte c op) p.length else .reject .badTerminator acc.length := by
  simpa using classify_frame (after := []) (op := op) (t := t) h hp

theorem inboundFrame_eq_cons (c : Config) (op : Opcode) (p : List Byte) (t : Byte) :
    inboundFrame c op p t =
      startByte c :: opcodeByte c op :: lengthLow p.length :: lengthHigh p.length :: (p ++ [t]) := by
  simpa using inboundFrame_append c op p t []

/-- Settles O27: the row's bytes are rejected for their length. -/
theorem badLengthIsDesync : Obligations.BadLengthIsDesync := by
  intro s opByte len tail runs tooLong short room garbage
  have rejected := classify_badLength (tail := tail) garbage opByte tooLong
  rw [inboundHeader_append] at rejected
  exact desyncOutcome_of_reject runs short room rejected

/-- Settles O28: the row's bytes are rejected for their opcode. -/
theorem badOpcodeIsDesync : Obligations.BadOpcodeIsDesync := by
  intro s opByte len tail runs legal unknown short room garbage
  have rejected := classify_badOpcode (tail := tail) garbage legal unknown
  rw [inboundHeader_append] at rejected
  exact desyncOutcome_of_reject runs short room rejected

/-- Settles O29: the row's bytes are rejected for their terminator. -/
theorem badTerminatorIsDesync : Obligations.BadTerminatorIsDesync := by
  intro s op payload terminator runs legal wrong short room garbage
  have rejected := classify_lone_frame (op := op) (t := terminator) garbage legal
  have row : exec (.inInvalidBadTerminator op payload terminator) s =
      exec (.feed (inboundFrame s.cfg op payload terminator)) s := rfl
  have length := inboundFrame_length s.cfg op payload terminator
  rw [if_neg wrong] at rejected
  rw [row]
  rw [← length] at short room
  rw [inboundFrame_eq_cons] at *
  exact desyncOutcome_of_reject runs short room rejected

/-! ### Legal frames -/

/-- A legal frame is queued with its payload, and the bytes behind it are cleared with it (rule R94). -/
theorem feed_frame {c : Config} {b : Block} {p after : List Byte} {op : Opcode} (runs : b.halted = false)
    (legal : p.length ≤ 2048) (short : (inboundFrame c op p (stopByte c) ++ after).length ≤ c.batchMax)
    (room : b.acc.length + (inboundFrame c op p (stopByte c) ++ after).length ≤ c.accCap) (garbage : NoStart c b.acc)
    (space : b.queue.length < 256) :
    feed c (inboundFrame c op p (stopByte c) ++ after) b =
      (seekingStartBlock c [] 0 (b.queue ++ [⟨opcodeByte c op, p⟩]),
        okResponse .none [.frame (opcodeByte c op) p.length]) := by
  have accepted := classify_frame (after := after) (op := op) (t := stopByte c) garbage legal
  rw [if_pos rfl] at accepted
  rw [feed_of_accept runs short room accepted space.ne, memRead_frame]

/-- The row of a legal frame, as its FEED. -/
theorem exec_inboundRow (op : Opcode) (p : List Byte) (s : State) :
    exec (inboundRow op p) s = exec (.feed (inboundFrame s.cfg op p (stopByte s.cfg))) s := by
  rw [exec_inbound (channelOf_inboundRow op p), encode_inboundRow]

/-- A legal frame in one batch, on the machine. -/
theorem exec_inboundRow_queues {s : State} {p : List Byte} (op : Opcode) (runs : s.blk.halted = false)
    (legal : p.length ≤ 2048) (short : p.length + 5 ≤ s.cfg.batchMax)
    (room : s.blk.acc.length + (p.length + 5) ≤ s.cfg.accCap) (garbage : NoStart s.cfg s.blk.acc)
    (space : s.blk.queue.length < 256) :
    exec (inboundRow op p) s =
      .next { s with
        blk := seekingStartBlock s.cfg [] 0 (s.blk.queue ++ [⟨opcodeByte s.cfg op, p⟩])
        resp := { status := .ok, result := .none, events := [.frame (opcodeByte s.cfg op) p.length] } } := by
  have fed := feed_frame (after := []) (op := op) runs legal (by simpa using short) (by simpa using room) garbage space
  rw [List.append_nil] at fed
  rw [exec_inboundRow]
  exact exec_feed_of_noFatal fed rfl

/-- Settles O26: the row of each opcode, by `exec_inboundRow_queues`. -/
theorem legalFrameInOneBatchIsQueued : Obligations.LegalFrameInOneBatchIsQueued := by
  intro s payload runs legal short room garbage space queued
  have row (op : Opcode) : exec (inboundRow op payload) s = queued op :=
    exec_inboundRow_queues op runs legal short room garbage space
  exact ⟨row .getLog, row .setMotorLevels, row .resetState, row .getState, row .nack, row .ack, row .start, row .stop⟩

/-- Settles O36: both batches are fed alike, whatever follows the frame. -/
theorem bytesAfterAnEmittedFrameAreLost : Obligations.BytesAfterAnEmittedFrameAreLost := by
  intro s op payload after runs legal frame short room garbage space
  have frame_eq : frame = inboundFrame s.cfg op payload (stopByte s.cfg) := encode_inboundRow s.cfg op payload
  have length : (frame ++ after).length = frame.length + after.length := List.length_append
  clear_value frame
  subst frame_eq
  have whole := feed_frame runs legal short room garbage space
  have alone := feed_frame (after := []) (op := op) runs legal (by rw [List.append_nil]; omega)
    (by rw [List.append_nil]; omega) garbage space
  rw [List.append_nil] at alone
  rw [exec_feed, exec_feed, feedState, feedState, whole, alone]

/-- The last byte of the accumulator, where it is the stop marker. -/
theorem lastStop_concat (c : Config) (acc : List Byte) : lastStop c (acc ++ [stopByte c]) = some acc.length := by
  rw [lastStop_eq_some]
  refine ⟨by simp, fun k hk => ?_⟩
  rw [List.getElem?_eq_none (by rw [List.length_append, List.length_singleton]; omega)]
  exact nofun

/-- Settles O35: the frame is accepted on a full queue, so the block freezes on it; a halted block refuses. -/
theorem frameOnFullQueueHalts : Obligations.FrameOnFullQueueHalts := by
  intro s op payload runs legal short room garbage full frame
  have frame_eq : frame = inboundFrame s.cfg op payload (stopByte s.cfg) := encode_inboundRow s.cfg op payload
  have accepted := classify_lone_frame (op := op) (t := stopByte s.cfg) garbage legal
  rw [if_pos rfl] at accepted
  have fed := feed_of_accept_full runs (by simpa using short) (by simpa using room) accepted full
  have last : lastStop s.cfg (s.blk.acc ++ frame) = some (s.blk.acc.length + (payload.length + 4)) := by
    have split : s.blk.acc ++ frame =
        s.blk.acc ++ (inboundHeader s.cfg (opcodeByte s.cfg op) payload.length ++ payload) ++ [stopByte s.cfg] := by
      simp only [frame_eq, inboundFrame, List.append_assoc]
    rw [split, lastStop_concat, List.length_append, List.length_append, Nat.add_comm payload.length]
    rfl
  refine ⟨_, rfl, ?_, fun batch => exec_feed_of_refused (feed_of_halted rfl)⟩
  rw [exec_inboundRow, exec_feed_of_feed fed, haltOnOverflow, accAppend_acc, ← frame_eq, last]
  simp [isFatal, accAppend]

/-! ### A corrupted frame before a legal one (41_resynchronizer.md section 7) -/

/-- Behind a candidate whose own bytes hold no further start marker, the next one is the first byte that follows. -/
theorem firstStart_after_candidate {c : Config} {acc body after : List Byte} (h : NoStart c body) :
    firstStart c (acc ++ (startByte c :: (body ++ startByte c :: after))) (acc.length + 1) =
      some (acc.length + (body.length + 1)) := by
  have behind := firstStart_behind (after := after) h
  have drop : (acc ++ (startByte c :: (body ++ startByte c :: after))).drop (acc.length + 1) =
      body ++ startByte c :: after := by simp
  simp only [firstStart, List.drop_zero, Nat.add_zero, Option.map_id'] at behind
  rw [firstStart, drop, behind, Option.map_some, Nat.add_comm, Nat.add_assoc, Nat.add_comm 1]

/-- A legal frame that stands alone in the accumulator is queued by an empty FEED. -/
theorem feed_nil_of_frame {c : Config} {b : Block} {p : List Byte} {op : Opcode} (runs : b.halted = false)
    (legal : p.length ≤ 2048) (hacc : b.acc = inboundFrame c op p (stopByte c)) (room : b.acc.length ≤ c.accCap)
    (space : b.queue.length < 256) :
    feed c [] b =
      (seekingStartBlock c [] 0 (b.queue ++ [⟨opcodeByte c op, p⟩]),
        okResponse .none [.frame (opcodeByte c op) p.length]) := by
  have accepted := classify_frame (c := c) (acc := []) (after := []) (op := op) (t := stopByte c)
    (List.forall_mem_nil _) legal
  have payload := memRead_frame (c := c) (acc := []) (p := p) (after := []) (op := op) (t := stopByte c)
  rw [List.nil_append, ← hacc, if_pos rfl] at accepted
  rw [List.nil_append, ← hacc] at payload
  rw [feed_of_accept (batch := []) runs (Nat.zero_le _) room accepted space.ne, payload]

/-- Settles O37: the first frame is rejected for its terminator, and the empty FEED that goes on queues the second. -/
theorem corruptFrameCostsOneDesync : Obligations.CorruptFrameCostsOneDesync := by
  intro s bad good badPayload goodPayload terminator runs badLegal goodLegal wrong corrupt next garbage clean short room
    space
  have next_eq : next = inboundFrame s.cfg good goodPayload (stopByte s.cfg) := encode_inboundRow s.cfg good goodPayload
  have corrupt_cons : corrupt = startByte s.cfg :: corrupt.tail := rfl
  have length : corrupt.length = corrupt.tail.length + 1 := congrArg List.length corrupt_cons
  have rejected := classify_frame (after := next) (op := bad) (t := terminator) garbage badLegal
  rw [if_neg wrong] at rejected
  have marker : firstStart s.cfg (s.blk.acc ++ (corrupt ++ next)) (s.blk.acc.length + 1) =
      some (s.blk.acc.length + corrupt.length) := by
    rw [length, corrupt_cons, next_eq, inboundFrame_eq_cons]
    exact firstStart_after_candidate clean
  have left : (s.blk.acc ++ (corrupt ++ next)).drop (s.blk.acc.length + corrupt.length) = next := by
    rw [← List.drop_drop, List.drop_left, List.drop_left]
  have dropped : (s.blk.acc ++ (corrupt ++ next)).length - next.length = s.blk.acc.length + corrupt.length := by
    simp only [List.length_append]; omega
  have roomLeft : next.length ≤ s.cfg.accCap := by rw [List.length_append] at room; omega
  have fed := feed_of_reject runs short room rejected
  rw [desynced_of_some marker, left, dropped,
    feed_nil_of_frame (b := { s.blk with acc := next, badCount := _ }) runs goodLegal next_eq roomLeft space] at fed
  have noFatal := any_isFatal_desync .badTerminator (s.blk.acc.length + 1) (s.blk.acc.length + corrupt.length)
    s.blk.badCount [.frame (opcodeByte s.cfg good) goodPayload.length]
  exact exec_feed_of_noFatal fed noFatal

end Sys2Proof.Proofs.InboundFrames
end

