-- ==== Sys2Proof/Proofs/CutFrames.lean ====
section
/-!
PROOFS. The resynchronization property of 41_resynchronizer.md section 7: while a legal frame arrives in batches behind bytes
without a start marker, the accumulator holds such bytes and then the part of the frame that has arrived. The overflow guard
drops only the bytes in front, and the last byte of the frame queues it.
-/
namespace Sys2Proof.Proofs.CutFrames
open Sys2Proof Sys2Proof.Machine
open Sys2Proof.Proofs.OverflowGuard Sys2Proof.Proofs.WaitingBytes
open Sys2Proof.Proofs.InboundFrames

/-! ### A frame that is arriving -/

/-- The block runs and holds bytes without a start marker, then `part`. -/
structure Arriving (c : Config) (part : List Byte) (b : Block) : Prop where
  runs : b.halted = false
  bytes : ∃ garbage : List Byte, NoStart c garbage ∧ b.acc = garbage ++ part

/-- The part of a frame that has arrived is empty, or begins with the frame's start marker. -/
theorem part_cases {c : Config} {op : Opcode} {p part later : List Byte} {t : Byte}
    (h : inboundFrame c op p t = part ++ later) : part = [] ∨ ∃ rest, part = startByte c :: rest := by
  cases part with
  | nil => exact .inl rfl
  | cons x rest =>
    rw [inboundFrame_eq_cons, List.cons_append, List.cons.injEq] at h
    obtain ⟨rfl, -⟩ := h
    exact .inr ⟨rest, rfl⟩

theorem compactedAcc_behind {c : Config} {garbage : List Byte} (h : NoStart c garbage) (rest : List Byte) :
    compactedAcc c (garbage ++ startByte c :: rest) = startByte c :: rest := by
  rw [compactedAcc, firstStart_behind h]
  exact List.drop_left

/-- The guard keeps the part that has arrived, if the batch fits behind it. -/
theorem keptAcc_behind {c : Config} {garbage part batch : List Byte} (h : NoStart c garbage)
    (marked : part = [] ∨ ∃ rest, part = startByte c :: rest) (fits : part.length + batch.length ≤ c.accCap) :
    keptAcc c batch (garbage ++ part) = part := by
  rcases marked with rfl | ⟨rest, rfl⟩
  · rw [List.append_nil, keptAcc_of_noStart h]
  · rw [keptAcc, compactedAcc_behind h, if_pos fits]

/-- Behind the guard the frame is still arriving, in a block with the same queue; the guard raises nothing fatal. -/
theorem overflowGuard_of_arriving {c : Config} {part batch : List Byte} {b : Block} (h : Arriving c part b)
    (marked : part = [] ∨ ∃ rest, part = startByte c :: rest) (fits : part.length + batch.length ≤ c.accCap) :
    Arriving c part (overflowGuard c batch b).1 ∧ (overflowGuard c batch b).2.any isFatal = false := by
  obtain ⟨runs, garbage, noStart, hacc⟩ := h
  rcases Nat.lt_or_ge c.accCap (b.acc.length + batch.length) with noRoom | room
  · rw [overflowGuard_of_noRoom noRoom, hacc, keptAcc_behind noStart marked fits]
    refine ⟨⟨runs, [], List.forall_mem_nil _, rfl⟩, ?_⟩
    rw [List.any_cons, persistentAt_noFatal]
    rfl
  · rw [overflowGuard_of_room room]
    exact ⟨⟨runs, garbage, noStart, hacc⟩, rfl⟩

section
variable {c : Config} {op : Opcode} {p part batch later : List Byte} {b : Block}

/-- A batch that does not complete the frame is kept. -/
theorem feed_of_incomplete (h : Arriving c part b) (legal : p.length ≤ 2048) (short : batch.length ≤ c.batchMax)
    (fits : p.length + 5 ≤ c.accCap) (cut : inboundFrame c op p (stopByte c) = part ++ batch ++ later)
    (more : later ≠ []) :
    ∃ (b' : Block) (events : List Event), feed c batch b = (b', okResponse .none events) ∧
      events.any isFatal = false ∧ Arriving c (part ++ batch) b' ∧ b'.queue = b.queue := by
  have length := congrArg List.length cut
  rw [inboundFrame_length, List.length_append, List.length_append] at length
  obtain ⟨guarded, noFatal⟩ :=
    overflowGuard_of_arriving h (part_cases (cut.trans (List.append_assoc _ _ _))) (batch := batch) (by omega)
  obtain ⟨runs, garbage, noStart, hacc⟩ := guarded
  have waits : isWait (classify c ((overflowGuard c batch b).1.acc ++ batch)) = true := by
    rw [hacc, List.append_assoc]
    exact classify_prefix noStart legal cut more
  refine ⟨_, _, feed_of_guarded_wait h.runs short Prod.mk.eta.symm waits, noFatal, ⟨?_, garbage, noStart, ?_⟩, ?_⟩
  · rw [settle_halted, accAppend_halted, runs]
  · rw [settle_acc, accAppend_acc, hacc, List.append_assoc]
  · rw [settle_queue, accAppend_queue, overflowGuard_queue]

/-- The batch that completes the frame queues it. -/
theorem feed_of_complete (h : Arriving c part b) (legal : p.length ≤ 2048) (short : batch.length ≤ c.batchMax)
    (fits : p.length + 5 ≤ c.accCap) (cut : inboundFrame c op p (stopByte c) = part ++ batch)
    (space : b.queue.length < 256) :
    ∃ events : List Event,
      feed c batch b =
        (seekingStartBlock c [] 0 (b.queue ++ [⟨opcodeByte c op, p⟩]), okResponse .none events) ∧
      events.any isFatal = false := by
  have length := congrArg List.length cut
  rw [inboundFrame_length, List.length_append] at length
  obtain ⟨guarded, noFatal⟩ := overflowGuard_of_arriving h (part_cases cut) (batch := batch) (by omega)
  obtain ⟨-, garbage, noStart, hacc⟩ := guarded
  have acc_eq : (overflowGuard c batch b).1.acc ++ batch = garbage ++ (inboundFrame c op p (stopByte c) ++ []) := by
    rw [hacc, cut, List.append_assoc, List.append_nil]
  have accepted : classify c ((overflowGuard c batch b).1.acc ++ batch) =
      .accept garbage.length (opcodeByte c op) p.length := by
    rw [acc_eq, classify_frame noStart legal, if_pos rfl]
  have space' : (overflowGuard c batch b).1.queue.length ≠ queueCap := by
    rw [overflowGuard_queue]; exact space.ne
  have fed := feed_of_guarded_accept h.runs short Prod.mk.eta.symm accepted space'
  rw [acc_eq, memRead_frame, overflowGuard_queue] at fed
  refine ⟨_, fed, ?_⟩
  rw [List.any_append, noFatal]
  rfl

end

/-! ### The run of the batches -/

/-- The run reaches a state with this block, and marks no fault and no refusal on the way. -/
def RunEnds (s : State) (blk : Block) (outcome : Host.Outcome State Fault Refusal) : Prop :=
  ∃ t : State, outcome = .next t ∧ t.blk = blk ∧ t.runFaulted = s.runFaulted ∧ t.runRefused = s.runRefused

theorem runFeeds_cons {s t : State} {batch : List Byte} (h : exec (.feed batch) s = .next t)
    (later : List (List Byte)) : runFeeds s (batch :: later) = runFeeds t later := by
  rw [runFeeds, h]

/-- Empty batches leave the empty block as it is. -/
theorem runEnds_of_empty_batches {batches : List (List Byte)} (h : ∀ batch ∈ batches, batch = []) :
    ∀ (s : State) (queue : List Entry), s.blk = seekingStartBlock s.cfg [] 0 queue →
      RunEnds s s.blk (runFeeds s batches) := by
  induction batches with
  | nil => exact fun s _ _ => ⟨s, rfl, rfl, rfl, rfl⟩
  | cons batch later ih =>
    intro s queue rests
    obtain rfl : batch = [] := h _ List.mem_cons_self
    have fed := feed_nil_of_acc_nil (c := s.cfg) (b := s.blk) (by rw [rests]; rfl) (by rw [rests]; rfl)
    have fed' : feed s.cfg [] s.blk = (s.blk, okResponse .none []) := by
      rw [fed, rests]; rfl
    rw [runFeeds_cons (exec_feed_of_noFatal fed' rfl)]
    exact ih (fun batch hb => h batch (List.mem_cons_of_mem _ hb)) { s with resp := _ } queue rests

/-- Whatever part of the frame has arrived, the batches that bring the rest queue the frame. -/
theorem runEnds_of_arriving {op : Opcode} {p : List Byte} {batches : List (List Byte)} (legal : p.length ≤ 2048) :
    ∀ (s : State) (part : List Byte), Arriving s.cfg part s.blk → p.length + 5 ≤ s.cfg.accCap →
      s.blk.queue.length < 256 → (∀ batch ∈ batches, batch.length ≤ s.cfg.batchMax) →
      part ++ batches.flatten = inboundFrame s.cfg op p (stopByte s.cfg) →
      part ≠ inboundFrame s.cfg op p (stopByte s.cfg) →
      RunEnds s (seekingStartBlock s.cfg [] 0 (s.blk.queue ++ [⟨opcodeByte s.cfg op, p⟩])) (runFeeds s batches) := by
  induction batches with
  | nil =>
    intro s part _ _ _ _ whole incomplete
    exact absurd ((List.append_nil part).symm.trans whole) incomplete
  | cons batch later ih =>
    intro s part arriving fits space short whole incomplete
    have shortBatch := short batch List.mem_cons_self
    have shortLater (x : List Byte) (hx : x ∈ later) := short x (List.mem_cons_of_mem _ hx)
    rw [List.flatten_cons, ← List.append_assoc] at whole
    by_cases complete : later.flatten = []
    · rw [complete, List.append_nil] at whole
      obtain ⟨events, fed, noFatal⟩ := feed_of_complete arriving legal shortBatch fits whole.symm space
      rw [runFeeds_cons (exec_feed_of_noFatal fed noFatal)]
      exact runEnds_of_empty_batches (List.flatten_eq_nil_iff.1 complete)
        { s with blk := seekingStartBlock s.cfg [] 0 (s.blk.queue ++ [⟨opcodeByte s.cfg op, p⟩]), resp := _ } _ rfl
    · obtain ⟨b', events, fed, noFatal, arriving', queue_eq⟩ :=
        feed_of_incomplete arriving legal shortBatch fits whole.symm complete
      rw [runFeeds_cons (exec_feed_of_noFatal fed noFatal), ← queue_eq]
      refine ih { s with blk := b', resp := _ } (part ++ batch) arriving' fits (queue_eq ▸ space) shortLater whole ?_
      intro ended
      rw [← whole] at ended
      exact complete (List.append_right_eq_self.1 ended.symm)

/-- Settles O38: at first no part of the frame has arrived. -/
theorem frameIsQueuedHoweverItIsCut : Obligations.FrameIsQueuedHoweverItIsCut := by
  intro s op payload batches runs garbage legal fits space short whole
  rw [encode_inboundRow] at whole
  have arriving : Arriving s.cfg [] s.blk := ⟨runs, s.blk.acc, garbage, (List.append_nil _).symm⟩
  have incomplete : [] ≠ inboundFrame s.cfg op payload (stopByte s.cfg) := by
    rw [inboundFrame_eq_cons]; exact List.cons_ne_nil _ _ |>.symm
  exact runEnds_of_arriving legal s [] arriving fits space short whole incomplete

end Sys2Proof.Proofs.CutFrames
end

