-- ==== Sys2Proof/Proofs/TelemetryFrame.lean ====
section
/-!
PROOFS. The telemetry payload built from field values (43_telemetry_layout.md rule R118): each writer's bytes are read back by
the reader of its width, at the offset where the payload holds them; and the frame that carries such a payload through the
block.
-/
namespace Sys2Proof.Proofs.TelemetryFrame
open Sys2Proof Sys2Proof.Machine
open Sys2Proof.Proofs.Telemetry Sys2Proof.Proofs.FrameQueue Sys2Proof.Proofs.InboundFrames

/-! ### Each width, read back (rule R114) -/

section
variable {p : List Byte} {k : Nat}

theorem u8At_eq {n : Nat} (hn : n ≤ 255) (h : p.getD k 0 = BitVec.ofNat 8 n) : u8At p k = n := by
  rw [u8At, h]
  exact toNat_ofNat_of_lt (Nat.lt_succ_of_le hn)

theorem u8At_ofInt {v : Int} (h : p.getD k 0 = BitVec.ofInt 8 v) : (u8At p k : Int) = v % 256 := by
  rw [u8At, h, BitVec.toNat_ofInt]
  exact Int.toNat_of_nonneg (Int.emod_nonneg _ (by decide))

/-- Two's complement of 16 bits. -/
theorem s16leAt_eq {v : Int} (low : -32768 ≤ v) (high : v ≤ 32767) (h0 : p.getD k 0 = BitVec.ofInt 8 v)
    (h1 : p.getD (k + 1) 0 = BitVec.ofInt 8 (v / 256)) : s16leAt p k = v := by
  have b0 := u8At_ofInt h0
  have b1 := u8At_ofInt h1
  unfold s16leAt u16leAt
  split <;> push_cast <;> omega

/-- Two's complement of 32 bits. -/
theorem s32leAt_eq {v : Int} (low : -2147483648 ≤ v) (high : v ≤ 2147483647) (h0 : p.getD k 0 = BitVec.ofInt 8 v)
    (h1 : p.getD (k + 1) 0 = BitVec.ofInt 8 (v / 256)) (h2 : p.getD (k + 2) 0 = BitVec.ofInt 8 (v / 65536))
    (h3 : p.getD (k + 3) 0 = BitVec.ofInt 8 (v / 16777216)) : s32leAt p k = v := by
  have b0 := u8At_ofInt h0
  have b1 := u8At_ofInt h1
  have b2 := u8At_ofInt h2
  have b3 := u8At_ofInt h3
  unfold s32leAt u32leAt
  split <;> push_cast <;> omega

end

/-! ### The whole record -/

/-- The 29 bytes of a payload, each at its offset (rule R118). -/
theorem telemetryBytes_eq (t : Telemetry) :
    telemetryBytes t =
      [BitVec.ofNat 8 t.ctrlLeft, BitVec.ofNat 8 t.ctrlRight,
        BitVec.ofNat 8 t.faultLeft, BitVec.ofNat 8 t.faultRight,
        BitVec.ofInt 8 t.encoderLeft, BitVec.ofInt 8 (t.encoderLeft / 256), BitVec.ofInt 8 (t.encoderLeft / 65536),
        BitVec.ofInt 8 (t.encoderLeft / 16777216),
        BitVec.ofInt 8 t.encoderRight, BitVec.ofInt 8 (t.encoderRight / 256), BitVec.ofInt 8 (t.encoderRight / 65536),
        BitVec.ofInt 8 (t.encoderRight / 16777216),
        BitVec.ofInt 8 t.batteryMv, BitVec.ofInt 8 (t.batteryMv / 256), BitVec.ofNat 8 t.safetyStatus,
        BitVec.ofInt 8 t.temperature, BitVec.ofInt 8 (t.temperature / 256), BitVec.ofNat 8 t.stateOfHealth,
        BitVec.ofInt 8 t.flags, BitVec.ofInt 8 (t.flags / 256),
        BitVec.ofInt 8 t.chargerDetails, BitVec.ofInt 8 (t.chargerDetails / 256),
        BitVec.ofInt 8 (t.chargerDetails / 65536), BitVec.ofInt 8 (t.chargerDetails / 16777216),
        BitVec.ofNat 8 t.wirelessAttached, BitVec.ofInt 8 t.usbChargerMv, BitVec.ofInt 8 (t.usbChargerMv / 256),
        BitVec.ofInt 8 t.wirelessVrectMv, BitVec.ofInt 8 (t.wirelessVrectMv / 256)] := by
  simp only [telemetryBytes, u8Bytes, s16leBytes, s32leBytes, List.cons_append, List.nil_append]

theorem telemetryBytes_length (t : Telemetry) : (telemetryBytes t).length = 29 := by
  rw [telemetryBytes_eq]
  rfl

/-- Settles O48: the payload holds each field's bytes at the field's offset. -/
theorem telemetryRoundTrip : Obligations.TelemetryRoundTrip := by
  intro t bytes words longs
  have length := telemetryBytes_length t
  rw [telemetry_eq_some_iff, length]
  refine ⟨rfl, le_rfl, ?_⟩
  simp only [List.forall_mem_cons] at bytes words longs
  obtain ⟨ctrlLeft, ctrlRight, faultLeft, faultRight, safetyStatus, stateOfHealth, wirelessAttached, -⟩ := bytes
  obtain ⟨⟨battery0, battery1⟩, ⟨temperature0, temperature1⟩, ⟨flags0, flags1⟩, ⟨usb0, usb1⟩, ⟨vrect0, vrect1⟩, -⟩ := words
  obtain ⟨⟨left0, left1⟩, ⟨right0, right1⟩, ⟨charger0, charger1⟩, -⟩ := longs
  rw [telemetryBytes_eq, telemetryFields, u8At_eq (k := 0) ctrlLeft rfl, u8At_eq (k := 1) ctrlRight rfl,
    u8At_eq (k := 2) faultLeft rfl, u8At_eq (k := 3) faultRight rfl,
    s32leAt_eq (k := 4) left0 left1 rfl rfl rfl rfl, s32leAt_eq (k := 8) right0 right1 rfl rfl rfl rfl,
    s16leAt_eq (k := 12) battery0 battery1 rfl rfl, u8At_eq (k := 14) safetyStatus rfl,
    s16leAt_eq (k := 15) temperature0 temperature1 rfl rfl, u8At_eq (k := 17) stateOfHealth rfl,
    s16leAt_eq (k := 18) flags0 flags1 rfl rfl, s32leAt_eq (k := 20) charger0 charger1 rfl rfl rfl rfl,
    u8At_eq (k := 24) wirelessAttached rfl, s16leAt_eq (k := 25) usb0 usb1 rfl rfl,
    s16leAt_eq (k := 27) vrect0 vrect1 rfl rfl]

/-! ### The frame that carries it (95_test_vectors.md section 1.7) -/

/-- DEQUEUE of a queue with a head. -/
theorem exec_dequeue_of_cons {s : State} {e : Entry} {rest : List Entry} (runs : s.blk.halted = false)
    (head : s.blk.queue = e :: rest) :
    exec .dequeue s =
      .next { s with blk := { s.blk with queue := rest }, resp := { status := .ok, result := .entry e, events := [] } } := by
  rw [exec_dequeue, dequeue_of_cons runs head, finish_ok_nil]

/-- Settles O49: the row queues its payload on the empty queue, and DEQUEUE takes it from there. -/
theorem telemetryFrameArrivesEndToEnd : Obligations.TelemetryFrameArrivesEndToEnd := by
  intro s r runs empty garbage short room readBack
  have space : s.blk.queue.length < 256 := by rw [empty]; exact Nat.zero_lt_succ 255
  have length := telemetryBytes_length r
  have queued := exec_inboundRow_queues (p := telemetryBytes r) .getState runs (by omega) (by omega) (by omega) garbage
    space
  rw [empty, List.nil_append] at queued
  exact ⟨_, _, ⟨opcodeByte s.cfg .getState, telemetryBytes r⟩, queued, exec_dequeue_of_cons rfl rfl, rfl, rfl, readBack,
    rfl⟩

end Sys2Proof.Proofs.TelemetryFrame
end

