-- ==== Sys2Proof/Proofs/Step.lean ====
section
/-!
PROOFS. One step of the machine (20_memory.md section 5): which instruction it runs, who may issue it, that it goes on, and that
it keeps the invariants of 10_state.md section 6, which hold from reset on.
-/
namespace Sys2Proof.Proofs.Step
open Sys2Proof Sys2Proof.Machine
open Sys2Proof.Proofs.Reset
open Sys2Proof.Proofs.FeedEnds Sys2Proof.Proofs.FeedProperties Sys2Proof.Proofs.AllInstructions
open Sys2Proof.Proofs.Wires

/-! ### Fetch and issue -/

theorem step_of_noRequest {s : State} (h : s.requests = []) : step s = .next s := by rw [step, h]

section
variable {s : State} {r : Request} {later : List Request}

theorem step_of_fetched {i : Instr} (h : s.requests = r :: later) (hi : fetchInstr s.cfg r.channel r.bytes = .ok i) :
    step s = exec i { s with requests := later } := by
  simp only [step, h, hi]

theorem step_of_malformed {e : DecodeError} (h : s.requests = r :: later)
    (he : fetchInstr s.cfg r.channel r.bytes = .error e) : step s = .refused (.malformedRequest e) := by
  simp only [step, h, he]

end

/-- Settles O54: the three cases of a step. -/
theorem stepRunsTheDecodedInstruction : Obligations.StepRunsTheDecodedInstruction := fun _ =>
  ⟨step_of_noRequest, fun _ _ pending => ⟨fun _ fetched => step_of_fetched pending fetched,
    fun _ malformed => step_of_malformed pending malformed⟩⟩

/-- Bytes of the inbound wire are fetched as the row whose encoding they are, or as a FEED of them (assumption 11). -/
theorem exec_fetched_inbound (c : Config) (bytes : List Byte) :
    ∃ i : Instr, fetchInstr c .inbound bytes = .ok i ∧
      ∀ s : State, s.cfg = c → exec i s = exec (.feed bytes) s := by
  cases h : decodeInbound c bytes with
  | error e => exact ⟨.feed bytes, by simp only [fetchInstr, h], fun _ _ => rfl⟩
  | ok i =>
    obtain ⟨-, hi, hbytes⟩ := encode_of_decodeInbound h
    refine ⟨i, by simp only [fetchInstr, h], fun s hs => ?_⟩
    rw [exec_inbound hi, hs, hbytes]

/-- Settles O55: whatever the fetch reads there, it is performed as the FEED of the bytes. -/
theorem inboundBytesAreFed : Obligations.InboundBytesAreFed := by
  intro s agent bytes later pending
  obtain ⟨i, fetched, fed⟩ := exec_fetched_inbound s.cfg bytes
  exact (step_of_fetched pending fetched).trans (fed { s with requests := later } rfl)

/-- A request that an agent can make is fetched as an instruction that the agent may issue. -/
theorem fetched_of_requestWf {c : Config} {r : Request} (h : requestWf c r = true) :
    ∃ i : Instr, fetchInstr c r.channel r.bytes = .ok i ∧ mayIssue r.agent i = true := by
  cases hi : fetchInstr c r.channel r.bytes with
  | ok i => exact ⟨i, rfl, by simpa only [requestWf, hi] using h⟩
  | error e => simp only [requestWf, hi] at h; cases h

/-- Settles O56: every fetched instruction ends its operation. -/
theorem stepAlwaysGoesOn : Obligations.StepAlwaysGoesOn := by
  intro s issued
  cases pending : s.requests with
  | nil => exact ⟨s, step_of_noRequest pending, rfl, pending⟩
  | cons r later =>
    obtain ⟨i, fetched, -⟩ := fetched_of_requestWf (issued r (pending ▸ List.mem_cons_self))
    obtain ⟨b, answer, finished, -⟩ := exec_finish i { s with requests := later }
    exact ⟨_, (step_of_fetched pending fetched).trans finished, rfl, rfl⟩

theorem mayIssue_inbound {i : Instr} (h : channelOf i = .inbound) (a : Agent) : mayIssue a i = true ↔ a = .inbound := by
  cases i <;> cases h <;> exact beq_iff_eq

theorem mayIssue_outbound {i : Instr} (h : channelOf i = .outbound) (a : Agent) : mayIssue a i = true := by
  cases i <;> cases h <;> rfl

/-- Settles O57: the table of 60_exceptions.md rule R133, row by row. -/
theorem agentsIssueTheirOwnOperations : Obligations.AgentsIssueTheirOwnOperations :=
  ⟨fun _ _ => beq_iff_eq, fun _ => beq_iff_eq, fun _ => beq_iff_eq, fun _ => rfl, fun a _ h => mayIssue_inbound h a,
    fun a _ h => mayIssue_outbound h a, fun _ _ _ _ _ _ _ _ => ⟨rfl, rfl, rfl, rfl⟩⟩

/-! ### The block's invariants -/

/-- Settling writes the resting registers alone, so it does not matter when the queue is changed. -/
theorem settle_withQueue (c : Config) (b : Block) (queue : List Entry) :
    settle c { b with queue := queue } = { settle c b with queue := queue } := by
  unfold settle
  cases classify c b.acc <;> rfl

theorem inv_dequeue {c : Config} {b : Block} (h : Block.Inv c b) : Block.Inv c (dequeue b).1 := by
  rcases dequeue_cases b with ⟨-, refused⟩ | ⟨-, -, empty⟩ | ⟨runs, e, rest, head, taken⟩
  · rwa [refused]
  · rwa [empty]
  · obtain ⟨room, space, low, entries, resting⟩ := h
    rw [runs, if_neg Bool.false_ne_true] at resting
    obtain ⟨waits, settled⟩ := resting
    rw [head] at space entries
    rw [taken]
    refine ⟨room, (Nat.le_succ _).trans space, low, fun x hx => entries x (List.mem_cons_of_mem e hx), ?_⟩
    rw [if_neg (ne_true_of_eq_false runs)]
    exact ⟨waits, by rw [settle_withQueue, settled]⟩

theorem frozen_haltOnOverflow {c : Config} {b : Block} {s len : Nat} {op : Byte} (full : b.queue.length = queueCap)
    (h : classify c b.acc = .accept s op len) : Block.Frozen c (haltOnOverflow c s op len b) :=
  ⟨full, rfl, rfl, beq_iff_eq.2 h⟩

/-- Each end of a performed FEED meets the invariants, if the block before it is within its bounds. -/
theorem inv_of_feedEnd {c : Config} {d : Block} {events : List Event} {r : Block × Response}
    (h : FeedEnd c d events r) (runs : d.halted = false) (room : d.acc.length ≤ c.accCap)
    (space : d.queue.length ≤ queueCap) (low : d.badCount ≤ 4) (entries : ∀ e ∈ d.queue, Entry.Wf c e) :
    Block.Inv c r.1 := by
  cases h with
  | waits waits =>
    refine ⟨by rwa [settle_acc], by rwa [settle_queue], by rwa [settle_badCount], by rwa [settle_queue], ?_⟩
    rw [settle_halted, runs, if_neg Bool.false_ne_true]
    exact settled_settle waits
  | queues e notFull wf =>
    refine ⟨Nat.zero_le _, ?_, Nat.zero_le 4, fun x hx => ?_, settled_seekingStartBlock c 0 (d.queue ++ [e])⟩
    · have length : (d.queue ++ [e]).length = d.queue.length + 1 := List.length_append
      exact length ▸ Nat.lt_of_le_of_ne space notFull
    · rcases List.mem_append.1 hx with old | new
      · exact entries x old
      · rwa [List.mem_singleton.1 new]
  | halts s len op full hc =>
    exact ⟨room, space, low, entries, frozen_haltOnOverflow full hc⟩

theorem inv_feed {c : Config} (legal : c.batchMax ≤ c.accCap) (batch : List Byte) {b : Block} (h : Block.Inv c b) :
    Block.Inv c (feed c batch b).1 := by
  rcases feed_cases c batch b with ⟨reason, refused⟩ | ⟨d, passed, performed⟩
  · rwa [refused]
  · obtain ⟨-, space, low, entries, -⟩ := h
    obtain ⟨low', -⟩ := performed.counts low
    have guarded := overflowGuard_room c batch b (performed.short.trans legal)
    have shorter := performed.report.shorter
    rw [accAppend_acc, List.length_append] at shorter
    rw [← performed.queue_eq] at space entries
    exact inv_of_feedEnd performed.ends performed.halted_eq (shorter.trans guarded) space low' entries

theorem inv_exec {i : Instr} {s t : State} (legal : s.cfg.batchMax ≤ s.cfg.accCap) (h : Block.Inv s.cfg s.blk)
    (ht : exec i s = .next t) : Block.Inv s.cfg t.blk := by
  rcases exec_cases i s with ⟨-, -, batch, fed⟩ | rfl | rfl | ⟨-, -, result, answered⟩
  · obtain rfl := Host.Outcome.next.inj (fed.symm.trans ht)
    exact inv_feed legal batch h
  · obtain rfl := Host.Outcome.next.inj ht
    exact inv_dequeue h
  · obtain rfl := Host.Outcome.next.inj ht
    exact inv_reset s.cfg
  · obtain rfl := Host.Outcome.next.inj (answered.symm.trans ht)
    exact h

/-! ### The machine's invariants -/

/-- A block is halted only in a run marked as faulted: the halt raised the fatal event, or the mark stood before. -/
theorem faulted_exec {i : Instr} {s t : State} (h : s.blk.halted = true → s.runFaulted = true)
    (ht : exec i s = .next t) (halts : t.blk.halted = true) : t.runFaulted = true := by
  obtain ⟨marked, -⟩ := runMarksRecordFaultsAndRefusals i s t ht
  obtain ⟨raised, -⟩ := onlyOverflowHaltsAndOnlyResetResumes i s t ht
  rw [marked, Bool.or_eq_true]
  cases before : s.blk.halted with
  | true => exact .inl (h before)
  | false =>
    obtain ⟨op, len, fatal⟩ := raised before halts
    exact .inr (List.any_eq_true.2 ⟨_, fatal, rfl⟩)

/-- Every instruction keeps the invariants. -/
theorem stateInv_exec {i : Instr} {s t : State} (h : State.Inv s) (ht : exec i s = .next t) : State.Inv t := by
  obtain ⟨legal, inv, issued, faulted⟩ := h
  obtain ⟨cfg_eq, requests_eq⟩ := exec_cfg_requests ht
  have capacity : s.cfg.batchMax ≤ s.cfg.accCap := by
    obtain ⟨-, -, -, capacity, -⟩ := legal
    exact capacity
  unfold State.Inv
  rw [cfg_eq, requests_eq]
  exact ⟨legal, inv_exec capacity inv ht, issued, faulted_exec faulted ht⟩

/-- Settles O58: without a request the state stays; otherwise the first is taken off the list, and the instruction it is
fetched as keeps the invariants. -/
theorem stepKeepsTheInvariants : Obligations.StepKeepsTheInvariants := by
  intro s t inv ht
  cases pending : s.requests with
  | nil =>
    rw [step_of_noRequest pending] at ht
    exact Host.Outcome.next.inj ht ▸ inv
  | cons r later =>
    obtain ⟨legal, blockInv, issued, faulted⟩ := inv
    rw [pending] at issued
    obtain ⟨i, fetched, -⟩ := fetched_of_requestWf (issued r List.mem_cons_self)
    rw [step_of_fetched pending fetched] at ht
    have taken : State.Inv { s with requests := later } :=
      ⟨legal, blockInv, fun x hx => issued x (List.mem_cons_of_mem r hx), faulted⟩
    exact stateInv_exec taken ht

/-- Settles O59: the platform's parameters are legal, the block is at reset, and no request is pending. -/
theorem resetStateMeetsTheInvariants : Obligations.ResetStateMeetsTheInvariants :=
  ⟨platform_legal, inv_reset Config.platform, List.forall_mem_nil _, fun halts => nomatch halts⟩

end Sys2Proof.Proofs.Step
end
